-- ==== Sys2Proof/Word.lean ====
section
/-! DEFINITION. The words of the block: every register and bus transaction is 32 bits wide (00_scope.md R7 `WORD`),
an address byte is 8 bits (R11). -/

namespace Sys2Proof

/-- A register, a data word or an address: `WORD` = 32 bits (00_scope.md R7, R67). -/
abbrev Word := BitVec 32

/-- An address byte or a device opcode (00_scope.md R11). -/
abbrev Byte := BitVec 8

end Sys2Proof
end

