-- ==== Sys2Proof/Machine/Bus.lean ====
section
/-! DEFINITION. The host's side of the bus: what a transaction is before the block decodes it (30_encoding.md R80,
00_scope.md R12). -/

namespace Sys2Proof

/-- The five registers of a chip select (40_bus_timing.md R110). -/
inductive CsReg where
  | setup
  | pulse
  | cycle
  | timings
  | mode
  deriving DecidableEq, Repr, Inhabited

/-- Where a transaction goes: the window, and the offset inside it (20_memory.md R60). Window (a)'s addresses are
open, so a register there is named by chip select and register (30_encoding.md R96); `csGap` is an offset of
window (a) at which no register stands. -/
inductive Target where
  | cs (index : Nat) (reg : CsReg)
  | csGap (offset : Word)
  | reg (offset : Word)
  | cmd (offset : Word)
  deriving DecidableEq, Repr, Inhabited

/-- The direction, with the data word of a write (30_encoding.md R80: "absent for a read"). -/
inductive Dir where
  | read
  | write (data : Word)
  deriving DecidableEq, Repr, Inhabited

/-- A host transaction: window and offset, direction and data, and the access width in bytes, which the block
admits only at 4 (20_memory.md R67). -/
structure Txn where
  target : Target
  dir : Dir
  size : Nat
  deriving DecidableEq, Repr, Inhabited

/-- `MemRead(addr, size)` and `MemWrite(addr, size, v)` at an absolute address (00_scope.md R12). -/
structure MemAccess where
  addr : Word
  dir : Dir
  size : Nat
  deriving DecidableEq, Repr, Inhabited

/-- Why a transaction is no instruction of the table (20_memory.md R67, R77; 30_encoding.md R97, R98). -/
inductive Reject where
  /-- not 4 bytes wide (20_memory.md R67) -/
  | width
  /-- not at a multiple of 4 (20_memory.md R67) -/
  | misaligned
  /-- window (b) or (a) has nothing at this offset (20_memory.md R77) -/
  | unlisted
  /-- a listed offset in the other direction (20_memory.md R77) -/
  | direction
  /-- a command word with a one outside bits `CMD_WINDOW_BITS`-1:2 (30_encoding.md R98) -/
  | commandBits
  /-- a read of window (c) outside the offsets of the host status word (30_encoding.md R82) -/
  | notStatusOffset
  /-- a cycle count above 7, which only a layout with a wider `ACYCLE` can hold (30_encoding.md R86) -/
  | cycleCount
  deriving DecidableEq, Repr, Inhabited

end Sys2Proof
end

