-- ==== Sys2Proof/Config.lean ====
section
/-! DEFINITION. The configuration record of 00_scope.md R7 to R9 and the free values.
The record is plain data: `State` carries one, no step writes it, and so a statement about every state is a
statement about every configuration ("the model takes it as an argument and claims quantify over it", §4).
What the spec leaves OPEN has no value here: `Config.board` is opaque. -/

namespace Sys2Proof

/-- A field of a register: `width` bits from bit `lo` up (00_scope.md R8, R10). -/
structure Field where
  lo : Nat
  width : Nat
  deriving DecidableEq, Repr, Inhabited

/-- The layout parameters of 00_scope.md R8, with `CMD_WINDOW_BITS` of R7. -/
structure Layout where
  offCfg : Word
  offCtrl : Word
  offSr : Word
  offIdr : Word
  offAddr : Word
  offEccsr : Word
  /-- `OFF_HSTAT`: `none` is the default "any in-window word offset" (30_encoding.md R82). -/
  offHstat : Option Word
  cfgPagesize : Field
  cfgWspare : Field
  cfgRspare : Field
  cfgRbedge : Field
  cfgDtocyc : Field
  cfgDtomul : Field
  cfgSparesize : Field
  srRbRise : Field
  srRbFall : Field
  srSeqBusy : Field
  srXfrDone : Field
  srCmdDone : Field
  srRbEdge0 : Field
  hstatBusy : Field
  eccsrBusy : Field
  cwCmd1 : Field
  cwCmd2 : Field
  cwVcmd2 : Field
  cwAcycle : Field
  cwCsid : Field
  cwDataen : Field
  cwNfcwr : Field
  cmdWindowBits : Nat
  deriving DecidableEq, Repr, Inhabited

/-- An edge of the ready/busy pin (10_state.md R35, R36; `RB_EDGE0_POLARITY` of 00_scope.md R9). -/
inductive Edge where
  | rising
  | falling
  deriving DecidableEq, Repr, Inhabited

/-- The behavioural parameters of 00_scope.md R9, with `SUPPORTED_PAGE_SIZES` of R7. -/
structure Behaviour where
  rbEdge0Polarity : Edge
  /-- `PAGE_CODE`: pairs of a page size and its code (41_sequencer_config.md R132). -/
  pageCode : List (Word × Word)
  dtomulX1048576 : Word
  /-- `WAIT_BOUND`: `none` is the source's unbounded wait (43_status_poller.md R188). -/
  waitBound : Option Nat
  supportedPageSizes : List Word
  deriving DecidableEq, Repr, Inhabited

/-- The offsets in window (a) of one chip select's five registers: OPEN (20_memory.md R63). -/
structure CsOffsets where
  setup : Word
  pulse : Word
  cycle : Word
  timings : Word
  mode : Word
  deriving DecidableEq, Repr, Inhabited

/-- The positions and codes of the parts of a mode register: OPEN (40_bus_timing.md R112). -/
structure ModeLayout where
  read : Field
  write : Field
  dbw : Field
  tdf : Field
  exnw : Field
  dbw8 : Word
  dbw16 : Word
  exnwDisabled : Word
  deriving DecidableEq, Repr, Inhabited

/-- The OPEN structural parameters: 00_scope.md R7, 40_bus_timing.md R112 and R117. `NOR_TIMINGS` is no
parameter: the source fixes it at zero. -/
structure Board where
  part : String
  regBase : Word
  cmdBase : Word
  csBase : Word
  /-- The lengths in bytes of windows (b) and (a): the spec gives none. DESIGN CHOICE: parameters of the model
  (notes/assumptions/13.md). -/
  regLen : Nat
  csLen : Nat
  nCs : Nat
  nandCs : Nat
  periphId : Nat
  csOffsets : List CsOffsets
  mode : ModeLayout
  nandSetup : Word
  nandPulse : Word
  nandCycle : Word
  nandTimings : Word
  norSetup : Word
  norPulse : Word
  norCycle : Word
  deriving DecidableEq, Repr, Inhabited

/-- The whole configuration record (00_scope.md §4). -/
structure Params where
  layout : Layout
  behaviour : Behaviour
  board : Board
  deriving DecidableEq, Repr, Inhabited

/-- The OPEN parameters of the machine at reset: no value, so nothing can be proved of one
(notes/assumptions/1.md). -/
opaque Config.board : Board

/-- The free word drawn as the `n`-th draw (00_scope.md R15 "draw"; 43_status_poller.md R170 `draw_32`). -/
opaque Config.draw : Nat → Word

/-- The free bit drawn as the `n`-th draw (43_status_poller.md R176 `draw_1`). -/
opaque Config.drawBit : Nat → Bool

end Sys2Proof
end

