-- ==== Sys2Proof/Machine/Bits.lean ====
section
/-! DEFINITION. Reading and writing the fields of a word (00_scope.md R10) and the default records of 00_scope.md
R7 to R9. -/

namespace Sys2Proof

/-- The word with ones in bits `n`-1 down to 0. -/
def lowMask (n : Nat) : Word := BitVec.ofNat 32 (2 ^ n - 1)

/-- `mask(F)`: ones exactly in the bits of the field (00_scope.md R10). -/
def Field.mask (f : Field) : Word := lowMask f.width <<< f.lo

/-- `w.F`: the unsigned value of the field's bits (00_scope.md R10 `v[hi:lo]`). -/
def Field.get (f : Field) (w : Word) : Word := (w >>> f.lo) &&& lowMask f.width

/-- The field's lowest bit, the whole field when it is one bit wide (00_scope.md R10 `v[i]`). -/
def Field.bit (f : Field) (w : Word) : Bool := w.getLsbD f.lo

/-- Whether `v` fits the field's width, the condition under which `set` is defined (00_scope.md R10). -/
def Field.fits (f : Field) (v : Word) : Bool := (v &&& ~~~ lowMask f.width) == 0#32

/-- `set(w, F, v)`: the word with the field replaced (00_scope.md R10). -/
def Field.set (f : Field) (w v : Word) : Word := (w &&& ~~~ f.mask) ||| ((v &&& lowMask f.width) <<< f.lo)

/-- `set(w, F, 1 if b else 0)`. -/
def Field.setBit (f : Field) (w : Word) (b : Bool) : Word := f.set w (if b then 1#32 else 0#32)

/-- The fields of the configuration register (30_encoding.md R90). -/
def Layout.cfgFields (L : Layout) : List Field :=
  [L.cfgPagesize, L.cfgWspare, L.cfgRspare, L.cfgRbedge, L.cfgDtocyc, L.cfgDtomul, L.cfgSparesize]

/-- The event-flag fields of the status register (10_state.md R32). -/
def Layout.eventFields (L : Layout) : List Field :=
  [L.srRbRise, L.srRbFall, L.srXfrDone, L.srCmdDone, L.srRbEdge0]

/-- The fields of the status register (30_encoding.md R91). -/
def Layout.srFields (L : Layout) : List Field := L.srSeqBusy :: L.eventFields

/-- The fields of the command word (30_encoding.md R83). -/
def Layout.cwFields (L : Layout) : List Field :=
  [L.cwCmd1, L.cwCmd2, L.cwVcmd2, L.cwAcycle, L.cwCsid, L.cwDataen, L.cwNfcwr]

/-- The ones of all the fields of a list. -/
def maskOf (fs : List Field) : Word := fs.foldr (fun f w => f.mask ||| w) 0#32

/-- `CFG_DEFINED` (10_state.md R28). -/
def Layout.cfgDefined (L : Layout) : Word := maskOf L.cfgFields

/-- `SR_EVENTS` (10_state.md R32). -/
def Layout.srEvents (L : Layout) : Word := maskOf L.eventFields

/-- `SR_DEFINED` (10_state.md R32). -/
def Layout.srDefined (L : Layout) : Word := maskOf L.srFields

/-- The bits a command word may have: `CMD_WINDOW_BITS`-1 down to 2 (30_encoding.md R83, 00_scope.md R16). -/
def Layout.cmdAllowed (L : Layout) : Word := lowMask L.cmdWindowBits &&& ~~~ 3#32

/-- `W.ACYCLE`, the address-cycle count of a command word (30_encoding.md R86). -/
def Layout.acycle (L : Layout) (w : Word) : Nat := (L.cwAcycle.get w).toNat

/-- The register offsets of window (b) (20_memory.md R61). -/
def Layout.regOffsets (L : Layout) : List Word :=
  [L.offCfg, L.offCtrl, L.offSr, L.offIdr, L.offAddr, L.offEccsr]

/-- No bit of a command word outside `CMD_WINDOW_BITS`-1:2 is set (30_encoding.md R83). -/
def Layout.cmdBitsOk (L : Layout) (w : Word) : Bool := (w &&& ~~~ L.cmdAllowed) == 0#32

/-- The offsets of window (c) at which a read returns the host status word (30_encoding.md R82). -/
def Layout.hstatAt (L : Layout) (offset : Word) : Bool :=
  L.cmdBitsOk offset && (match L.offHstat with
    | none => true
    | some o => offset == o)

/-- The default layout of 00_scope.md R7, R8 (general knowledge by the spec's own mark: G1, G3, G6 to G8, G10, G11;
notes/assumptions/20.md). -/
def Layout.default : Layout where
  offCfg := 0x000#32
  offCtrl := 0x004#32
  offSr := 0x008#32
  offIdr := 0x010#32
  offAddr := 0x018#32
  offEccsr := 0x088#32
  offHstat := none
  cfgPagesize := ⟨0, 3⟩
  cfgWspare := ⟨8, 1⟩
  cfgRspare := ⟨9, 1⟩
  cfgRbedge := ⟨13, 1⟩
  cfgDtocyc := ⟨16, 4⟩
  cfgDtomul := ⟨20, 3⟩
  cfgSparesize := ⟨24, 7⟩
  srRbRise := ⟨4, 1⟩
  srRbFall := ⟨5, 1⟩
  srSeqBusy := ⟨8, 1⟩
  srXfrDone := ⟨16, 1⟩
  srCmdDone := ⟨17, 1⟩
  srRbEdge0 := ⟨24, 1⟩
  hstatBusy := ⟨27, 1⟩
  eccsrBusy := ⟨0, 1⟩
  cwCmd1 := ⟨2, 8⟩
  cwCmd2 := ⟨10, 8⟩
  cwVcmd2 := ⟨18, 1⟩
  cwAcycle := ⟨19, 3⟩
  cwCsid := ⟨22, 3⟩
  cwDataen := ⟨25, 1⟩
  cwNfcwr := ⟨26, 1⟩
  cmdWindowBits := 27

/-- The defaults of 00_scope.md R9, and all five page sizes (R7; notes/assumptions/20.md). -/
def Behaviour.default : Behaviour where
  rbEdge0Polarity := .rising
  pageCode := [(512#32, 0#32), (1024#32, 1#32), (2048#32, 2#32), (4096#32, 3#32), (8192#32, 4#32)]
  dtomulX1048576 := 7#32
  waitBound := none
  supportedPageSizes := [512#32, 1024#32, 2048#32, 4096#32, 8192#32]

/-- The configuration record with the defaults of the spec and a given board. -/
def Params.withBoard (b : Board) : Params := ⟨Layout.default, Behaviour.default, b⟩

/-- The code of a page size the part supports, if it has one (41_sequencer_config.md R132). -/
def Behaviour.codeOf (b : Behaviour) (size : Word) : Option Word :=
  if size ∈ b.supportedPageSizes then b.pageCode.lookup size else none

/-- Whether `c` is `PAGE_CODE(p)` for some supported page size p (41_sequencer_config.md R120). -/
def Behaviour.isPageCode (b : Behaviour) (c : Word) : Bool :=
  b.supportedPageSizes.any fun p => b.pageCode.lookup p == some c

end Sys2Proof
end

