-- ==== Sys2Proof/Syntax.lean ====
section
/-! DEFINITION. The 21 host transactions of spec/opcode_table.json (30_encoding.md R96), one constructor each. -/

namespace Sys2Proof

/-- One host bus transaction the block gives a meaning (30_encoding.md R80, R96). A command word is kept whole:
the block latches all of it and the trace shows it (10_state.md R41, R44). -/
inductive Instr where
  /-- `CFG.W`: write the configuration register with `v` (R120). -/
  | cfgW (v : Word)
  /-- `CFG.R`: read the configuration register (R121). -/
  | cfgR
  /-- `IDR.W`: disable the interrupt sources of the mask `m` (R122). -/
  | idrW (m : Word)
  /-- `CTRL.W`: write the control register with `v` (R123). -/
  | ctrlW (v : Word)
  /-- `ADDR.W`: write the extra-address register with `v` (R140). -/
  | addrW (v : Word)
  /-- `NFC_CMD_A0`: command word `w`, packed address word `a`, no address cycle (R142). -/
  | nfcCmdA0 (w a : Word)
  /-- `NFC_CMD_A1`: one address cycle (R143). -/
  | nfcCmdA1 (w a : Word)
  /-- `NFC_CMD_A2`: two address cycles (R144). -/
  | nfcCmdA2 (w a : Word)
  /-- `NFC_CMD_A3`: three address cycles (R145). -/
  | nfcCmdA3 (w a : Word)
  /-- `NFC_CMD_A4`: four address cycles (R146). -/
  | nfcCmdA4 (w a : Word)
  /-- `NFC_CMD_A5`: five address cycles, the first from the extra-address register (R147). -/
  | nfcCmdA5 (w a : Word)
  /-- `NFC_CMD_RSV6`: reserved cycle count 6 (R148). -/
  | nfcCmdRsv6 (w a : Word)
  /-- `NFC_CMD_RSV7`: reserved cycle count 7 (R148). -/
  | nfcCmdRsv7 (w a : Word)
  /-- `SR.R`: read the status register (R170). -/
  | srR
  /-- `HSTAT.R`: read the host status word at an offset of window (c) (R171). -/
  | hstatR (offset : Word)
  /-- `ECCSR.R`: read the ECC engine's status register (R172). -/
  | eccsrR
  /-- `CS.SETUP.W`: write chip select `cs`'s setup register (R111). -/
  | csSetupW (cs : Nat) (v : Word)
  /-- `CS.PULSE.W`: write chip select `cs`'s pulse register (R111). -/
  | csPulseW (cs : Nat) (v : Word)
  /-- `CS.CYCLE.W`: write chip select `cs`'s cycle register (R111). -/
  | csCycleW (cs : Nat) (v : Word)
  /-- `CS.TIMINGS.W`: write chip select `cs`'s extended-timings register (R111). -/
  | csTimingsW (cs : Nat) (v : Word)
  /-- `CS.MODE.W`: write chip select `cs`'s mode register (R112). -/
  | csModeW (cs : Nat) (v : Word)
  deriving DecidableEq, Repr, Inhabited

end Sys2Proof
end

