-- ==== Sys2Proof/WellFormed.lean ====
section
/-! DEFINITION. When a configuration record is well formed (00_scope.md R16) and when an instruction is: its command
word has zeros where the format has them and the cycle count of its row (30_encoding.md R83, R87). -/

namespace Sys2Proof

/-- Two fields have no bit in common. -/
abbrev Field.Disjoint (f g : Field) : Prop := f.lo + f.width ≤ g.lo ∨ g.lo + g.width ≤ f.lo

/-- The one-bit fields. -/
def Layout.flagFields (L : Layout) : List Field :=
  [L.cfgWspare, L.cfgRspare, L.cfgRbedge, L.srRbRise, L.srRbFall, L.srSeqBusy, L.srXfrDone, L.srCmdDone, L.srRbEdge0,
    L.hstatBusy, L.eccsrBusy, L.cwVcmd2, L.cwDataen, L.cwNfcwr]

/-- A well-formed layout (00_scope.md R16). That the flags are one bit wide, the opcodes eight, `SPARESIZE` at least six
bits (it holds the source's 55) and the window at most 32 is DEDUCED (notes/assumptions/23.md). -/
structure Layout.Wf (L : Layout) : Prop where
  cfgInside : ∀ f ∈ L.cfgFields, f.lo + f.width ≤ 32
  cfgDisjoint : L.cfgFields.Pairwise Field.Disjoint
  srInside : ∀ f ∈ L.srFields, f.lo + f.width ≤ 32
  srDisjoint : L.srFields.Pairwise Field.Disjoint
  hstatInside : L.hstatBusy.lo + L.hstatBusy.width ≤ 32
  eccsrInside : L.eccsrBusy.lo + L.eccsrBusy.width ≤ 32
  cwInside : ∀ f ∈ L.cwFields, 2 ≤ f.lo ∧ f.lo + f.width ≤ L.cmdWindowBits
  cwDisjoint : L.cwFields.Pairwise Field.Disjoint
  window : L.cmdWindowBits ≤ 32
  flagsOneBit : ∀ f ∈ L.flagFields, f.width = 1
  cmd1Byte : L.cwCmd1.width = 8
  cmd2Byte : L.cwCmd2.width = 8
  acycleWide : 3 ≤ L.cwAcycle.width
  dtocycWide : 4 ≤ L.cfgDtocyc.width
  sparesizeWide : 6 ≤ L.cfgSparesize.width
  offsetsAligned : ∀ o ∈ L.regOffsets, o &&& 3#32 = 0#32
  offsetsDistinct : L.regOffsets.Nodup
  hstatOffset : ∀ o, L.offHstat = some o → L.cmdBitsOk o = true

/-- The five page sizes of the source (10_state.md R23). -/
def pageSizes : List Word := [512#32, 1024#32, 2048#32, 4096#32, 8192#32]

/-- A well-formed behavioural record beside a layout: the codes fit their fields (00_scope.md R9, R16; 10_state.md
R23; 43_status_poller.md R188 "a positive k"). -/
structure Behaviour.Wf (L : Layout) (b : Behaviour) : Prop where
  sizesKnown : ∀ p ∈ b.supportedPageSizes, p ∈ pageSizes
  codesExist : ∀ p ∈ b.supportedPageSizes, ∃ c, b.pageCode.lookup p = some c ∧ L.cfgPagesize.fits c = true
  dtomulFits : L.cfgDtomul.fits b.dtomulX1048576 = true
  boundPositive : b.waitBound ≠ some 0

/-- The five offsets of one chip select. -/
def CsOffsets.toList (o : CsOffsets) : List Word := [o.setup, o.pulse, o.cycle, o.timings, o.mode]

/-- Two address ranges, each a base and a length, have no address in common. -/
abbrev rangesApart (b₁ l₁ b₂ l₂ : Nat) : Prop := b₁ + l₁ ≤ b₂ ∨ b₂ + l₂ ≤ b₁

/-- The fields of a mode register (40_bus_timing.md R112). -/
def ModeLayout.fields (m : ModeLayout) : List Field := [m.read, m.write, m.dbw, m.tdf, m.exnw]

/-- A well-formed mode register (00_scope.md R16 of its five fields). That each field can hold the values the two presets
write into it (40_bus_timing.md R113, R114) is DEDUCED (notes/assumptions/23.md). -/
structure ModeLayout.Wf (m : ModeLayout) : Prop where
  inside : ∀ f ∈ m.fields, f.lo + f.width ≤ 32
  disjoint : m.fields.Pairwise Field.Disjoint
  readFits : m.read.fits 1#32 = true
  writeFits : m.write.fits 1#32 = true
  dbw8Fits : m.dbw.fits m.dbw8 = true
  dbw16Fits : m.dbw.fits m.dbw16 = true
  tdfFits : m.tdf.fits 1#32 = true
  exnwFits : m.exnw.fits m.exnwDisabled = true

/-- A well-formed board beside a layout (00_scope.md R16; 20_memory.md R60, R62, R63). That windows (a) and (b) start
at a multiple of 4, as R67 needs of their registers' addresses, is DEDUCED (notes/assumptions/23.md). DESIGN CHOICE
(notes/assumptions/28.md): windows (a) and (b) end within 2^32 (`regInside`, `csInside`), the NAND chip select exists
(`nandInside`), and each register of the two windows has its own aligned word inside its window (`regHolds`, `csCount`,
`csHolds`, `csAligned`, `csDistinct`). -/
structure Board.Wf (L : Layout) (b : Board) : Prop where
  regAligned : b.regBase &&& 3#32 = 0#32
  csBaseAligned : b.csBase &&& 3#32 = 0#32
  cmdAligned : b.cmdBase &&& lowMask L.cmdWindowBits = 0#32
  cmdInside : b.cmdBase.toNat + 2 ^ L.cmdWindowBits ≤ 2 ^ 32
  regInside : b.regBase.toNat + b.regLen ≤ 2 ^ 32
  csInside : b.csBase.toNat + b.csLen ≤ 2 ^ 32
  regApartCmd : rangesApart b.regBase.toNat b.regLen b.cmdBase.toNat (2 ^ L.cmdWindowBits)
  csApartCmd : rangesApart b.csBase.toNat b.csLen b.cmdBase.toNat (2 ^ L.cmdWindowBits)
  csApartReg : rangesApart b.csBase.toNat b.csLen b.regBase.toNat b.regLen
  regHolds : ∀ o ∈ L.regOffsets, o.toNat + 4 ≤ b.regLen
  csCount : b.csOffsets.length = b.nCs
  csHolds : ∀ o ∈ b.csOffsets.flatMap CsOffsets.toList, o.toNat + 4 ≤ b.csLen
  csAligned : ∀ o ∈ b.csOffsets.flatMap CsOffsets.toList, o &&& 3#32 = 0#32
  csDistinct : (b.csOffsets.flatMap CsOffsets.toList).Nodup
  nandInside : b.nandCs < b.nCs
  mode : b.mode.Wf

/-- A well-formed configuration record (00_scope.md R16). -/
structure Params.Wf (p : Params) : Prop where
  layout : p.layout.Wf
  behaviour : p.behaviour.Wf p.layout
  board : p.board.Wf p.layout

/-- `w` is a command word of the row with cycle count `n` (30_encoding.md R87). -/
def Layout.isCommand (L : Layout) (n : Nat) (w : Word) : Bool := L.cmdBitsOk w && L.acycle w == n

/-- A well-formed instruction: what the encoding of its row can carry (30_encoding.md R96). Data words are free:
the meanings refuse the ones the spec refuses (R98). -/
def Instr.wf (L : Layout) : Instr → Bool
  | .cfgW _ => true
  | .cfgR => true
  | .idrW _ => true
  | .ctrlW _ => true
  | .addrW _ => true
  | .nfcCmdA0 w _ => L.isCommand 0 w
  | .nfcCmdA1 w _ => L.isCommand 1 w
  | .nfcCmdA2 w _ => L.isCommand 2 w
  | .nfcCmdA3 w _ => L.isCommand 3 w
  | .nfcCmdA4 w _ => L.isCommand 4 w
  | .nfcCmdA5 w _ => L.isCommand 5 w
  | .nfcCmdRsv6 w _ => L.isCommand 6 w
  | .nfcCmdRsv7 w _ => L.isCommand 7 w
  | .srR => true
  | .hstatR offset => L.hstatAt offset
  | .eccsrR => true
  | .csSetupW _ _ => true
  | .csPulseW _ _ => true
  | .csCycleW _ _ => true
  | .csTimingsW _ _ => true
  | .csModeW _ _ => true

end Sys2Proof
end

