-- ==== Sys2Proof/Decode.lean ====
section
/-! DEFINITION. From a bus transaction to an instruction or a rejection by name, and back (30_encoding.md §1, §3).
The window and direction pick the format; in window (b) the whole offset picks the register; in window (c) a
write's offset is the command word and its `ACYCLE` field picks the row (R80). -/

namespace Sys2Proof

/-- Formats REGW and REGR (30_encoding.md R81): the offset is compared whole. -/
def decodeReg (L : Layout) (offset : Word) : Dir → Except Reject Instr
  | .read =>
    if offset = L.offCfg then .ok .cfgR
    else if offset = L.offSr then .ok .srR
    else if offset = L.offEccsr then .ok .eccsrR
    else if offset ∈ L.regOffsets then .error .direction
    else .error .unlisted
  | .write v =>
    if offset = L.offCfg then .ok (.cfgW v)
    else if offset = L.offCtrl then .ok (.ctrlW v)
    else if offset = L.offIdr then .ok (.idrW v)
    else if offset = L.offAddr then .ok (.addrW v)
    else if offset ∈ L.regOffsets then .error .direction
    else .error .unlisted

/-- The row of a command word by its cycle count (30_encoding.md R87). -/
def commandOf (n : Nat) (w a : Word) : Except Reject Instr :=
  match n with
  | 0 => .ok (.nfcCmdA0 w a)
  | 1 => .ok (.nfcCmdA1 w a)
  | 2 => .ok (.nfcCmdA2 w a)
  | 3 => .ok (.nfcCmdA3 w a)
  | 4 => .ok (.nfcCmdA4 w a)
  | 5 => .ok (.nfcCmdA5 w a)
  | 6 => .ok (.nfcCmdRsv6 w a)
  | 7 => .ok (.nfcCmdRsv7 w a)
  | _ => .error .cycleCount

/-- Formats CMDR and CMDW (30_encoding.md R82, R83, R98). -/
def decodeCmd (L : Layout) (offset : Word) : Dir → Except Reject Instr
  | .read => if L.hstatAt offset then .ok (.hstatR offset) else .error .notStatusOffset
  | .write a => if L.cmdBitsOk offset then commandOf (L.acycle offset) offset a else .error .commandBits

/-- Format CSW (30_encoding.md R80; 40_bus_timing.md R111, R112): no read of these registers is in the table. -/
def decodeCs (index : Nat) (r : CsReg) : Dir → Except Reject Instr
  | .read => .error .direction
  | .write v =>
    match r with
    | .setup => .ok (.csSetupW index v)
    | .pulse => .ok (.csPulseW index v)
    | .cycle => .ok (.csCycleW index v)
    | .timings => .ok (.csTimingsW index v)
    | .mode => .ok (.csModeW index v)

/-- The decoder: total, rejecting by name (30_encoding.md R80; 20_memory.md R67, R77). -/
def decode (L : Layout) (x : Txn) : Except Reject Instr :=
  if x.size ≠ 4 then .error .width
  else
    match x.target with
    | .cs index r => decodeCs index r x.dir
    | .csGap _ => .error .unlisted
    | .reg offset => if offset &&& 3#32 ≠ 0#32 then .error .misaligned else decodeReg L offset x.dir
    | .cmd offset => decodeCmd L offset x.dir

/-- A 32-bit read. -/
def readTxn (t : Target) : Txn := ⟨t, .read, 4⟩

/-- A 32-bit write. -/
def writeTxn (t : Target) (v : Word) : Txn := ⟨t, .write v, 4⟩

/-- The encoder: the transaction of an instruction (30_encoding.md R96). -/
def encode (L : Layout) : Instr → Txn
  | .cfgW v => writeTxn (.reg L.offCfg) v
  | .cfgR => readTxn (.reg L.offCfg)
  | .idrW m => writeTxn (.reg L.offIdr) m
  | .ctrlW v => writeTxn (.reg L.offCtrl) v
  | .addrW v => writeTxn (.reg L.offAddr) v
  | .nfcCmdA0 w a => writeTxn (.cmd w) a
  | .nfcCmdA1 w a => writeTxn (.cmd w) a
  | .nfcCmdA2 w a => writeTxn (.cmd w) a
  | .nfcCmdA3 w a => writeTxn (.cmd w) a
  | .nfcCmdA4 w a => writeTxn (.cmd w) a
  | .nfcCmdA5 w a => writeTxn (.cmd w) a
  | .nfcCmdRsv6 w a => writeTxn (.cmd w) a
  | .nfcCmdRsv7 w a => writeTxn (.cmd w) a
  | .srR => readTxn (.reg L.offSr)
  | .hstatR offset => readTxn (.cmd offset)
  | .eccsrR => readTxn (.reg L.offEccsr)
  | .csSetupW cs v => writeTxn (.cs cs .setup) v
  | .csPulseW cs v => writeTxn (.cs cs .pulse) v
  | .csCycleW cs v => writeTxn (.cs cs .cycle) v
  | .csTimingsW cs v => writeTxn (.cs cs .timings) v
  | .csModeW cs v => writeTxn (.cs cs .mode) v

/-- Which register of a chip select stands at an offset of window (a). -/
def CsOffsets.find (o : CsOffsets) (x : Word) : Option CsReg :=
  if x = o.setup then some .setup
  else if x = o.pulse then some .pulse
  else if x = o.cycle then some .cycle
  else if x = o.timings then some .timings
  else if x = o.mode then some .mode
  else none

/-- The chip select and register at an offset of window (a), searched from index `i` (20_memory.md R63). -/
def csTarget (x : Word) : Nat → List CsOffsets → Target
  | _, [] => .csGap x
  | i, o :: os =>
    match o.find x with
    | some r => .cs i r
    | none => csTarget x (i + 1) os

/-- Whether an address lies in the window of `len` bytes from `base`. -/
def inWindow (addr base : Word) (len : Nat) : Bool :=
  base.toNat ≤ addr.toNat && addr.toNat < base.toNat + len

/-- The window and offset of an absolute address (20_memory.md R60, R62): in window (c) the offset is the low
`CMD_WINDOW_BITS` bits; `none` is outside the three windows (R77). -/
def route (p : Params) (addr : Word) : Option Target :=
  if inWindow addr p.board.cmdBase (2 ^ p.layout.cmdWindowBits) then
    some (.cmd (addr &&& lowMask p.layout.cmdWindowBits))
  else if inWindow addr p.board.regBase p.board.regLen then some (.reg (addr - p.board.regBase))
  else if inWindow addr p.board.csBase p.board.csLen then
    some (csTarget (addr - p.board.csBase) 0 p.board.csOffsets)
  else none

/-- The transaction an access at an absolute address is (00_scope.md R12). -/
def MemAccess.txn (p : Params) (m : MemAccess) : Option Txn :=
  (route p m.addr).map fun t => ⟨t, m.dir, m.size⟩

/-- The transaction of an opcode-table word, which gives the offset (bits 31:0) and, above it, the data word, but
not the window and direction: the register of window (b) at that offset in the direction the table names first,
else a command-decoded write (notes/assumptions/10.md). -/
def Txn.ofTableWord (w : Nat) : Txn :=
  let offset : Word := BitVec.ofNat 32 w
  let data : Word := BitVec.ofNat 32 (w >>> 32)
  let L := Layout.default
  if offset = L.offSr ∨ offset = L.offEccsr then readTxn (.reg offset)
  else if offset = L.offCfg ∨ offset = L.offCtrl ∨ offset = L.offIdr ∨ offset = L.offAddr then
    writeTxn (.reg offset) data
  else writeTxn (.cmd offset) data

end Sys2Proof

/-- The instruction the decoder reads from an opcode-table word of `nbits` bits, under the default layout
(notes/assumptions/10.md). -/
def Sys2Proof.decodeTableWord (nbits w : Nat) : Option Sys2Proof.Instr :=
  match Sys2Proof.decode Sys2Proof.Layout.default (Sys2Proof.Txn.ofTableWord (w % 2 ^ nbits)) with
  | .ok i => some i
  | .error _ => none
end

