-- ==== Sys2Proof/Machine/State.lean ====
section
/-! DEFINITION. The state of the machine: the block's record of 10_state.md R20, the chip-select registers beside it
(40_bus_timing.md R110), the host agent with the routine it is executing (00_scope.md R4, R14), the agenda of the
agents' turns, and the configuration record. Plain data throughout. -/

namespace Sys2Proof.Machine

/-- The sequencer's position in the life of one command (10_state.md R40). -/
inductive Phase where
  | idle
  | issue
  | data
  deriving DecidableEq, Repr, Inhabited

/-- The fault reasons of the block, a closed set of two (60_exceptions.md R200). A reason is a mark in the state
(`Block.fault`), not a stop: the run goes on (R201, R202; notes/assumptions/5.md). -/
inductive FaultReason where
  /-- a write into window (c) while the slot is occupied (R201); raised by the eight command-decoded writes -/
  | overlap
  /-- a command word with cycle count 6 or 7 (R202); raised by `NFC_CMD_RSV6` and `NFC_CMD_RSV7` -/
  | badCycleCount
  deriving DecidableEq, Repr, Inhabited

/-- `s.fault`, the set of reasons raised so far (10_state.md R45). -/
structure FaultSet where
  overlap : Bool
  badCycleCount : Bool
  deriving DecidableEq, Repr, Inhabited

/-- What the sequencer has done on the device side (10_state.md R44). -/
inductive Event where
  /-- `Dispatched(W, bytes)` -/
  | dispatched (w : Word) (bytes : List Byte)
  /-- `DataDone(W)` -/
  | dataDone (w : Word)
  deriving DecidableEq, Repr, Inhabited

/-- Why a step is refused: the closed set of 60_exceptions.md R206, the model's own `outsideBlock`, and the
dispatcher's `notModelled`. Every refusal says "the spec gives it no meaning" and is safe: it ends the run. -/
inductive Refusal where
  /-- `exec` of an instruction that has no meaning yet; no arm of `exec` raises it. Safe. -/
  | notModelled (mnemonic : String)
  /-- every transaction while the peripheral clock is off (10_state.md R46). Safe. -/
  | clockOff
  /-- an offset, direction, width or alignment no rule admits (20_memory.md R77). Safe. -/
  | unmapped
  /-- `CFG.W`, `ADDR.W` and the command-decoded writes: a reserved bit is set (30_encoding.md R98). Safe. -/
  | reservedBits
  /-- `CFG.W` with both spare flags set (41_sequencer_config.md R120). Safe. -/
  | bothSpareFlags
  /-- `CFG.W` with a page code of no supported size (41_sequencer_config.md R120). Safe. -/
  | badPageCode
  /-- `CFG.W`, `ADDR.W` or `CTRL.W` while a command is in flight (60_exceptions.md R206). Safe. -/
  | configWhileBusy
  /-- `CTRL.W` with data other than 0 (41_sequencer_config.md R123). Safe. -/
  | controlNonZero
  /-- `NFC_CMD_A0` to `NFC_CMD_A3`: a lane above the count is not zero (42_command_encoder.md R150). Safe. -/
  | unusedLaneNonZero
  /-- the five chip-select writes: no such chip select (40_bus_timing.md R111). Safe. -/
  | chipSelectRange
  /-- `configure_sequencer`: the spare size does not fit its field (41_sequencer_config.md R131). Safe. -/
  | spareSizeRange
  /-- `send_command`: fewer address bytes than the count (42_command_encoder.md R159). Safe. -/
  | shortAddressBytes
  /-- a host access outside the three windows, of which the spec says nothing (20_memory.md R77;
  notes/assumptions/17.md). Safe. -/
  | outsideBlock
  deriving DecidableEq, Repr, Inhabited

/-- The outcome `stuck` of 00_scope.md R13: the agent whose turn it is has no enabled step. The step stops; safe. -/
inductive Fault where
  /-- raised by the host's turn: its program has ended or its calling context is halted -/
  | hostHasNoStep
  /-- raised by the turn `SEQ.DISPATCH` when the phase is not Issue (42_command_encoder.md R152) -/
  | dispatchNotEnabled
  /-- raised by the turn `SEQ.XFER` when the phase is not Data (42_command_encoder.md R153) -/
  | xferNotEnabled
  /-- raised by `step` when the agenda is empty and neither the sequencer nor the host has a step -/
  | quiescent
  deriving DecidableEq, Repr, Inhabited

/-- The fatal outcomes of the host routines (60_exceptions.md R203, R204, R205): they halt the calling context. -/
inductive HostOutcome where
  | invariantViolation
  | unsupportedConfiguration
  | hardwareTimeout
  deriving DecidableEq, Repr, Inhabited

/-- The five registers of one chip select (40_bus_timing.md R110). -/
structure CsRegs where
  setup : Word
  pulse : Word
  cycle : Word
  timings : Word
  mode : Word
  deriving DecidableEq, Repr, Inhabited

/-- The record of 10_state.md R20, component by component. -/
structure Block where
  /-- configuration register (R22) -/
  cfg : Word
  /-- control register (R29) -/
  ctrl : Word
  /-- hidden interrupt mask (R30) -/
  imr : Word
  /-- extra-address register (R31) -/
  addr0 : Byte
  /-- event flag command_done (R33) -/
  cmdDone : Bool
  /-- event flag transfer_done (R34) -/
  xfrDone : Bool
  /-- event flag rb_pin_falling_edge (R35) -/
  rbFall : Bool
  /-- event flag rb_pin_rising_edge (R36) -/
  rbRise : Bool
  /-- event flag rb_pin_edge0 (R37) -/
  rbEdge0 : Bool
  /-- sequencer position (R40) -/
  phase : Phase
  /-- latched command word (R41) -/
  curCmd : Word
  /-- latched packed address word (R41) -/
  curAddr : Word
  /-- latched copy of the extra-address register (R41) -/
  curAddr0 : Byte
  /-- input from the ECC engine (R42) -/
  eccBusy : Bool
  /-- last level of the ready/busy pin, true is ready (R43) -/
  rbLevel : Bool
  /-- the peripheral clock gate has been enabled (R46) -/
  clockOn : Bool
  /-- device-side history, oldest first (R44) -/
  trace : List Event
  /-- fault reasons raised so far, sticky (R45) -/
  fault : FaultSet
  /-- the sticky refusal mark, with the reason that set it (R45) -/
  refused : Option Refusal
  deriving DecidableEq, Repr, Inhabited

/-- The condition a blocking wait spins on (43_status_poller.md R180 to R185). -/
inductive SpinCond where
  | hostNotBusy
  | commandDone
  | transferDone
  | rbFall
  | rbRise
  | rbEdge0
  | eccReady
  deriving DecidableEq, Repr, Inhabited

/-- A status predicate, which reads one register and projects one bit (R129, R130, R186). -/
inductive Query where
  | spareRead
  | spareWrite
  | sequencerBusy
  deriving DecidableEq, Repr, Inhabited

/-- One thing the host does inside a routine (00_scope.md R12, R14). -/
inductive HostOp where
  /-- "enable peripheral by identifier" (40_bus_timing.md R118) -/
  | enablePeripheral (id : Nat)
  /-- one bus transaction -/
  | access (x : Txn)
  /-- one bus transaction at an absolute address -/
  | mem (m : MemAccess)
  /-- `spin until c`: one poll a step, with the evaluations left when the waits are bounded (R14, R188) -/
  | spin (c : SpinCond) (left : Option Nat)
  /-- a predicate's read -/
  | query (q : Query)
  /-- steps 2 to 4 of `send_command`: the count assertion, the packing, the writes (42_command_encoder.md R156) -/
  | encodeCommand (w : Word) (bytes : List Byte)
  deriving DecidableEq, Repr, Inhabited

/-- A call the host program makes: the routines of 30_encoding.md R101, and an access outside any routine. -/
inductive Call where
  | configureNandTiming (busWidth : Word)
  | configureNorTiming (chipSelect : Nat) (busWidth : Word)
  | configureSequencer (pageSize spareSize : Word) (readSpare writeSpare : Bool)
  | resetSequencer
  | isSpareReadEnabled
  | isSpareWriteEnabled
  | sendCommand (command : Word) (addressBytes : List Byte)
  /-- internal to `send_command`, "not separately exposed" (43_status_poller.md R180) -/
  | waitHostNotBusy
  | waitCommandDone
  | waitTransferDone
  | waitReadyBusyPulse
  | waitReadyBusyEdge0
  | waitEccEngineReady
  | isSequencerBusy
  /-- a call of the peripheral clock gate (40_bus_timing.md R118) -/
  | clken
  /-- a transaction made outside the routines (95_test_vectors.md P6) -/
  | access (x : Txn)
  /-- the same at an absolute address (00_scope.md R12) -/
  | mem (m : MemAccess)
  deriving DecidableEq, Repr, Inhabited

/-- The host agent: the single CPU thread and the routine it is executing (00_scope.md R4a; notes/assumptions/8.md). -/
structure HostAgent where
  /-- the calls its program still makes, next first -/
  calls : List Call
  /-- what is left of the routine being executed -/
  ops : List HostOp
  /-- the word the last read transaction returned -/
  rdata : Word
  /-- the value the last status predicate returned -/
  ret : Option Bool
  /-- the fatal outcome that halted it, if one did -/
  outcome : Option HostOutcome
  deriving DecidableEq, Repr, Inhabited

/-- The turn of one agent: the atomic steps of 20_memory.md R72. -/
inductive Turn where
  /-- the host's next step -/
  | host
  /-- `SEQ.DISPATCH` -/
  | seqDispatch
  /-- `SEQ.XFER` -/
  | seqXfer
  /-- `ENV.RB(l)`: the ready/busy pin takes level `l` -/
  | envRb (l : Bool)
  /-- `ENV.ECC(b)`: the ECC engine's busy bit becomes `b` -/
  | envEcc (b : Bool)
  deriving DecidableEq, Repr, Inhabited

/-- The state of the whole machine. -/
structure State where
  /-- the configuration record, which no step writes (00_scope.md §4; notes/assumptions/1.md) -/
  par : Params
  /-- the block's record (10_state.md R20) -/
  blk : Block
  /-- the chip-select registers, by index (40_bus_timing.md R110) -/
  t : List CsRegs
  /-- the host agent -/
  host : HostAgent
  /-- the turns to come, next first: the schedule (20_memory.md R72; notes/assumptions/7.md) -/
  agenda : List Turn
  /-- how many free values have been drawn: the model's own counter (notes/assumptions/4.md) -/
  draws : Nat
  deriving DecidableEq, Repr, Inhabited

/-- Every register of a chip select at zero (notes/assumptions/2.md). -/
def CsRegs.zero : CsRegs := ⟨0#32, 0#32, 0#32, 0#32, 0#32⟩

/-- The block right after a hardware reset (10_state.md R50): Idle, clock off, trace and marks empty are the spec's;
every other value is the model's choice (notes/assumptions/2.md, notes/assumptions/3.md). -/
def Block.reset : Block where
  cfg := 0#32
  ctrl := 0#32
  imr := 0#32
  addr0 := 0#8
  cmdDone := false
  xfrDone := false
  rbFall := false
  rbRise := false
  rbEdge0 := false
  phase := .idle
  curCmd := 0#32
  curAddr := 0#32
  curAddr0 := 0#8
  eccBusy := false
  rbLevel := true
  clockOn := false
  trace := []
  fault := ⟨false, false⟩
  refused := none

/-- The machine right after a hardware reset, with configuration record `p`. -/
def State.resetWith (p : Params) : State where
  par := p
  blk := Block.reset
  t := List.replicate p.board.nCs CsRegs.zero
  host := ⟨[], [], 0#32, none, none⟩
  agenda := []
  draws := 0

/-- The machine right after a hardware reset, with the spec's default layout and behaviour and an open board. -/
def State.reset : State := State.resetWith (Params.withBoard Config.board)

/-- The outcome of a step or of a meaning. -/
abbrev Result := Host.Outcome State Fault Refusal

end Sys2Proof.Machine
end

