-- ==== Sys2Proof/Machine/Ops.lean ====
section
/-! DEFINITION. The shared operations on the state. The block has no trap entry and no return from one
(60_exceptions.md R218, R220): raising a fault is a mark (`State.raise`), a fatal outcome halts the host
(`State.haltHost`), a refusal is a mark of the whole run (`State.mark`). -/

namespace Sys2Proof.Machine

/-- The set with one more reason (10_state.md R45: "A step may add to it; no step removes from it"). -/
def FaultSet.add (f : FaultSet) : FaultReason → FaultSet
  | .overlap => { f with overlap := true }
  | .badCycleCount => { f with badCycleCount := true }

/-- `raise F` (00_scope.md R13): the reason is recorded and the state is otherwise unchanged (60_exceptions.md R201,
R202). -/
def State.raise (r : FaultReason) (s : State) : State := { s with blk.fault := s.blk.fault.add r }

/-- `refuse` for the whole run: the sticky mark (00_scope.md R13, 10_state.md R45). -/
def State.mark (r : Refusal) (s : State) : State := { s with blk.refused := some r }

/-- A transaction is refused while the peripheral clock is off (10_state.md R46), before every other check
(60_exceptions.md R216). -/
def clocked (s : State) (r : Result) : Result := if s.blk.clockOn then r else .refused .clockOff

/-- A read transaction returns a word to the host (20_memory.md R68). -/
def State.answer (w : Word) (s : State) : State := { s with host.rdata := w }

/-- The next free word (00_scope.md R15 "draw"). -/
def State.freeWord (s : State) : Word := Config.draw s.draws

/-- `k` draws have been made. -/
def State.drew (k : Nat) (s : State) : State := { s with draws := s.draws + k }

/-- `s.phase != Idle`: the in-flight-command slot is occupied (10_state.md R40). -/
def Block.busy (b : Block) : Bool := b.phase != .idle

/-- The fatal end of a routine: the calling context halts at once, nothing after the statement is performed
(60_exceptions.md R203, R218). -/
def State.haltHost (o : HostOutcome) (s : State) : State := { s with host.ops := [], host.outcome := some o }

/-- A write of one chip-select register, `upd` naming the register (40_bus_timing.md R111). -/
def State.updateCs (cs : Nat) (upd : CsRegs → CsRegs) (s : State) : State := { s with t := s.t.modify cs upd }

/-- The five chip-select writes (40_bus_timing.md R111, R112): the clock, then the range, then the write. -/
def writeCs (cs : Nat) (upd : CsRegs → CsRegs) (s : State) : Result :=
  clocked s (if s.par.board.nCs ≤ cs then .refused .chipSelectRange else .next (s.updateCs cs upd))

/-- The clock gate's "enable peripheral by identifier" (40_bus_timing.md R118): the controller's own identifier
enables its clock; another's is nothing to this block (notes/assumptions/19.md). -/
def State.enablePeripheral (id : Nat) (s : State) : State :=
  if id = s.par.board.periphId then { s with blk.clockOn := true } else s

end Sys2Proof.Machine
end

