-- ==== Sys2Proof/Machine/Flags.lean ====
section
/-! DEFINITION. The flags: the status words the host reads, the clearing of the event flags, the interrupt line, and
what an edge of the ready/busy pin sets (10_state.md §5 to §8, 43_status_poller.md). -/

namespace Sys2Proof.Machine

/-- `sequencer_busy` (10_state.md R38). -/
def Block.sequencerBusy (b : Block) : Bool := b.busy

/-- `host_busy` (10_state.md R39). -/
def Block.hostBusy (b : Block) : Bool := b.busy

/-- The word a status read returns over a drawn word (43_status_poller.md R170, 30_encoding.md R91). -/
def statusWord (L : Layout) (b : Block) (junk : Word) : Word :=
  let w := L.srRbRise.setBit junk b.rbRise
  let w := L.srRbFall.setBit w b.rbFall
  let w := L.srSeqBusy.setBit w b.sequencerBusy
  let w := L.srXfrDone.setBit w b.xfrDone
  let w := L.srCmdDone.setBit w b.cmdDone
  L.srRbEdge0.setBit w b.rbEdge0

/-- The host status word over a drawn word (43_status_poller.md R171, 30_encoding.md R92). -/
def hostStatusWord (L : Layout) (b : Block) (junk : Word) : Word := L.hstatBusy.setBit junk b.hostBusy

/-- The ECC engine's status word over a drawn word (43_status_poller.md R172, 30_encoding.md R92). -/
def eccStatusWord (L : Layout) (b : Block) (junk : Word) : Word := L.eccsrBusy.setBit junk b.eccBusy

/-- All five event flags cleared (43_status_poller.md R170). -/
def Block.clearEvents (b : Block) : Block :=
  { b with rbRise := false, rbFall := false, xfrDone := false, cmdDone := false, rbEdge0 := false }

/-- `events(s)`: the event flags at their status bits (10_state.md R47). -/
def events (L : Layout) (b : Block) : Word := statusWord L b 0#32 &&& L.srEvents

/-- `irq(s)`, the interrupt line (10_state.md R47, 60_exceptions.md R212). -/
def irq (L : Layout) (b : Block) : Bool := (events L b &&& b.imr) != 0#32

/-- Whether a change of the pin to level `l` is the edge that sets `rb_edge0` (10_state.md R37). -/
def isEdge0 (p : Edge) (l : Bool) : Bool :=
  match p with
  | .rising => l
  | .falling => !l

/-- The flags after the pin has changed to level `l`; each of the three assignments is performed where its guard
holds (43_status_poller.md R176). An edge never clears a flag. -/
def Block.pinEdge (b : Block) (p : Edge) (l : Bool) (fall rise edge0 : Bool) : Block :=
  { b with
    rbFall := b.rbFall || (!l && fall)
    rbRise := b.rbRise || (l && rise)
    rbEdge0 := b.rbEdge0 || (isEdge0 p l && edge0)
    rbLevel := l }

end Sys2Proof.Machine
end

