-- ==== Sys2Proof/Machine/Operands.lean ====
section
/-! DEFINITION. The operand forms: packing of address bytes (30_encoding.md R93), what goes onto the device bus
(42_command_encoder.md R149, R151), the configuration word (R94), the command word (R95), the mode word
(40_bus_timing.md R113 to R115). -/

namespace Sys2Proof.Machine

/-- `zext_32(x) << 8(k-1)`: the byte in lane `k` + 1 (20_memory.md R65). -/
def lane (k : Nat) (x : Byte) : Word := x.zeroExtend 32 <<< (8 * k)

/-- The byte of lane `k` + 1 (20_memory.md R65). -/
def laneByte (k : Nat) (a : Word) : Byte := a.extractLsb' (8 * k) 8

/-- `pack(n, b)` (30_encoding.md R93): the byte for the extra-address register, if any, and the packed address word;
`none` where `b` is shorter than the count (42_command_encoder.md R159) or the count is no legal one. -/
def pack : Nat → List Byte → Option (Option Byte × Word)
  | 0, _ => some (none, 0#32)
  | 1, b0 :: _ => some (none, lane 0 b0)
  | 2, b0 :: b1 :: _ => some (none, lane 0 b0 ||| lane 1 b1)
  | 3, b0 :: b1 :: b2 :: _ => some (none, lane 0 b0 ||| lane 1 b1 ||| lane 2 b2)
  | 4, b0 :: b1 :: b2 :: b3 :: _ => some (none, lane 0 b0 ||| lane 1 b1 ||| lane 2 b2 ||| lane 3 b3)
  | 5, b0 :: b1 :: b2 :: b3 :: b4 :: _ => some (some b0, lane 0 b1 ||| lane 1 b2 ||| lane 2 b3 ||| lane 3 b4)
  | _, _ => none

/-- `lanes_ok(n, A)` (42_command_encoder.md R150). -/
def lanesOk (n : Nat) (a : Word) : Bool :=
  match n with
  | 0 => a == 0#32
  | 1 => a >>> 8 == 0#32
  | 2 => a >>> 16 == 0#32
  | 3 => a >>> 24 == 0#32
  | _ => true

/-- `cycles(n, e, A)`: the address bytes in the order they are sent (42_command_encoder.md R149). -/
def cycles (n : Nat) (e : Byte) (a : Word) : List Byte :=
  match n with
  | 1 => [laneByte 0 a]
  | 2 => [laneByte 0 a, laneByte 1 a]
  | 3 => [laneByte 0 a, laneByte 1 a, laneByte 2 a]
  | 4 => [laneByte 0 a, laneByte 1 a, laneByte 2 a, laneByte 3 a]
  | 5 => [e, laneByte 0 a, laneByte 1 a, laneByte 2 a, laneByte 3 a]
  | _ => []

/-- One bus cycle of a command's issue (42_command_encoder.md R151). -/
inductive BusCycle where
  | cmdCycle (x : Byte)
  | addrCycle (x : Byte)
  deriving DecidableEq, Repr, Inhabited

/-- `bus(W, bytes)`: the refinement of a `Dispatched` event into bus cycles (42_command_encoder.md R151). -/
def bus (L : Layout) (w : Word) (bytes : List Byte) : List BusCycle :=
  [.cmdCycle ((L.cwCmd1.get w).setWidth 8)] ++ bytes.map .addrCycle ++
    (if L.cwVcmd2.bit w then [.cmdCycle ((L.cwCmd2.get w).setWidth 8)] else [])

/-- `W.CSID`: the chip select whose device receives the cycles of a command (30_encoding.md R85, 42_command_encoder.md
R151). -/
def chipSelect (L : Layout) (w : Word) : Nat := (L.cwCsid.get w).toNat

/-- The bus cycles an event puts onto chip select `cs`: those of `bus` on the command's own chip select, none on another;
the cycles of a data phase are no part of the model (42_command_encoder.md R151, R153). -/
def Event.busOn (L : Layout) (cs : Nat) : Event → List BusCycle
  | .dispatched w bytes => if chipSelect L w = cs then bus L w bytes else []
  | .dataDone _ => []

/-- The bus cycles the device on chip select `cs` has received, oldest first (10_state.md R44, 42_command_encoder.md
R151). -/
def received (L : Layout) (cs : Nat) (trace : List Event) : List BusCycle := trace.flatMap (Event.busOn L cs)

/-- `CW(cmd1, cmd2, vcmd2, n, cs, dataen, nfcwr)` (30_encoding.md R95). -/
def commandWord (L : Layout) (cmd1 cmd2 : Byte) (vcmd2 : Bool) (n cs : Word) (dataen nfcwr : Bool) : Word :=
  let w := L.cwCmd1.set 0#32 (cmd1.zeroExtend 32)
  let w := L.cwCmd2.set w (cmd2.zeroExtend 32)
  let w := L.cwVcmd2.setBit w vcmd2
  let w := L.cwAcycle.set w n
  let w := L.cwCsid.set w cs
  let w := L.cwDataen.setBit w dataen
  L.cwNfcwr.setBit w nfcwr

/-- The spare-size field of a byte count: wrapping subtraction, logical shift (41_sequencer_config.md R131). -/
def spareField (spareSize : Word) : Word := (spareSize - 1#32) >>> 2

/-- The spare area in bytes that a field value stands for (10_state.md R24). -/
def spareArea (f : Word) : Nat := 4 * (f.toNat + 1)

/-- The device timeout a configuration word programs, in cycles, where its multiplier code is the one the source
shows (10_state.md R26, 41_sequencer_config.md R133). Nothing in the block reads it (60_exceptions.md R222). -/
def timeoutCycles (p : Params) (cfg : Word) : Option Nat :=
  if p.layout.cfgDtomul.get cfg = p.behaviour.dtomulX1048576 then
    some ((p.layout.cfgDtocyc.get cfg).toNat * 1048576)
  else none

/-- The configuration word from a page code and a spare field (30_encoding.md R94). -/
def cfgwordOf (p : Params) (code f : Word) (readSpare writeSpare : Bool) : Word :=
  let L := p.layout
  let w := L.cfgSparesize.set 0#32 f
  let w := L.cfgDtocyc.set w 15#32
  let w := L.cfgDtomul.set w p.behaviour.dtomulX1048576
  let w := L.cfgRbedge.setBit w true
  let w := L.cfgRspare.setBit w readSpare
  let w := L.cfgWspare.setBit w writeSpare
  L.cfgPagesize.set w code

/-- `cfgword(page_size, spare_size, read_spare, write_spare)` (30_encoding.md R94): defined where the spare field fits
and the page size is supported. -/
def cfgword (p : Params) (pageSize spareSize : Word) (readSpare writeSpare : Bool) : Option Word :=
  match p.behaviour.codeOf pageSize with
  | none => none
  | some code =>
    if p.layout.cfgSparesize.fits (spareField spareSize) then
      some (cfgwordOf p code (spareField spareSize) readSpare writeSpare)
    else none

/-- `width_code(bus_width)`: 8 is 8, anything else is treated as 16 (40_bus_timing.md R115). -/
def widthCode (m : ModeLayout) (busWidth : Word) : Word := if busWidth = 8#32 then m.dbw8 else m.dbw16

/-- The mode word of the NAND preset: read and write enabled, the bus width, one data-float cycle (40_bus_timing.md
R113). -/
def nandMode (m : ModeLayout) (busWidth : Word) : Word :=
  let w := m.read.setBit 0#32 true
  let w := m.write.setBit w true
  let w := m.dbw.set w (widthCode m busWidth)
  m.tdf.set w 1#32

/-- The mode word of the NOR preset, which also disables extended-wait mode (40_bus_timing.md R114). -/
def norMode (m : ModeLayout) (busWidth : Word) : Word := m.exnw.set (nandMode m busWidth) m.exnwDisabled

end Sys2Proof.Machine
end

