-- ==== Sys2Proof/Machine/BusTiming.lean ====
section
/-! DEFINITION. The chip-select timing registers (40_bus_timing.md §2). -/

namespace Sys2Proof.Machine

/-- `CS.SETUP.W` (40_bus_timing.md R111). -/
def execCsSetupW (cs : Nat) (v : Word) (s : State) : Result := writeCs cs (fun r => { r with setup := v }) s

/-- `CS.PULSE.W` (40_bus_timing.md R111). -/
def execCsPulseW (cs : Nat) (v : Word) (s : State) : Result := writeCs cs (fun r => { r with pulse := v }) s

/-- `CS.CYCLE.W` (40_bus_timing.md R111). -/
def execCsCycleW (cs : Nat) (v : Word) (s : State) : Result := writeCs cs (fun r => { r with cycle := v }) s

/-- `CS.TIMINGS.W` (40_bus_timing.md R111). -/
def execCsTimingsW (cs : Nat) (v : Word) (s : State) : Result := writeCs cs (fun r => { r with timings := v }) s

/-- `CS.MODE.W` (40_bus_timing.md R112). -/
def execCsModeW (cs : Nat) (v : Word) (s : State) : Result := writeCs cs (fun r => { r with mode := v }) s

end Sys2Proof.Machine
end

