-- ==== Sys2Proof/Machine/CommandEncoder.lean ====
section
/-! DEFINITION. The command and address encoder: `ADDR.W` and the command-decoded writes (42_command_encoder.md §1,
§2). -/

namespace Sys2Proof.Machine

/-- `ADDR.W` (42_command_encoder.md R140). -/
def execAddrW (v : Word) (s : State) : Result :=
  clocked s <|
    if v >>> 8 ≠ 0#32 then .refused .reservedBits
    else if s.blk.busy then .refused .configWhileBusy
    else .next { s with blk.addr0 := v.setWidth 8 }

/-- The command, its packed address word and the extra byte are latched together (10_state.md R41). -/
def Block.latch (b : Block) (w a : Word) : Block :=
  { b with curCmd := w, curAddr := a, curAddr0 := b.addr0, phase := .issue }

/-- `accept(n, W, A)` (42_command_encoder.md R141). -/
def accept (n : Nat) (w a : Word) (s : State) : Result :=
  clocked s <|
    if !s.par.layout.cmdBitsOk w then .refused .reservedBits
    else if s.blk.busy then .next (s.raise .overlap)
    else if !lanesOk n a then .refused .unusedLaneNonZero
    else .next { s with blk := s.blk.latch w a }

/-- A command word with a reserved cycle count (42_command_encoder.md R148). -/
def reservedCount (s : State) : Result :=
  clocked s <|
    .next (if s.blk.busy then (s.raise .badCycleCount).raise .overlap else s.raise .badCycleCount)

/-- `NFC_CMD_A0` (42_command_encoder.md R142). -/
def execNfcCmdA0 (w a : Word) (s : State) : Result := accept 0 w a s

/-- `NFC_CMD_A1` (42_command_encoder.md R143). -/
def execNfcCmdA1 (w a : Word) (s : State) : Result := accept 1 w a s

/-- `NFC_CMD_A2` (42_command_encoder.md R144). -/
def execNfcCmdA2 (w a : Word) (s : State) : Result := accept 2 w a s

/-- `NFC_CMD_A3` (42_command_encoder.md R145). -/
def execNfcCmdA3 (w a : Word) (s : State) : Result := accept 3 w a s

/-- `NFC_CMD_A4` (42_command_encoder.md R146). -/
def execNfcCmdA4 (w a : Word) (s : State) : Result := accept 4 w a s

/-- `NFC_CMD_A5` (42_command_encoder.md R147). -/
def execNfcCmdA5 (w a : Word) (s : State) : Result := accept 5 w a s

/-- `NFC_CMD_RSV6` (42_command_encoder.md R148): the data word is ignored. -/
def execNfcCmdRsv6 (s : State) : Result := reservedCount s

/-- `NFC_CMD_RSV7` (42_command_encoder.md R148): the data word is ignored. -/
def execNfcCmdRsv7 (s : State) : Result := reservedCount s

end Sys2Proof.Machine
end

