-- ==== Sys2Proof/Machine/SequencerConfig.lean ====
section
/-! DEFINITION. Sequencer configuration: `CFG.W`, `CFG.R`, `IDR.W`, `CTRL.W` (41_sequencer_config.md §1). -/

namespace Sys2Proof.Machine

/-- `CFG.W` (41_sequencer_config.md R120). -/
def execCfgW (v : Word) (s : State) : Result :=
  clocked s <|
    if s.blk.busy then .refused .configWhileBusy
    else if v &&& ~~~ s.par.layout.cfgDefined ≠ 0#32 then .refused .reservedBits
    else if s.par.layout.cfgRspare.bit v && s.par.layout.cfgWspare.bit v then .refused .bothSpareFlags
    else if !s.par.behaviour.isPageCode (s.par.layout.cfgPagesize.get v) then .refused .badPageCode
    else .next { s with blk.cfg := v }

/-- `CFG.R` (41_sequencer_config.md R121). -/
def execCfgR (s : State) : Result := clocked s (.next (s.answer s.blk.cfg))

/-- `IDR.W` (41_sequencer_config.md R122). -/
def execIdrW (m : Word) (s : State) : Result := clocked s (.next { s with blk.imr := s.blk.imr &&& ~~~ m })

/-- `CTRL.W` (41_sequencer_config.md R123). -/
def execCtrlW (v : Word) (s : State) : Result :=
  clocked s <|
    if v ≠ 0#32 then .refused .controlNonZero
    else if s.blk.busy then .refused .configWhileBusy
    else .next { s with blk.ctrl := 0#32 }

end Sys2Proof.Machine
end

