-- ==== Sys2Proof/Machine/StatusPoller.lean ====
section
/-! DEFINITION. The three status reads (43_status_poller.md §1). -/

namespace Sys2Proof.Machine

/-- `SR.R` (43_status_poller.md R170): sample and clear are one step (20_memory.md R70). -/
def execSrR (s : State) : Result :=
  clocked s <|
    .next (({ s with blk := s.blk.clearEvents }.answer (statusWord s.par.layout s.blk s.freeWord)).drew 1)

/-- `HSTAT.R` (43_status_poller.md R171). -/
def execHstatR (s : State) : Result :=
  clocked s (.next ((s.answer (hostStatusWord s.par.layout s.blk s.freeWord)).drew 1))

/-- `ECCSR.R` (43_status_poller.md R172). -/
def execEccsrR (s : State) : Result :=
  clocked s (.next ((s.answer (eccStatusWord s.par.layout s.blk s.freeWord)).drew 1))

end Sys2Proof.Machine
end

