-- ==== Sys2Proof/Machine/Dispatch.lean ====
section
/-! DEFINITION. The effect of one host transaction on the machine: one arm per row of the opcode table
(30_encoding.md R96). -/

namespace Sys2Proof.Machine

open Sys2Proof

def exec (i : Instr) (s : State) : Host.Outcome State Fault Refusal :=
  match i with
  | .cfgW v => Sys2Proof.Machine.execCfgW v s
  | .cfgR => Sys2Proof.Machine.execCfgR s
  | .idrW m => Sys2Proof.Machine.execIdrW m s
  | .ctrlW v => Sys2Proof.Machine.execCtrlW v s
  | .addrW v => Sys2Proof.Machine.execAddrW v s
  | .nfcCmdA0 w a => Sys2Proof.Machine.execNfcCmdA0 w a s
  | .nfcCmdA1 w a => Sys2Proof.Machine.execNfcCmdA1 w a s
  | .nfcCmdA2 w a => Sys2Proof.Machine.execNfcCmdA2 w a s
  | .nfcCmdA3 w a => Sys2Proof.Machine.execNfcCmdA3 w a s
  | .nfcCmdA4 w a => Sys2Proof.Machine.execNfcCmdA4 w a s
  | .nfcCmdA5 w a => Sys2Proof.Machine.execNfcCmdA5 w a s
  | .nfcCmdRsv6 _ _ => Sys2Proof.Machine.execNfcCmdRsv6 s
  | .nfcCmdRsv7 _ _ => Sys2Proof.Machine.execNfcCmdRsv7 s
  | .srR => Sys2Proof.Machine.execSrR s
  | .hstatR _ => Sys2Proof.Machine.execHstatR s
  | .eccsrR => Sys2Proof.Machine.execEccsrR s
  | .csSetupW cs v => Sys2Proof.Machine.execCsSetupW cs v s
  | .csPulseW cs v => Sys2Proof.Machine.execCsPulseW cs v s
  | .csCycleW cs v => Sys2Proof.Machine.execCsCycleW cs v s
  | .csTimingsW cs v => Sys2Proof.Machine.execCsTimingsW cs v s
  | .csModeW cs v => Sys2Proof.Machine.execCsModeW cs v s

end Sys2Proof.Machine
end

