-- ==== Sys2Proof/Machine/HostAgent.lean ====
section
/-! DEFINITION. The host agent: a bus transaction, the routines of 30_encoding.md R101 as sequences of transactions,
and one step of the host (00_scope.md R4a, R12, R14; files 40 to 43, §"Host routines"). -/

namespace Sys2Proof.Machine

/-- The refusal a rejected transaction is (60_exceptions.md R206). -/
def refusalOf : Reject → Refusal
  | .width => .unmapped
  | .misaligned => .unmapped
  | .unlisted => .unmapped
  | .direction => .unmapped
  | .commandBits => .reservedBits
  | .notStatusOffset => .unmapped
  | .cycleCount => .unmapped

/-- A host transaction: decoded and executed, or refused; the clock is checked before the mapping (60_exceptions.md
R216). -/
def runTxn (x : Txn) (s : State) : Result :=
  match decode s.par.layout x with
  | .ok i => exec i s
  | .error r => clocked s (.refused (refusalOf r))

/-- A host access at an absolute address (00_scope.md R12); outside the three windows the spec says nothing of it
(20_memory.md R77; notes/assumptions/17.md). -/
def runMem (m : MemAccess) (s : State) : Result :=
  match m.txn s.par with
  | some x => runTxn x s
  | none => .refused .outsideBlock

/-- Go on from a next state; a stop stays a stop. -/
def andThen (r : Result) (f : State → Result) : Result :=
  match r with
  | .next s => f s
  | .fault x => .fault x
  | .refused x => .refused x

/-- The read a wait performs at every poll (43_status_poller.md R180 to R185). The host status word is read at offset
0 where any offset will do (notes/assumptions/9.md). -/
def SpinCond.txn (L : Layout) : SpinCond → Txn
  | .hostNotBusy => readTxn (.cmd (L.offHstat.getD 0#32))
  | .commandDone => readTxn (.reg L.offSr)
  | .transferDone => readTxn (.reg L.offSr)
  | .rbFall => readTxn (.reg L.offSr)
  | .rbRise => readTxn (.reg L.offSr)
  | .rbEdge0 => readTxn (.reg L.offSr)
  | .eccReady => readTxn (.reg L.offEccsr)

/-- The exit condition of a wait on the word it read (43_status_poller.md R180 to R185; 90_conflicts.md C2). -/
def SpinCond.holds (L : Layout) (c : SpinCond) (w : Word) : Bool :=
  match c with
  | .hostNotBusy => !L.hstatBusy.bit w
  | .commandDone => L.srCmdDone.bit w
  | .transferDone => L.srXfrDone.bit w
  | .rbFall => L.srRbFall.bit w
  | .rbRise => L.srRbRise.bit w
  | .rbEdge0 => L.srRbEdge0.bit w
  | .eccReady => !L.eccsrBusy.bit w

/-- The read a predicate performs (41_sequencer_config.md R129, R130; 43_status_poller.md R186). -/
def Query.txn (L : Layout) : Query → Txn
  | .spareRead => readTxn (.reg L.offCfg)
  | .spareWrite => readTxn (.reg L.offCfg)
  | .sequencerBusy => readTxn (.reg L.offSr)

/-- The bit a predicate projects from the word it read. -/
def Query.holds (L : Layout) (q : Query) (w : Word) : Bool :=
  match q with
  | .spareRead => L.cfgRspare.bit w
  | .spareWrite => L.cfgWspare.bit w
  | .sequencerBusy => L.srSeqBusy.bit w

/-- How a call begins: the operations it is made of, a fatal end before any of them, or a refusal. -/
inductive Expansion where
  | ops (l : List HostOp)
  | halt (o : HostOutcome)
  | refuse (r : Refusal)
  deriving DecidableEq, Repr, Inhabited

/-- A write of a chip-select register by name. -/
def csWrite (cs : Nat) (r : CsReg) (v : Word) : HostOp := .access (writeTxn (.cs cs r) v)

/-- `configure_nand_timing(bus_width)` (40_bus_timing.md R113). -/
def nandTimingOps (p : Params) (busWidth : Word) : List HostOp :=
  let b := p.board
  [.enablePeripheral b.periphId, csWrite b.nandCs .setup b.nandSetup, csWrite b.nandCs .pulse b.nandPulse,
    csWrite b.nandCs .cycle b.nandCycle, csWrite b.nandCs .timings b.nandTimings,
    csWrite b.nandCs .mode (nandMode b.mode busWidth)]

/-- `configure_nor_timing(chip_select, bus_width)` (40_bus_timing.md R114): the extended-timings register is zero. -/
def norTimingOps (p : Params) (cs : Nat) (busWidth : Word) : List HostOp :=
  let b := p.board
  [.enablePeripheral b.periphId, csWrite cs .setup b.norSetup, csWrite cs .pulse b.norPulse,
    csWrite cs .cycle b.norCycle, csWrite cs .timings 0#32, csWrite cs .mode (norMode b.mode busWidth)]

/-- `configure_sequencer(page_size, spare_size, read_spare, write_spare)` (41_sequencer_config.md R128): the assertion,
then the page size, then the spare field, then the one write (60_exceptions.md R215; notes/assumptions/16.md). -/
def configureExpansion (p : Params) (pageSize spareSize : Word) (readSpare writeSpare : Bool) : Expansion :=
  if readSpare && writeSpare then .halt .invariantViolation
  else if pageSize ∉ p.behaviour.supportedPageSizes then .halt .unsupportedConfiguration
  else
    match cfgword p pageSize spareSize readSpare writeSpare with
    | some v => .ops [.access (writeTxn (.reg p.layout.offCfg) v)]
    | none => .refuse .spareSizeRange

/-- `reset_sequencer()` (41_sequencer_config.md R127). -/
def resetOps (L : Layout) : List HostOp :=
  [.access (writeTxn (.reg L.offIdr) 0xFFFFFFFF#32), .access (writeTxn (.reg L.offCtrl) 0#32)]

/-- `spin until c` with the bound of the configuration record (00_scope.md R14, 43_status_poller.md R188). -/
def spinOp (p : Params) (c : SpinCond) : HostOp := .spin c p.behaviour.waitBound

/-- The routine of a call (30_encoding.md R101). -/
def expand (p : Params) : Call → Expansion
  | .configureNandTiming busWidth => .ops (nandTimingOps p busWidth)
  | .configureNorTiming cs busWidth => .ops (norTimingOps p cs busWidth)
  | .configureSequencer pageSize spareSize readSpare writeSpare =>
    configureExpansion p pageSize spareSize readSpare writeSpare
  | .resetSequencer => .ops (resetOps p.layout)
  | .isSpareReadEnabled => .ops [.query .spareRead]
  | .isSpareWriteEnabled => .ops [.query .spareWrite]
  | .sendCommand w bytes => .ops [spinOp p .hostNotBusy, .encodeCommand w bytes, spinOp p .commandDone]
  | .waitHostNotBusy => .ops [spinOp p .hostNotBusy]
  | .waitCommandDone => .ops [spinOp p .commandDone]
  | .waitTransferDone => .ops [spinOp p .transferDone]
  | .waitReadyBusyPulse => .ops [spinOp p .rbFall, spinOp p .rbRise]
  | .waitReadyBusyEdge0 => .ops [spinOp p .rbEdge0]
  | .waitEccEngineReady => .ops [spinOp p .eccReady]
  | .isSequencerBusy => .ops [.query .sequencerBusy]
  | .clken => .ops [.enablePeripheral p.board.periphId]
  | .access x => .ops [.access x]
  | .mem m => .ops [.mem m]

/-- More operations before what is left of the routine. -/
def State.push (l : List HostOp) (s : State) : State := { s with host.ops := l ++ s.host.ops }

/-- The host enters its next call: no transaction yet. -/
def enterCall (c : Call) (s : State) : Result :=
  match expand s.par c with
  | .ops l => .next { s with host.ops := l, host.ret := none }
  | .halt o => .next (s.haltHost o)
  | .refuse r => .refused r

/-- The next step of a wait whose poll was false: spin on, or time out when no evaluation is left (43_status_poller.md
R187, R188; notes/assumptions/15.md). -/
def spinOn (c : SpinCond) (left : Option Nat) (s : State) : State :=
  match left with
  | none => s.push [.spin c none]
  | some k => if k ≤ 1 then s.haltHost .hardwareTimeout else s.push [.spin c (some (k - 1))]

/-- One poll of a wait (00_scope.md R14). -/
def spinStep (c : SpinCond) (left : Option Nat) (s : State) : Result :=
  andThen (runTxn (c.txn s.par.layout) s) fun s' =>
    .next (if c.holds s'.par.layout s'.host.rdata then s' else spinOn c left s')

/-- A predicate: one read, one bit (41_sequencer_config.md R129, R130; 43_status_poller.md R186). -/
def queryStep (q : Query) (s : State) : Result :=
  andThen (runTxn (q.txn s.par.layout) s) fun s' =>
    .next { s' with host.ret := some (q.holds s'.par.layout s'.host.rdata) }

/-- The writes of a command (42_command_encoder.md R156): the extra-address register first, and only for five
cycles. -/
def commandWrites (L : Layout) (w : Word) (e : Option Byte) (a : Word) : List HostOp :=
  (match e with
    | some x => [.access (writeTxn (.reg L.offAddr) (x.zeroExtend 32))]
    | none => []) ++ [.access (writeTxn (.cmd w) a)]

/-- Steps 2 to 4 of `send_command` up to the writes (42_command_encoder.md R156, R159; notes/assumptions/14.md). -/
def encodeStep (w : Word) (bytes : List Byte) (s : State) : Result :=
  if 5 < s.par.layout.acycle w then .next (s.haltHost .invariantViolation)
  else
    match pack (s.par.layout.acycle w) bytes with
    | some (e, a) => .next (s.push (commandWrites s.par.layout w e a))
    | none => .refused .shortAddressBytes

/-- One operation of a routine; `s` has it already taken off. -/
def hostOp (op : HostOp) (s : State) : Result :=
  match op with
  | .enablePeripheral id => .next (s.enablePeripheral id)
  | .access x => runTxn x s
  | .mem m => runMem m s
  | .spin c left => spinStep c left s
  | .query q => queryStep q s
  | .encodeCommand w bytes => encodeStep w bytes s

/-- What is left of the routine being executed. -/
def State.setOps (l : List HostOp) (s : State) : State := { s with host.ops := l }

/-- The calls the program still makes. -/
def State.setCalls (l : List Call) (s : State) : State := { s with host.calls := l }

/-- One step of the host: the next operation of its routine, else its next call; a halted or finished host has none
(60_exceptions.md R218). -/
def hostStep (s : State) : Result :=
  match s.host.outcome with
  | some _ => .fault .hostHasNoStep
  | none =>
    match s.host.ops with
    | op :: rest => hostOp op (s.setOps rest)
    | [] =>
      match s.host.calls with
      | c :: rest => enterCall c (s.setCalls rest)
      | [] => .fault .hostHasNoStep

/-- Whether the host has a step to take. -/
def State.hostEnabled (s : State) : Bool :=
  s.host.outcome.isNone && (!s.host.ops.isEmpty || !s.host.calls.isEmpty)

end Sys2Proof.Machine
end

