-- ==== Sys2Proof/Machine/Sequencer.lean ====
section
/-! DEFINITION. The steps the block and its surroundings take on their own: the sequencer's (42_command_encoder.md §4)
and the environment's (43_status_poller.md §2). -/

namespace Sys2Proof.Machine

/-- The address bytes of the command in the slot (42_command_encoder.md R149, R152). -/
def Block.commandBytes (L : Layout) (b : Block) : List Byte := cycles (L.acycle b.curCmd) b.curAddr0 b.curAddr

/-- The effect of `SEQ.DISPATCH` on the block (42_command_encoder.md R152). -/
def Block.dispatch (L : Layout) (b : Block) : Block :=
  { b with
    trace := b.trace ++ [.dispatched b.curCmd (b.commandBytes L)]
    cmdDone := true
    phase := if L.cwDataen.bit b.curCmd then .data else .idle }

/-- The effect of `SEQ.XFER` on the block (42_command_encoder.md R153). -/
def Block.transfer (b : Block) : Block :=
  { b with trace := b.trace ++ [.dataDone b.curCmd], xfrDone := true, phase := .idle }

/-- `SEQ.DISPATCH`, enabled exactly in phase Issue (42_command_encoder.md R152). -/
def seqDispatch (s : State) : Result :=
  if s.blk.phase = .issue then .next { s with blk := s.blk.dispatch s.par.layout } else .fault .dispatchNotEnabled

/-- `SEQ.XFER`, enabled exactly in phase Data (42_command_encoder.md R153). -/
def seqXfer (s : State) : Result :=
  if s.blk.phase = .data then .next { s with blk := s.blk.transfer } else .fault .xferNotEnabled

/-- `ENV.RB(l)` (43_status_poller.md R176): with edge detection disabled each of the three assignments has a draw of
its own (notes/assumptions/18.md). -/
def envRb (l : Bool) (s : State) : State :=
  if l = s.blk.rbLevel then s
  else if s.par.layout.cfgRbedge.bit s.blk.cfg then
    { s with blk := s.blk.pinEdge s.par.behaviour.rbEdge0Polarity l true true true }
  else
    { s with
      blk := s.blk.pinEdge s.par.behaviour.rbEdge0Polarity l (Config.drawBit s.draws) (Config.drawBit (s.draws + 1))
        (Config.drawBit (s.draws + 2)) }.drew 3

/-- `ENV.ECC(b)` (43_status_poller.md R177). -/
def envEcc (b : Bool) (s : State) : State := { s with blk.eccBusy := b }

end Sys2Proof.Machine
end

