-- ==== Sys2Proof/Machine/Schedule.lean ====
section
/-! DEFINITION. Which agent moves next, and its turn (20_memory.md R72, 60_exceptions.md R217). The agenda is data, so a
statement about every state is one about every interleaving; when it is empty the run goes on fairly: the sequencer's
step if it has one (42_command_encoder.md R154), else the host's (notes/assumptions/7.md). -/

namespace Sys2Proof.Machine

/-- The turn taken when the agenda names none. -/
def fairTurn (s : State) : Option Turn :=
  match s.blk.phase with
  | .issue => some .seqDispatch
  | .data => some .seqXfer
  | .idle => if s.hostEnabled then some .host else none

/-- The turn taken next. -/
def State.nextTurn (s : State) : Option Turn :=
  match s.agenda with
  | t :: _ => some t
  | [] => fairTurn s

/-- The agenda with its first turn used up. -/
def State.dropTurn (s : State) : State := { s with agenda := s.agenda.tail }

/-- One agent's step. -/
def takeTurn (t : Turn) (s : State) : Result :=
  match t with
  | .host => hostStep s
  | .seqDispatch => seqDispatch s
  | .seqXfer => seqXfer s
  | .envRb l => .next (envRb l s)
  | .envEcc b => .next (envEcc b s)

/-- A refused step leaves the sticky mark on the state it was taken in (00_scope.md R13, 10_state.md R45;
notes/assumptions/6.md). -/
def settle (s : State) (r : Result) : Result :=
  match r with
  | .next s' => .next s'
  | .fault x => .fault x
  | .refused x => .next (s.mark x)

/-- One step of the machine: nothing is claimed of a run once it is marked refused (00_scope.md R13). -/
def machineStep (s : State) : Result :=
  match s.blk.refused with
  | some r => .refused r
  | none =>
    match s.nextTurn with
    | none => .fault .quiescent
    | some t => settle s.dropTurn (takeTurn t s.dropTurn)

/-- The state in which the host's next step is the transaction `x` and its turn is next: the clock is on, no mark and
no fatal outcome stands in the way (notes/assumptions/10.md). -/
def State.withTxn (s : State) (x : Txn) : State :=
  { s with
    blk.clockOn := true
    blk.refused := none
    host.ops := .access x :: s.host.ops
    host.outcome := none
    agenda := .host :: s.agenda }

end Sys2Proof.Machine
end

