-- ==== Sys2Proof/Machine/Step.lean ====
section
/-! DEFINITION. One step of the machine, and the state that runs a given opcode-table word next. -/

namespace Sys2Proof.Machine

/-- One step (00_scope.md R13). -/
def step (s : State) : Host.Outcome State Fault Refusal := machineStep s

/-- `s` with the transaction of an opcode-table word as the host's next operation and the host's turn next
(notes/assumptions/10.md). -/
def State.withFetchWord (s : State) (nbits w : Nat) : State := s.withTxn (Txn.ofTableWord (w % 2 ^ nbits))

end Sys2Proof.Machine
end

