-- ==== Sys2Proof/Safety.lean ====
section
/-! DEFINITION. What counts as a safe run, a clean entry, a finished run (10_state.md R45, R51; 70_reset_and_hazards.md
R239), in the terms the claims use. -/

namespace Sys2Proof

/-- A word `CFG.W` admits: no reserved bit, not both spare flags, a page code of a supported size
(41_sequencer_config.md R120). -/
def Params.cfgLegal (p : Params) (v : Word) : Bool :=
  (v &&& ~~~ p.layout.cfgDefined == 0#32) && !(p.layout.cfgRspare.bit v && p.layout.cfgWspare.bit v) &&
    p.behaviour.isPageCode (p.layout.cfgPagesize.get v)

/-- A bit outside every field of the configuration register is set (10_state.md R28). -/
def Layout.reservedBitSet (L : Layout) (v : Word) : Prop :=
  ∃ i, v.getLsbD i = true ∧ ∀ f ∈ L.cfgFields, ¬ (f.lo ≤ i ∧ i < f.lo + f.width)

/-- Both spare flags are set (10_state.md R25). -/
def Layout.bothSpareFlags (L : Layout) (v : Word) : Prop := L.cfgRspare.bit v = true ∧ L.cfgWspare.bit v = true

/-- The page code is that of a supported size (10_state.md R23). -/
def Params.pageCodeKnown (p : Params) (v : Word) : Prop :=
  ∃ size ∈ p.behaviour.supportedPageSizes, p.behaviour.pageCode.lookup size = some (p.layout.cfgPagesize.get v)

/-- The offset of a target is not a multiple of 4 (20_memory.md R67); a chip-select register named as such has no
offset of its own. -/
def Target.misaligned : Target → Bool
  | .cs _ _ => false
  | .csGap offset => offset &&& 3#32 != 0#32
  | .reg offset => offset &&& 3#32 != 0#32
  | .cmd offset => offset &&& 3#32 != 0#32

/-- A command word that may stand in the slot or in the trace: zeros where the format has them, a legal count
(30_encoding.md R83). -/
def Layout.legalCommand (L : Layout) (w : Word) : Bool := L.cmdBitsOk w && decide (L.acycle w ≤ 5)

end Sys2Proof

namespace Sys2Proof.Machine

/-- No fault reason is recorded. -/
def FaultSet.isEmpty (f : FaultSet) : Bool := !f.overlap && !f.badCycleCount

/-- No fault and no refusal is recorded (10_state.md R45). -/
def State.unmarked (s : State) : Bool := s.blk.fault.isEmpty && s.blk.refused.isNone

/-- A word a successful `configure_sequencer` writes (10_state.md R51, 41_sequencer_config.md R128). -/
def configured (p : Params) (v : Word) : Prop :=
  ∃ pageSize spareSize : Word, ∃ readSpare writeSpare : Bool,
    (readSpare && writeSpare) = false ∧ cfgword p pageSize spareSize readSpare writeSpare = some v

/-- The event flags are all clear. -/
def Block.quiet (b : Block) : Bool := !b.cmdDone && !b.xfrDone && !b.rbFall && !b.rbRise && !b.rbEdge0

/-- The block's own condition a wait waits for (43_status_poller.md R180 to R185). -/
def Block.meets (b : Block) : SpinCond → Bool
  | .hostNotBusy => !b.busy
  | .commandDone => b.cmdDone
  | .transferDone => b.xfrDone
  | .rbFall => b.rbFall
  | .rbRise => b.rbRise
  | .rbEdge0 => b.rbEdge0
  | .eccReady => !b.eccBusy

/-- `clean_entry(s)` (10_state.md R51). -/
structure CleanEntry (s : State) : Prop where
  clock : s.blk.clockOn = true
  idle : s.blk.phase = .idle
  quiet : s.blk.quiet = true
  masked : s.blk.imr = 0#32
  unmarked : s.unmarked = true
  configured : configured s.par s.blk.cfg

/-- The host program has returned from its last routine, without a fatal outcome. -/
def State.returned (s : State) : Bool := s.host.outcome.isNone && s.host.ops.isEmpty && s.host.calls.isEmpty

/-- The run is over and a success (70_reset_and_hazards.md R239). -/
def State.finished (s : State) : Bool := s.returned && (s.blk.phase == .idle) && s.unmarked

/-- The transaction an operation of a routine performs, if it performs one. -/
def HostOp.txn (p : Params) : HostOp → Option Txn
  | .enablePeripheral _ => none
  | .access x => some x
  | .mem m => m.txn p
  | .spin c _ => some (c.txn p.layout)
  | .query q => some (q.txn p.layout)
  | .encodeCommand _ _ => none

/-- The instruction the next step executes: the host's turn, and its next operation decodes to one. -/
def State.nextInstr (s : State) : Option Instr :=
  if s.nextTurn = some .host ∧ s.host.outcome = none then
    match s.host.ops with
    | [] => none
    | op :: _ => (op.txn s.par).bind fun x => (decode s.par.layout x).toOption
  else none

/-- The invariant of the machine: what the slot holds while it is occupied (10_state.md R41; 42_command_encoder.md
R140, R141), what stands in the trace (10_state.md R44), what a completion flag means (R33, R34), and that every chip select has
its registers (40_bus_timing.md R110). -/
structure Inv (s : State) : Prop where
  /-- the command in the slot is legal and was latched with the extra-address register as it still stands -/
  slot : s.blk.phase ≠ .idle →
    s.par.layout.legalCommand s.blk.curCmd = true ∧
      lanesOk (s.par.layout.acycle s.blk.curCmd) s.blk.curAddr = true ∧ s.blk.curAddr0 = s.blk.addr0
  /-- a data phase belongs to the command dispatched last, which is the one in the slot -/
  data : s.blk.phase = .data →
    s.par.layout.cwDataen.bit s.blk.curCmd = true ∧
      s.blk.trace.getLast? = some (.dispatched s.blk.curCmd (s.blk.commandBytes s.par.layout))
  /-- every dispatched command is legal and was sent with as many address bytes as it counts -/
  dispatched : ∀ w bytes, Event.dispatched w bytes ∈ s.blk.trace →
    s.par.layout.legalCommand w = true ∧ bytes.length = s.par.layout.acycle w
  /-- every data phase that ended belongs to a dispatched command that has one -/
  transferred : ∀ w, Event.dataDone w ∈ s.blk.trace →
    s.par.layout.cwDataen.bit w = true ∧ ∃ bytes, Event.dispatched w bytes ∈ s.blk.trace
  /-- a completion flag stands for something that has happened -/
  signalled : (s.blk.cmdDone = true → ∃ w bytes, Event.dispatched w bytes ∈ s.blk.trace) ∧
    (s.blk.xfrDone = true → ∃ w, Event.dataDone w ∈ s.blk.trace)
  /-- the registers of every chip select are there -/
  chips : s.t.length = s.par.board.nCs

/-- The state `k` steps later, if none of them stops. -/
def State.after (k : Nat) (s : State) : Host.Outcome State Fault Refusal := Host.Core.run core k s

end Sys2Proof.Machine
end

