-- ==== Sys2Proof/Certificates/Slice0/Obligations.lean ====
section
/-! DEFINITION. The statements for the provers, from the numbered rules of spec/: encodings and operand forms, the 21
transactions, the steps of the other agents, whole-machine rules, the host routines. -/

open Sys2Proof Sys2Proof.Machine

/- Encodings and operand forms -/

/-- 30_encoding.md R80 to R87, R96: no bit of an encoding is dropped, under every well-formed layout. -/
def Obligations.EncodeThenDecodeReturnsInstruction : Prop :=
  ∀ L : Layout, L.Wf → ∀ i : Instr, i.wf L = true → decode L (encode L i) = .ok i

/-- 30_encoding.md R80, R81, R96: a transaction that decodes is the one its instruction encodes to, so no two
transactions are one instruction. -/
def Obligations.DecodeThenEncodeReturnsTransaction : Prop :=
  ∀ (L : Layout) (x : Txn) (i : Instr), decode L x = .ok i → encode L i = x

/-- 95_test_vectors.md V60 to V71 and §2.4: words written out from the spec's default layout decode to the rows it names. The
positions and offsets are general knowledge by the spec's own mark (notes/assumptions/20.md, PRESUMED). -/
def Obligations.WordsOfTheSpecDecodeToTheirRows : Prop :=
  decode Layout.default (writeTxn (.cmd 0x00C003FC#32) 0#32) = .ok (.nfcCmdA0 0x00C003FC#32 0#32) ∧
  decode Layout.default (writeTxn (.cmd 0x02ECC000#32) 0x44332211#32) = .ok (.nfcCmdA5 0x02ECC000#32 0x44332211#32) ∧
  decode Layout.default (writeTxn (.cmd 0x00F4C000#32) 0#32) = .ok (.nfcCmdRsv6 0x00F4C000#32 0#32) ∧
  decode Layout.default (writeTxn (.cmd 0x00C003FE#32) 0#32) = .error .commandBits ∧
  decode Layout.default (readTxn (.reg 0x008#32)) = .ok .srR ∧
  decode Layout.default (readTxn (.cmd 0x00C003FC#32)) = .ok (.hstatR 0x00C003FC#32) ∧
  decode Layout.default (writeTxn (.reg 0x008#32) 1#32) = .error .direction

/-- 20_memory.md R67: a byte or half-word access, or one at an address that is not a multiple of 4, is refused in every
window, and what decodes is 4 bytes wide and aligned. The absolute address needs the windows to start at a multiple of
4, which is part of `Board.Wf` (notes/assumptions/23.md, DEDUCED); outside the three windows the refusal is the model's
own (notes/assumptions/17.md, DESIGN CHOICE). -/
def Obligations.NarrowOrMisalignedAccessIsRefused : Prop :=
  ∀ (s : State) (x : Txn) (m : MemAccess),
    (x.size ≠ 4 ∨ x.target.misaligned = true → ∃ r, runTxn x s = .refused r) ∧
    (∀ i, decode s.par.layout x = .ok i → x.size = 4 ∧ x.target.misaligned = false) ∧
    (s.par.Wf → m.size ≠ 4 ∨ m.addr &&& 3#32 ≠ 0#32 → ∃ r, runMem m s = .refused r)

/-- 42_command_encoder.md R149: the order of the lanes, the extra byte first, and that the sequencer sends exactly the
caller's bytes in the caller's order; the extra byte is written exactly for five cycles. -/
def Obligations.PackThenCyclesReturnsTheBytes : Prop :=
  (∀ (e : Byte) (a : Word), cycles 5 e a = e :: cycles 4 e a ∧ (cycles 4 e a).length = 4 ∧
    (∀ k, k < 4 → (cycles 4 e a)[k]? = some (a.extractLsb' (8 * k) 8)) ∧
    ∀ n, n < 4 → cycles n e a = (cycles 4 e a).take n) ∧
  ∀ (n : Nat) (b : List Byte) (e₀ : Byte), n ≤ 5 → b.length = n →
    ∃ e a, pack n b = some (e, a) ∧ cycles n (e.getD e₀) a = b ∧ (e.isSome ↔ n = 5)

/-- 42_command_encoder.md R150: `lanes_ok` is that no lane above the count is used, and every packed word has it. -/
def Obligations.PackedWordsUseNoHigherLane : Prop :=
  (∀ (n : Nat) (a : Word), n ≤ 5 → (lanesOk n a = true ↔ ∀ i, 8 * n ≤ i → a.getLsbD i = false)) ∧
  (∀ (n : Nat) (b : List Byte) (e : Option Byte) (a : Word), pack n b = some (e, a) → lanesOk n a = true)

/-- 42_command_encoder.md R160: the other direction: a packed word with no higher lane is recovered from the bytes the
sequencer sends, so two such words with the same bytes are one. -/
def Obligations.CyclesThenPackReturnsTheWord : Prop :=
  ∀ (n : Nat) (e : Byte) (a : Word), n ≤ 5 → lanesOk n a = true →
    pack n (cycles n e a) = some (if n = 5 then some e else none, a)

/-- 30_encoding.md R83, R95: a command word holds each of its fields, and every one of its ones lies in one of the seven
fields, under every well-formed layout, with gaps between the fields or without. -/
def Obligations.CommandWordHoldsItsFields : Prop :=
  ∀ (L : Layout) (cmd1 cmd2 : Byte) (vcmd2 dataen nfcwr : Bool) (n cs : Word), L.Wf →
    L.cwAcycle.fits n = true → L.cwCsid.fits cs = true →
    let w := commandWord L cmd1 cmd2 vcmd2 n cs dataen nfcwr
    L.cmdBitsOk w = true ∧ L.acycle w = n.toNat ∧ L.cwCsid.get w = cs ∧ L.cwCmd1.get w = cmd1.zeroExtend 32 ∧
      L.cwCmd2.get w = cmd2.zeroExtend 32 ∧ L.cwVcmd2.bit w = vcmd2 ∧ L.cwDataen.bit w = dataen ∧
      L.cwNfcwr.bit w = nfcwr ∧
      ∀ i, w.getLsbD i = true → ∃ f ∈ L.cwFields, f.lo ≤ i ∧ i < f.lo + f.width

/-- 42_command_encoder.md R151, 30_encoding.md R85: first opcode, address cycles in order, second opcode when it is valid,
on the command's own chip select and no other. -/
def Obligations.BusCyclesOfACommand : Prop :=
  ∀ (L : Layout) (cmd1 cmd2 : Byte) (vcmd2 dataen nfcwr : Bool) (n cs : Word) (bytes : List Byte), L.Wf →
    L.cwAcycle.fits n = true → L.cwCsid.fits cs = true →
    bus L (commandWord L cmd1 cmd2 vcmd2 n cs dataen nfcwr) bytes =
      .cmdCycle cmd1 :: (bytes.map .addrCycle ++ if vcmd2 then [.cmdCycle cmd2] else []) ∧
    (∀ k, received L k [.dispatched (commandWord L cmd1 cmd2 vcmd2 n cs dataen nfcwr) bytes] =
      if k = cs.toNat then
        .cmdCycle cmd1 :: (bytes.map .addrCycle ++ if vcmd2 then [.cmdCycle cmd2] else [])
      else [])

/-- 41_sequencer_config.md R128, 30_encoding.md R94: the configuration word holds the timeout constants, edge
detection, the flags, the spare field and the page code, and is one `CFG.W` admits. -/
def Obligations.ConfigurationWordHoldsItsFields : Prop :=
  ∀ (p : Params) (pageSize spareSize v : Word) (readSpare writeSpare : Bool),
    p.layout.Wf → p.behaviour.Wf p.layout →
    cfgword p pageSize spareSize readSpare writeSpare = some v →
    p.layout.cfgDtocyc.get v = 15#32 ∧ p.layout.cfgDtomul.get v = p.behaviour.dtomulX1048576 ∧
      p.layout.cfgRbedge.bit v = true ∧ p.layout.cfgRspare.bit v = readSpare ∧
      p.layout.cfgWspare.bit v = writeSpare ∧ p.layout.cfgSparesize.get v = spareField spareSize ∧
      some (p.layout.cfgPagesize.get v) = p.behaviour.codeOf pageSize ∧ timeoutCycles p v = some 15728640 ∧
      ((readSpare && writeSpare) = false → p.cfgLegal v = true)

/-- 41_sequencer_config.md R131, 10_state.md R24: the spare area is the byte count rounded up to a multiple of 4; zero
wraps. -/
def Obligations.SpareFieldRoundsUpToFourBytes : Prop :=
  (∀ n : Word, n ≠ 0#32 → spareArea (spareField n) = 4 * ((n.toNat + 3) / 4)) ∧ spareField 0#32 = 0x3FFFFFFF#32

/-- 20_memory.md R60, R62, R63, R77: on a well-formed board each address of the three windows resolves to its window and
offset, in window (a) to the register there or to a gap, and an address outside them to none; the addition never
carries out of window (c). The lengths of windows (a) and (b) and the chip-select offsets are open parameters
(notes/assumptions/13.md), what else a well-formed board is asked for stands in notes/assumptions/28.md. -/
def Obligations.AddressesResolveToTheirWindow : Prop :=
  ∀ p : Params, p.Wf →
    let b := p.board
    let size := 2 ^ p.layout.cmdWindowBits
    (∀ o ∈ p.layout.regOffsets, o.toNat < b.regLen) ∧
    (∀ x : Word, x.toNat < b.regLen → route p (b.regBase + x) = some (.reg x)) ∧
    (∀ w, p.layout.cmdBitsOk w = true → w.toNat < size) ∧
    (∀ x : Word, x.toNat < size →
      (b.cmdBase + x).toNat = b.cmdBase.toNat + x.toNat ∧ route p (b.cmdBase + x) = some (.cmd x)) ∧
    (∀ cs o, b.csOffsets[cs]? = some o →
      route p (b.csBase + o.setup) = some (.cs cs .setup) ∧
      route p (b.csBase + o.pulse) = some (.cs cs .pulse) ∧
      route p (b.csBase + o.cycle) = some (.cs cs .cycle) ∧
      route p (b.csBase + o.timings) = some (.cs cs .timings) ∧
      route p (b.csBase + o.mode) = some (.cs cs .mode)) ∧
    (∀ x : Word, x.toNat < b.csLen →
      (∀ o ∈ b.csOffsets, x ≠ o.setup ∧ x ≠ o.pulse ∧ x ≠ o.cycle ∧ x ≠ o.timings ∧ x ≠ o.mode) →
      route p (b.csBase + x) = some (.csGap x)) ∧
    (∀ a : Word, a.toNat < b.regBase.toNat ∨ b.regBase.toNat + b.regLen ≤ a.toNat →
      a.toNat < b.cmdBase.toNat ∨ b.cmdBase.toNat + size ≤ a.toNat →
      a.toNat < b.csBase.toNat ∨ b.csBase.toNat + b.csLen ≤ a.toNat → route p a = none)

/- The transactions -/

/-- 10_state.md R46: the clock gate turns the clock on, nothing turns it off, and every transaction is refused before
it. -/
def Obligations.NothingRunsBeforeTheClock : Prop :=
  ∀ s : State,
    (s.enablePeripheral s.par.board.periphId).blk.clockOn = true ∧
    (∀ t, step s = .next t → s.blk.clockOn = true → t.blk.clockOn = true) ∧
    (s.blk.clockOn = false →
      (∀ i, exec i s = .refused .clockOff) ∧ ∀ x, runTxn x s = .refused .clockOff)

/-- 41_sequencer_config.md R120: a legal word is stored and nothing else changes; every other case is refused by
name, in the order of the rule. -/
def Obligations.ConfigWriteStoresOnlyALegalWord : Prop :=
  ∀ (s : State) (v : Word),
    let L := s.par.layout
    (s.blk.clockOn = false → exec (.cfgW v) s = .refused .clockOff) ∧
    (s.blk.clockOn = true → s.blk.phase ≠ .idle → exec (.cfgW v) s = .refused .configWhileBusy) ∧
    (s.blk.clockOn = true → s.blk.phase = .idle →
      (L.reservedBitSet v → exec (.cfgW v) s = .refused .reservedBits) ∧
      (¬ L.reservedBitSet v → L.bothSpareFlags v → exec (.cfgW v) s = .refused .bothSpareFlags) ∧
      (¬ L.reservedBitSet v → ¬ L.bothSpareFlags v → ¬ s.par.pageCodeKnown v →
        exec (.cfgW v) s = .refused .badPageCode) ∧
      (¬ L.reservedBitSet v → ¬ L.bothSpareFlags v → s.par.pageCodeKnown v →
        exec (.cfgW v) s = .next { s with blk.cfg := v }))

/-- 30_encoding.md R90, R98; 10_state.md R28 (`CFG_DEFINED = 0x7F7F2307`): the words `CFG.W` stores from Idle, bit by
bit, and the others are refused. The positions and codes are the defaults of 00_scope.md R8, R9, general knowledge by
the spec's own mark (notes/assumptions/20.md). -/
def Obligations.LegalConfigurationWordsByDefault : Prop :=
  ∀ (s : State) (v : Word), s.par.layout = Layout.default → s.par.behaviour = Behaviour.default →
    let legal := v &&& 0x8080DCF8#32 = 0#32 ∧ v &&& 0x00000300#32 ≠ 0x00000300#32 ∧ (v &&& 7#32).toNat ≤ 4
    (s.par.cfgLegal v = true ↔ legal) ∧
    (s.blk.clockOn = true → s.blk.phase = .idle →
      (legal → exec (.cfgW v) s = .next { s with blk.cfg := v }) ∧
      (¬ legal → ∃ r, exec (.cfgW v) s = .refused r))

/-- 41_sequencer_config.md R121, 10_state.md R22: allowed in every phase, no side effect, and the word returned is the
one last written. -/
def Obligations.ConfigReadReturnsTheStoredWord : Prop :=
  ∀ s : State,
    (s.blk.clockOn = false → exec .cfgR s = .refused .clockOff) ∧
    (s.blk.clockOn = true →
      exec .cfgR s = .next { s with host.rdata := s.blk.cfg } ∧
      ∀ v t, exec (.cfgW v) s = .next t → ∃ u, exec .cfgR t = .next u ∧ u.host.rdata = v)

/-- 41_sequencer_config.md R122: the set bits of the mask disable their sources, in every phase; all ones leave no
source enabled. That a partial mask disables exactly its set bits the rule marks as derived. -/
def Obligations.InterruptDisableClearsTheSelectedSources : Prop :=
  ∀ (s : State) (m : Word),
    (s.blk.clockOn = false → exec (.idrW m) s = .refused .clockOff) ∧
    (s.blk.clockOn = true →
      ∃ t, exec (.idrW m) s = .next t ∧ t = { s with blk.imr := t.blk.imr } ∧
        (∀ i, t.blk.imr.getLsbD i = (s.blk.imr.getLsbD i && !m.getLsbD i)) ∧
        (m = 0xFFFFFFFF#32 → t.blk.imr = 0#32))

/-- 41_sequencer_config.md R123. -/
def Obligations.ControlWriteClearsOnlyWhenIdle : Prop :=
  ∀ (s : State) (v : Word),
    (s.blk.clockOn = false → exec (.ctrlW v) s = .refused .clockOff) ∧
    (s.blk.clockOn = true → v ≠ 0#32 → exec (.ctrlW v) s = .refused .controlNonZero) ∧
    (s.blk.clockOn = true → v = 0#32 → s.blk.phase ≠ .idle → exec (.ctrlW v) s = .refused .configWhileBusy) ∧
    (s.blk.clockOn = true → v = 0#32 → s.blk.phase = .idle → exec (.ctrlW v) s = .next { s with blk.ctrl := 0#32 })

/-- 42_command_encoder.md R140: the byte is stored, "persists until the next `ADDR.W`", and no command of fewer than five
cycles reads it. -/
def Obligations.ExtraAddressWriteStoresOneByte : Prop :=
  ∀ (s : State) (v : Word),
    (s.blk.clockOn = false → exec (.addrW v) s = .refused .clockOff) ∧
    (s.blk.clockOn = true → (∃ i, 8 ≤ i ∧ v.getLsbD i = true) → exec (.addrW v) s = .refused .reservedBits) ∧
    (s.blk.clockOn = true → (∀ i, 8 ≤ i → v.getLsbD i = false) → s.blk.phase ≠ .idle →
      exec (.addrW v) s = .refused .configWhileBusy) ∧
    (s.blk.clockOn = true → (∀ i, 8 ≤ i → v.getLsbD i = false) → s.blk.phase = .idle →
      ∃ t, exec (.addrW v) s = .next t ∧ t = { s with blk.addr0 := t.blk.addr0 } ∧ t.blk.addr0.zeroExtend 32 = v) ∧
    (∀ t u, step t = .next u → u.blk.addr0 ≠ t.blk.addr0 → ∃ x, t.nextInstr = some (.addrW x)) ∧
    (∀ n e e' a, n < 5 → cycles n e a = cycles n e' a)

/-- 42_command_encoder.md R141 to R147: the six command-decoded writes, each check in the order of the rule; from Idle
the command word, the packed address word and the extra-address register are latched together and the slot is
occupied, with no flag written and no event. The last clauses give the bits of the default layout (general knowledge by
the spec's own mark, notes/assumptions/20.md), and that a window (c) write of that count is that instruction. Under
another layout the forbidden bits are notes/assumptions/12.md's (DEDUCED); a term whose word has another count than its
row runs by its row (notes/assumptions/27.md, DESIGN CHOICE). -/
def Obligations.CommandIsAcceptedOnlyIntoAFreeSlot : Prop :=
  ∀ (s : State) (w a : Word),
    ∀ p ∈ [(0, Instr.nfcCmdA0 w a), (1, .nfcCmdA1 w a), (2, .nfcCmdA2 w a), (3, .nfcCmdA3 w a), (4, .nfcCmdA4 w a),
        (5, .nfcCmdA5 w a)],
      let ok := s.par.layout.cmdBitsOk w
      let unusedLanes := ∃ k, 8 * p.1 ≤ k ∧ a.getLsbD k = true
      (s.blk.clockOn = false → exec p.2 s = .refused .clockOff) ∧
      (s.blk.clockOn = true → ok = false → exec p.2 s = .refused .reservedBits) ∧
      (s.blk.clockOn = true → ok = true → s.blk.phase ≠ .idle →
        exec p.2 s = .next { s with blk.fault := { s.blk.fault with overlap := true } }) ∧
      (s.blk.clockOn = true → ok = true → s.blk.phase = .idle → unusedLanes →
        exec p.2 s = .refused .unusedLaneNonZero) ∧
      (s.blk.clockOn = true → ok = true → s.blk.phase = .idle → ¬ unusedLanes →
        exec p.2 s = .next { s with
          blk.curCmd := w
          blk.curAddr := a
          blk.curAddr0 := s.blk.addr0
          blk.phase := .issue }) ∧
      (s.par.layout = Layout.default → (ok = true ↔ w &&& 0xF8000003#32 = 0#32)) ∧
      (ok = true → s.par.layout.acycle w = p.1 → runTxn (writeTxn (.cmd w) a) s = exec p.2 s)

/-- 60_exceptions.md R201: a write into window (c) while the slot is occupied records `Overlap` and changes nothing
else, whatever the data; a reserved count records its own reason beside it (R202). -/
def Obligations.OverlapIsRecordedAndNothingElse : Prop :=
  ∀ (s : State) (w a : Word), s.blk.clockOn = true → s.blk.phase ≠ .idle → s.par.layout.cmdBitsOk w = true →
    let t : State := { s with blk.fault := { s.blk.fault with overlap := true } }
    let u : State := { s with blk.fault := ⟨true, true⟩ }
    (exec (.nfcCmdA0 w a) s = .next t ∧ exec (.nfcCmdA1 w a) s = .next t ∧ exec (.nfcCmdA2 w a) s = .next t ∧
      exec (.nfcCmdA3 w a) s = .next t ∧ exec (.nfcCmdA4 w a) s = .next t ∧ exec (.nfcCmdA5 w a) s = .next t ∧
      exec (.nfcCmdRsv6 w a) s = .next u ∧ exec (.nfcCmdRsv7 w a) s = .next u) ∧
    (s.par.layout.acycle w ≤ 5 → runTxn (writeTxn (.cmd w) a) s = .next t) ∧
    (s.par.layout.acycle w = 6 ∨ s.par.layout.acycle w = 7 → runTxn (writeTxn (.cmd w) a) s = .next u)

/-- 42_command_encoder.md R148, 60_exceptions.md R202: nothing is latched, the phase does not move; an occupied slot
records both reasons. -/
def Obligations.ReservedCountsRecordBadCycleCount : Prop :=
  ∀ (s : State) (w a : Word),
    (s.blk.clockOn = false →
      exec (.nfcCmdRsv6 w a) s = .refused .clockOff ∧ exec (.nfcCmdRsv7 w a) s = .refused .clockOff) ∧
    (s.blk.clockOn = true → s.blk.phase = .idle →
      let t : State := { s with blk.fault := { s.blk.fault with badCycleCount := true } }
      exec (.nfcCmdRsv6 w a) s = .next t ∧ exec (.nfcCmdRsv7 w a) s = .next t) ∧
    (s.blk.clockOn = true → s.blk.phase ≠ .idle →
      let t : State := { s with blk.fault := ⟨true, true⟩ }
      exec (.nfcCmdRsv6 w a) s = .next t ∧ exec (.nfcCmdRsv7 w a) s = .next t) ∧
    (s.par.layout.cmdBitsOk w = true →
      (s.par.layout.acycle w = 6 → runTxn (writeTxn (.cmd w) a) s = exec (.nfcCmdRsv6 w a) s) ∧
      (s.par.layout.acycle w = 7 → runTxn (writeTxn (.cmd w) a) s = exec (.nfcCmdRsv7 w a) s))

/-- 43_status_poller.md R170, 30_encoding.md R91: the six flags at their bits, a draw in every other bit, then the
five event flags cleared, the busy flag not. The positions are those of any well-formed layout; "clearing by read is
this spec's choice" (R170). -/
def Obligations.StatusReadSamplesThenClearsTheEvents : Prop :=
  ∀ s : State, s.par.layout.Wf →
    let L := s.par.layout
    (s.blk.clockOn = false → exec .srR s = .refused .clockOff) ∧
    (s.blk.clockOn = true → ∃ t, exec .srR s = .next t ∧
      L.srRbRise.bit t.host.rdata = s.blk.rbRise ∧ L.srRbFall.bit t.host.rdata = s.blk.rbFall ∧
      (L.srSeqBusy.bit t.host.rdata = true ↔ s.blk.phase ≠ .idle) ∧
      L.srXfrDone.bit t.host.rdata = s.blk.xfrDone ∧ L.srCmdDone.bit t.host.rdata = s.blk.cmdDone ∧
      L.srRbEdge0.bit t.host.rdata = s.blk.rbEdge0 ∧
      (∀ i, (∀ f ∈ L.srFields, i ≠ f.lo) → t.host.rdata.getLsbD i = (Config.draw s.draws).getLsbD i) ∧
      t = { s with
        blk.rbRise := false
        blk.rbFall := false
        blk.xfrDone := false
        blk.cmdDone := false
        blk.rbEdge0 := false
        host.rdata := t.host.rdata
        draws := s.draws + 1 })

/-- 20_memory.md R69, 43_status_poller.md R170: "a second read may return less than the first": no event flag is
returned twice, the busy flag is. -/
def Obligations.SecondStatusReadReturnsNoEvent : Prop :=
  ∀ s t u : State, s.par.layout.Wf → exec .srR s = .next t → exec .srR t = .next u →
    let L := s.par.layout
    (∀ f ∈ L.eventFields, f.bit u.host.rdata = false) ∧
      L.srSeqBusy.bit u.host.rdata = L.srSeqBusy.bit t.host.rdata ∧ u.blk = t.blk

/-- 43_status_poller.md R171: `host_busy` at its bit, draws elsewhere, no side effect; it dispatches nothing and clears
no flag. -/
def Obligations.HostStatusReadShowsTheOccupiedSlot : Prop :=
  ∀ (s : State) (offset : Word), s.par.layout.Wf →
    (s.blk.clockOn = false → exec (.hstatR offset) s = .refused .clockOff) ∧
    (s.blk.clockOn = true → ∃ t, exec (.hstatR offset) s = .next t ∧
      (s.par.layout.hstatBusy.bit t.host.rdata = true ↔ s.blk.phase ≠ .idle) ∧
      (∀ i, i ≠ s.par.layout.hstatBusy.lo → t.host.rdata.getLsbD i = (Config.draw s.draws).getLsbD i) ∧
      t = { s with host.rdata := t.host.rdata, draws := s.draws + 1 })

/-- 43_status_poller.md R172. -/
def Obligations.EccStatusReadShowsTheBusyInput : Prop :=
  ∀ s : State, s.par.layout.Wf →
    (s.blk.clockOn = false → exec .eccsrR s = .refused .clockOff) ∧
    (s.blk.clockOn = true → ∃ t, exec .eccsrR s = .next t ∧
      s.par.layout.eccsrBusy.bit t.host.rdata = s.blk.eccBusy ∧
      (∀ i, i ≠ s.par.layout.eccsrBusy.lo → t.host.rdata.getLsbD i = (Config.draw s.draws).getLsbD i) ∧
      t = { s with host.rdata := t.host.rdata, draws := s.draws + 1 })

/-- 40_bus_timing.md R111, R112: without the clock or outside 0..`N_CS`-1 a write is refused; otherwise one register of
one chip select takes the word and everything else stays. That every chip select has its registers is the invariant
`Inv.chips`. -/
def Obligations.ChipSelectWriteStoresOneRegister : Prop :=
  ∀ (s : State) (cs : Nat) (v : Word),
    (s.blk.clockOn = false → ∀ i ∈ [Instr.csSetupW cs v, .csPulseW cs v, .csCycleW cs v, .csTimingsW cs v, .csModeW cs v],
      exec i s = .refused .clockOff) ∧
    (s.blk.clockOn = true → s.par.board.nCs ≤ cs →
      ∀ i ∈ [Instr.csSetupW cs v, .csPulseW cs v, .csCycleW cs v, .csTimingsW cs v, .csModeW cs v],
        exec i s = .refused .chipSelectRange) ∧
    (s.blk.clockOn = true → cs < s.par.board.nCs → s.t.length = s.par.board.nCs →
      ∃ r, s.t[cs]? = some r ∧
        exec (.csSetupW cs v) s = .next { s with t := s.t.set cs { r with setup := v } } ∧
        exec (.csPulseW cs v) s = .next { s with t := s.t.set cs { r with pulse := v } } ∧
        exec (.csCycleW cs v) s = .next { s with t := s.t.set cs { r with cycle := v } } ∧
        exec (.csTimingsW cs v) s = .next { s with t := s.t.set cs { r with timings := v } } ∧
        exec (.csModeW cs v) s = .next { s with t := s.t.set cs { r with mode := v } })

/-- The frame of all 21 transactions (10_state.md R22, R29, R30, R31, R42, R43, R44, R46; 40_bus_timing.md): inputs,
history, marks, configuration record, agenda and the host's program are no transaction's to write, and each register
is written by its own transaction only. -/
def Obligations.EachRegisterIsWrittenByItsOwnTransaction : Prop :=
  ∀ (i : Instr) (s t : State), exec i s = .next t →
    (t.par = s.par ∧ t.agenda = s.agenda ∧ t.host.calls = s.host.calls ∧ t.host.ops = s.host.ops ∧
      t.host.ret = s.host.ret ∧ t.host.outcome = s.host.outcome) ∧
    (t.blk.trace = s.blk.trace ∧ t.blk.eccBusy = s.blk.eccBusy ∧ t.blk.rbLevel = s.blk.rbLevel ∧
      t.blk.clockOn = s.blk.clockOn ∧ t.blk.refused = s.blk.refused) ∧
    (t.blk.cfg ≠ s.blk.cfg → ∃ v, i = .cfgW v) ∧
    (t.blk.ctrl ≠ s.blk.ctrl → ∃ v, i = .ctrlW v) ∧
    (t.blk.imr ≠ s.blk.imr → ∃ m, i = .idrW m) ∧
    (t.blk.addr0 ≠ s.blk.addr0 → ∃ v, i = .addrW v) ∧
    ((t.blk.cmdDone, t.blk.xfrDone, t.blk.rbFall, t.blk.rbRise, t.blk.rbEdge0) ≠
      (s.blk.cmdDone, s.blk.xfrDone, s.blk.rbFall, s.blk.rbRise, s.blk.rbEdge0) → i = .srR) ∧
    ((t.blk.phase, t.blk.curCmd, t.blk.curAddr, t.blk.curAddr0) ≠
      (s.blk.phase, s.blk.curCmd, s.blk.curAddr, s.blk.curAddr0) → ∃ w a,
        i ∈ [.nfcCmdA0 w a, .nfcCmdA1 w a, .nfcCmdA2 w a, .nfcCmdA3 w a, .nfcCmdA4 w a, .nfcCmdA5 w a]) ∧
    (t.blk.fault ≠ s.blk.fault → ∃ w a,
      i ∈ [.nfcCmdA0 w a, .nfcCmdA1 w a, .nfcCmdA2 w a, .nfcCmdA3 w a, .nfcCmdA4 w a, .nfcCmdA5 w a,
        .nfcCmdRsv6 w a, .nfcCmdRsv7 w a]) ∧
    (t.host.rdata ≠ s.host.rdata → i = .cfgR ∨ i = .srR ∨ i = .eccsrR ∨ ∃ o, i = .hstatR o) ∧
    (t.draws ≠ s.draws → i = .srR ∨ i = .eccsrR ∨ ∃ o, i = .hstatR o) ∧
    (t.t ≠ s.t → ∃ cs v, i ∈ [.csSetupW cs v, .csPulseW cs v, .csCycleW cs v, .csTimingsW cs v, .csModeW cs v])

/- Steps -/

/-- 00_scope.md R3, R13: when the host's turn is next and its next operation is a transaction that decodes to `i`, the
step is `exec i`, the turn and the operation used up; a refused one leaves the sticky mark on the state of the turn
(notes/assumptions/6.md, DEDUCED). -/
def Obligations.StepRunsTheDecodedTransaction : Prop :=
  ∀ (s t : State) (x : Txn) (rest : List HostOp) (i : Instr),
    s.blk.refused = none → s.nextTurn = some .host → s.host.outcome = none → s.host.ops = .access x :: rest →
    decode s.par.layout x = .ok i →
    (exec i { s with agenda := s.agenda.tail, host.ops := rest } = .next t → step s = .next t) ∧
    (∀ r, exec i { s with agenda := s.agenda.tail, host.ops := rest } = .refused r →
      step s = .next { s with agenda := s.agenda.tail, blk.refused := some r }) ∧
    (∀ f, exec i { s with agenda := s.agenda.tail, host.ops := rest } ≠ .fault f)

/-- 00_scope.md R13, 10_state.md R45: nothing is claimed of a run once it is marked: every later step answers the
reason that set the mark (notes/assumptions/6.md, DEDUCED). -/
def Obligations.MarkedRunOnlyRefuses : Prop :=
  ∀ (s t : State) (k : Nat), step s = .next t → s.blk.refused = none ∧
    (∀ r, t.blk.refused = some r → t.after (k + 1) = .refused r)

/-- 42_command_encoder.md R152, R149: enabled exactly in Issue; the whole command is one event, `command_done` is set,
and the slot is freed unless a data phase follows. -/
def Obligations.DispatchIssuesTheWholeCommand : Prop :=
  ∀ (s : State) (rest : List Turn), s.blk.refused = none → s.agenda = .seqDispatch :: rest →
    let w := s.blk.curCmd
    (s.blk.phase = .issue → step s = .next { s with
      agenda := rest
      blk.trace := s.blk.trace ++
        [.dispatched w (cycles (s.par.layout.acycle w) s.blk.curAddr0 s.blk.curAddr)]
      blk.cmdDone := true
      blk.phase := if s.par.layout.cwDataen.bit w then .data else .idle }) ∧
    (s.blk.phase ≠ .issue → step s = .fault .dispatchNotEnabled)

/-- 42_command_encoder.md R153: enabled exactly in Data. -/
def Obligations.TransferEndsTheDataPhase : Prop :=
  ∀ (s : State) (rest : List Turn), s.blk.refused = none → s.agenda = .seqXfer :: rest →
    (s.blk.phase = .data → step s = .next { s with
      agenda := rest
      blk.trace := s.blk.trace ++ [.dataDone s.blk.curCmd]
      blk.xfrDone := true
      blk.phase := .idle }) ∧
    (s.blk.phase ≠ .data → step s = .fault .xferNotEnabled)

/-- 43_status_poller.md R176: no edge, no change; with edge detection an edge sets exactly its flags and clears none, and
`rb_edge0` is set by the rising edge or the falling one as the configured polarity says (10_state.md R37);
without it each assignment the edge names is performed or skipped by a draw of its own. -/
def Obligations.PinEdgeSetsItsFlags : Prop :=
  ∀ (s : State) (l : Bool) (rest : List Turn), s.blk.refused = none → s.agenda = .envRb l :: rest →
    let hits : Bool := if s.par.behaviour.rbEdge0Polarity = .rising then l else !l
    (l = s.blk.rbLevel → step s = .next { s with agenda := rest }) ∧
    (l ≠ s.blk.rbLevel → s.par.layout.cfgRbedge.bit s.blk.cfg = true → step s = .next { s with
      agenda := rest
      blk.rbFall := s.blk.rbFall || !l
      blk.rbRise := s.blk.rbRise || l
      blk.rbEdge0 := s.blk.rbEdge0 || hits
      blk.rbLevel := l }) ∧
    (l ≠ s.blk.rbLevel → s.par.layout.cfgRbedge.bit s.blk.cfg = false → ∃ t, step s = .next t ∧
      t = { s with
        agenda := rest
        draws := t.draws
        blk.rbFall := t.blk.rbFall
        blk.rbRise := t.blk.rbRise
        blk.rbEdge0 := t.blk.rbEdge0
        blk.rbLevel := l } ∧
      t.blk.rbFall = (s.blk.rbFall || (!l && Config.drawBit s.draws)) ∧
      t.blk.rbRise = (s.blk.rbRise || (l && Config.drawBit (s.draws + 1))) ∧
      t.blk.rbEdge0 = (s.blk.rbEdge0 || (hits && Config.drawBit (s.draws + 2))))

/-- 43_status_poller.md R177: always enabled, a free input. -/
def Obligations.EccInputTakesAnyValue : Prop :=
  ∀ (s : State) (b : Bool) (rest : List Turn), s.blk.refused = none → s.agenda = .envEcc b :: rest →
    step s = .next { s with agenda := rest, blk.eccBusy := b }

/-- 30_encoding.md R85, 42_command_encoder.md R151, R153: the device on chip select `cs` receives bus cycles only from a
dispatch of a command that names `cs`, and then exactly the first opcode, the address bytes in order, and the second
opcode when it is valid. -/
def Obligations.DispatchReachesOnlyTheNamedChipSelect : Prop :=
  ∀ (s t : State) (cs : Nat), step s = .next t →
    let L := s.par.layout
    let w := s.blk.curCmd
    let now := received L cs s.blk.trace
    (s.nextTurn = some .seqDispatch → (L.cwCsid.get w).toNat = cs →
      received L cs t.blk.trace = now ++
        .cmdCycle ((L.cwCmd1.get w).setWidth 8) ::
          ((cycles (L.acycle w) s.blk.curAddr0 s.blk.curAddr).map .addrCycle ++
            if L.cwVcmd2.bit w then [.cmdCycle ((L.cwCmd2.get w).setWidth 8)] else [])) ∧
    (¬ (s.nextTurn = some .seqDispatch ∧ (L.cwCsid.get w).toNat = cs) → received L cs t.blk.trace = now)

/- Whole-machine rules -/

/-- 10_state.md R40: "There is no other transition". -/
def Obligations.PhaseMovesOnlyAlongItsCycle : Prop :=
  ∀ s t : State, step s = .next t →
    t.blk.phase = s.blk.phase ∨
    (s.blk.phase = .idle ∧ t.blk.phase = .issue ∧
      ∃ w a, s.nextInstr ∈ [some (.nfcCmdA0 w a), some (.nfcCmdA1 w a), some (.nfcCmdA2 w a), some (.nfcCmdA3 w a),
        some (.nfcCmdA4 w a), some (.nfcCmdA5 w a)] ∧ t.blk.curCmd = w ∧ t.blk.curAddr = a) ∨
    (s.blk.phase = .issue ∧ s.nextTurn = some .seqDispatch ∧
      t.blk.phase = if s.par.layout.cwDataen.bit s.blk.curCmd then .data else .idle) ∨
    (s.blk.phase = .data ∧ s.nextTurn = some .seqXfer ∧ t.blk.phase = .idle)

/-- 10_state.md R33: set by the dispatch step, cleared by every status read, changed by nothing else. -/
def Obligations.CommandDoneChangesOnlyByDispatchAndStatusRead : Prop :=
  ∀ s t : State, step s = .next t →
    (s.nextTurn = some .seqDispatch → t.blk.cmdDone = true) ∧
    (s.nextInstr = some .srR → s.blk.clockOn = true → t.blk.cmdDone = false) ∧
    (s.nextTurn ≠ some .seqDispatch → s.nextInstr ≠ some .srR → t.blk.cmdDone = s.blk.cmdDone)

/-- 10_state.md R34. -/
def Obligations.TransferDoneChangesOnlyByTransferAndStatusRead : Prop :=
  ∀ s t : State, step s = .next t →
    (s.nextTurn = some .seqXfer → t.blk.xfrDone = true) ∧
    (s.nextInstr = some .srR → s.blk.clockOn = true → t.blk.xfrDone = false) ∧
    (s.nextTurn ≠ some .seqXfer → s.nextInstr ≠ some .srR → t.blk.xfrDone = s.blk.xfrDone)

/-- 10_state.md R35, R36, R37: each flag is set only by its own edge of the pin, and with edge detection enabled by
every one, and cleared only by a status read, and by every one. -/
def Obligations.ReadyBusyFlagsChangeOnlyByEdgesAndStatusRead : Prop :=
  ∀ s t : State, step s = .next t →
    (s.nextInstr = some .srR → s.blk.clockOn = true →
      t.blk.rbFall = false ∧ t.blk.rbRise = false ∧ t.blk.rbEdge0 = false) ∧
    (∀ l, s.nextTurn = some (.envRb l) → s.blk.rbLevel = !l → s.par.layout.cfgRbedge.bit s.blk.cfg = true →
      (l = false → t.blk.rbFall = true) ∧ (l = true → t.blk.rbRise = true) ∧
        (s.par.behaviour.rbEdge0Polarity = (if l then .rising else .falling) → t.blk.rbEdge0 = true)) ∧
    (s.nextInstr ≠ some .srR →
      (t.blk.rbFall ≠ s.blk.rbFall →
        t.blk.rbFall = true ∧ s.nextTurn = some (.envRb false) ∧ s.blk.rbLevel = true) ∧
      (t.blk.rbRise ≠ s.blk.rbRise →
        t.blk.rbRise = true ∧ s.nextTurn = some (.envRb true) ∧ s.blk.rbLevel = false) ∧
      (t.blk.rbEdge0 ≠ s.blk.rbEdge0 → t.blk.rbEdge0 = true ∧
        ∃ l, s.nextTurn = some (.envRb l) ∧ s.blk.rbLevel = !l ∧
          s.par.behaviour.rbEdge0Polarity = if l then .rising else .falling))

/-- 10_state.md R44, R45, R46, 00_scope.md §4: along any number of steps the trace only grows at its end, a fault
reason is never removed, the clock stays on and the configuration record is the same. -/
def Obligations.HistoryAndMarksAreNeverUndone : Prop :=
  ∀ (s t : State) (k : Nat), s.after k = .next t →
    s.blk.trace <+: t.blk.trace ∧ (s.blk.fault.overlap = true → t.blk.fault.overlap = true) ∧
      (s.blk.fault.badCycleCount = true → t.blk.fault.badCycleCount = true) ∧
      (s.blk.clockOn = true → t.blk.clockOn = true) ∧ t.par = s.par

/-- 10_state.md R47, 60_exceptions.md R210, R211, 70_reset_and_hazards.md R231: no step sets a mask bit, so once every
source is disabled the interrupt line is 0 for the rest of the run; and in every state the line is 1 exactly when one of
the five flags is set whose mask bit is. -/
def Obligations.InterruptLineStaysLowOnceMasked : Prop :=
  ∀ (s t : State) (k : Nat), s.after k = .next t →
    let L := t.par.layout
    (∀ i, t.blk.imr.getLsbD i = true → s.blk.imr.getLsbD i = true) ∧
      (s.blk.imr = 0#32 → irq L t.blk = false) ∧
      (L.Wf → (irq L t.blk = true ↔
        (t.blk.cmdDone = true ∧ L.srCmdDone.bit t.blk.imr = true) ∨
        (t.blk.xfrDone = true ∧ L.srXfrDone.bit t.blk.imr = true) ∨
        (t.blk.rbFall = true ∧ L.srRbFall.bit t.blk.imr = true) ∨
        (t.blk.rbRise = true ∧ L.srRbRise.bit t.blk.imr = true) ∨
        (t.blk.rbEdge0 = true ∧ L.srRbEdge0.bit t.blk.imr = true)))

/-- The invariant `Inv` of the slot, the trace, the completion flags and the chip selects, kept by every step
(10_state.md R33, R34, R41, R44; 42_command_encoder.md R140, R141, R152, R153; 40_bus_timing.md R110). -/
def Obligations.InvariantIsKeptByEveryStep : Prop :=
  ∀ s t : State, Inv s → step s = .next t → Inv t

/-- The invariant holds after a hardware reset, whatever the configuration record, and the components that
10_state.md R50 gives a value have it: Idle, no event, no mark, the clock off. One clause rests on the model's choice
(notes/assumptions/2.md, DESIGN CHOICE): `Inv.signalled` holds because `cmdDone` and `xfrDone` are zero at reset, where
the spec leaves them unspecified (R50; 70_reset_and_hazards.md R242). -/
def Obligations.InvariantHoldsAtReset : Prop :=
  ∀ p : Params, Inv (State.resetWith p) ∧ (State.resetWith p).blk.clockOn = false ∧
    (State.resetWith p).unmarked = true ∧ (State.resetWith p).blk.phase = .idle ∧
    (State.resetWith p).blk.trace = [] ∧ State.reset = State.resetWith (Params.withBoard Config.board)

/-- 41_sequencer_config.md R130, 10_state.md R28: a configuration register that holds an admitted word keeps holding
one, so at most one of the two spare predicates is true. -/
def Obligations.ConfigurationStaysLegal : Prop :=
  ∀ (s t : State) (k : Nat), s.par.cfgLegal s.blk.cfg = true → s.after k = .next t →
    t.par.cfgLegal t.blk.cfg = true ∧
      ¬ (t.par.layout.cfgRspare.bit t.blk.cfg = true ∧ t.par.layout.cfgWspare.bit t.blk.cfg = true)

/- The host routines -/

/-- 41_sequencer_config.md R127: from an idle sequencer the mask and the control register become zero, the interrupt
line is 0 and the block is otherwise unchanged. -/
def Obligations.ResetSequencerZeroesMaskAndControl : Prop :=
  ∀ (s : State) (rest : List Turn) (calls : List Call),
    s.par.layout.Wf → s.blk.refused = none → s.blk.clockOn = true → s.blk.phase = .idle →
    s.host.outcome = none → s.host.ops = [] → s.host.calls = .resetSequencer :: calls →
    s.agenda = .host :: .host :: .host :: rest →
    ∃ t, s.after 3 = .next t ∧ irq t.par.layout t.blk = false ∧ t = { s with
      agenda := rest
      blk.imr := 0#32
      blk.ctrl := 0#32
      host.calls := calls
      host.ret := none }

/-- 41_sequencer_config.md R128, 60_exceptions.md R203, R204, R215: the assertion first, then the page size; a failed
check halts the host with nothing written; otherwise the one write stores the configuration word. -/
def Obligations.ConfigureSequencerChecksThenWrites : Prop :=
  ∀ (s : State) (rest : List Turn) (pageSize spareSize : Word) (readSpare writeSpare : Bool) (calls : List Call),
    s.par.layout.Wf → s.par.behaviour.Wf s.par.layout → s.blk.refused = none → s.blk.clockOn = true →
    s.blk.phase = .idle → s.host.outcome = none → s.host.ops = [] →
    s.host.calls = .configureSequencer pageSize spareSize readSpare writeSpare :: calls →
    s.agenda = .host :: .host :: rest →
    ((readSpare && writeSpare) = true →
      step s = .next { s with
        agenda := .host :: rest, host.calls := calls, host.outcome := some .invariantViolation }) ∧
    ((readSpare && writeSpare) = false → pageSize ∉ s.par.behaviour.supportedPageSizes →
      step s = .next { s with
        agenda := .host :: rest, host.calls := calls, host.outcome := some .unsupportedConfiguration }) ∧
    ((readSpare && writeSpare) = false → ∀ v, cfgword s.par pageSize spareSize readSpare writeSpare = some v →
      s.after 2 = .next { s with agenda := rest, host.calls := calls, host.ret := none, blk.cfg := v })

/-- 41_sequencer_config.md R131: where the spare field (spare_size - 1) >> 2 does not fit its register field, the call is
refused and nothing is written; that the assertion and the page size come first is notes/assumptions/16.md (DEDUCED),
that the refusal is a mark on the state of the turn notes/assumptions/6.md (DEDUCED). -/
def Obligations.ConfigureSequencerRefusesASpareSizeThatDoesNotFit : Prop :=
  ∀ (s : State) (rest : List Turn) (pageSize spareSize : Word) (readSpare writeSpare : Bool) (calls : List Call),
    s.blk.refused = none → s.host.outcome = none → s.host.ops = [] →
    s.host.calls = .configureSequencer pageSize spareSize readSpare writeSpare :: calls → s.agenda = .host :: rest →
    (readSpare && writeSpare) = false → pageSize ∈ s.par.behaviour.supportedPageSizes →
    (∃ i, s.par.layout.cfgSparesize.width ≤ i ∧ ((spareSize - 1#32) >>> 2).getLsbD i = true) →
    step s = .next { s with agenda := rest, blk.refused := some .spareSizeRange }

/-- 41_sequencer_config.md R129, and the routine of R130: one read of the configuration register, one bit, no side
effect. -/
def Obligations.SparePredicatesReadTheirBit : Prop :=
  ∀ (s : State) (rest : List Turn) (calls : List Call) (c : Call),
    s.par.layout.Wf → s.blk.refused = none → s.blk.clockOn = true → s.host.outcome = none → s.host.ops = [] →
    s.host.calls = c :: calls → s.agenda = .host :: .host :: rest →
    let t (b : Bool) : State := { s with
      agenda := rest, host.calls := calls, host.ret := some b, host.rdata := s.blk.cfg }
    (c = .isSpareReadEnabled → s.after 2 = .next (t (s.par.layout.cfgRspare.bit s.blk.cfg))) ∧
    (c = .isSpareWriteEnabled → s.after 2 = .next (t (s.par.layout.cfgWspare.bit s.blk.cfg)))

/-- 43_status_poller.md R186: it does not block, and its read clears the five event flags like any other. -/
def Obligations.IsSequencerBusyReadsAndClears : Prop :=
  ∀ (s : State) (rest : List Turn) (calls : List Call),
    s.par.layout.Wf → s.blk.refused = none → s.blk.clockOn = true → s.host.outcome = none → s.host.ops = [] →
    s.host.calls = .isSequencerBusy :: calls → s.agenda = .host :: .host :: rest →
    ∃ t, s.after 2 = .next t ∧ t.host.ret = some s.blk.busy ∧ t.returned = calls.isEmpty ∧
      t.blk.quiet = true ∧ t.blk.phase = s.blk.phase ∧ t.blk.cfg = s.blk.cfg

/-- 43_status_poller.md R180 to R185, R187: a poll ends its wait exactly when the block's own condition holds; if it
does not, and no bound is set, the same wait goes on. -/
def Obligations.PollEndsTheWaitExactlyOnItsCondition : Prop :=
  ∀ (s : State) (c : SpinCond) (ops : List HostOp) (rest : List Turn),
    s.par.layout.Wf → s.blk.refused = none → s.blk.clockOn = true → s.host.outcome = none →
    s.host.ops = .spin c none :: ops → s.agenda = .host :: rest →
    ∃ t, step s = .next t ∧ t.host.ops = (if s.blk.meets c then ops else .spin c none :: ops) ∧
      t.host.outcome = none ∧
      t.blk = (if c = .hostNotBusy ∨ c = .eccReady then s.blk else s.blk.clearEvents)

/-- 43_status_poller.md R180 to R185, R188: each wait is the loops its rule gives it, in that order, with the bound of the
configuration record. A wait of one loop whose condition holds returns after its first poll. In
`wait_ready_busy_pulse` a rising edge that the first loop reads together with the falling one is consumed
(70_reset_and_hazards.md R244). -/
def Obligations.WaitCallsRunTheirLoops : Prop :=
  ∀ (s : State) (call : Call) (loops : List SpinCond) (calls : List Call) (rest : List Turn),
    s.blk.refused = none → s.host.outcome = none → s.host.ops = [] → s.host.calls = call :: calls →
    s.agenda = .host :: .host :: rest →
    (call, loops) ∈ [(.waitHostNotBusy, [.hostNotBusy]), (.waitCommandDone, [.commandDone]),
      (.waitTransferDone, [.transferDone]), (.waitReadyBusyPulse, [.rbFall, .rbRise]),
      (.waitReadyBusyEdge0, [.rbEdge0]), (.waitEccEngineReady, [.eccReady])] →
    step s = .next { s with
      agenda := .host :: rest
      host.calls := calls
      host.ops := loops.map fun c => .spin c s.par.behaviour.waitBound
      host.ret := none } ∧
    (s.par.layout.Wf → s.blk.clockOn = true → ∀ c others, loops = c :: others → s.blk.meets c = true →
      ∃ t, s.after 2 = .next t ∧ t.host.outcome = none ∧ t.host.calls = calls ∧ t.agenda = rest ∧
        t.host.ops = (others.map fun c => .spin c s.par.behaviour.waitBound) ∧
        t.blk = (if c = .hostNotBusy ∨ c = .eccReady then s.blk else s.blk.clearEvents) ∧
        (call = .waitReadyBusyPulse → t.blk.rbRise = false))

/-- 43_status_poller.md R188, 60_exceptions.md R205: with `k` + 1 evaluations left, a poll whose condition holds ends the
wait; one whose condition is false leaves `k`, and the last one ends the routine in `HardwareTimeout`, in the same step
by the model's choice (notes/assumptions/15.md). -/
def Obligations.BoundedWaitTimesOutAfterItsLastEvaluation : Prop :=
  ∀ (s : State) (c : SpinCond) (k : Nat) (ops : List HostOp) (rest : List Turn),
    s.par.layout.Wf → s.blk.refused = none → s.blk.clockOn = true → s.host.outcome = none →
    s.host.ops = .spin c (some (k + 1)) :: ops → s.agenda = .host :: rest →
    ∃ t, step s = .next t ∧
      t.blk = (if c = .hostNotBusy ∨ c = .eccReady then s.blk else s.blk.clearEvents) ∧
      (s.blk.meets c = true → t.host.outcome = none ∧ t.host.ops = ops) ∧
      (s.blk.meets c = false → k = 0 → t.host.outcome = some .hardwareTimeout) ∧
      (s.blk.meets c = false → k ≠ 0 → t.host.outcome = none ∧ t.host.ops = .spin c (some k) :: ops)

/-- 43_status_poller.md R181: "Called with no command in flight and `s.cmd_done = 0` it never returns": an infinite
run, neither a fault nor a refusal. The schedule is the fair continuation of the empty agenda, the model's choice
(notes/assumptions/7.md). -/
def Obligations.WaitCommandDoneWithoutCommandNeverReturns : Prop :=
  ∀ (s : State) (k : Nat), s.par.layout.Wf → s.par.behaviour.waitBound = none → s.blk.refused = none →
    s.blk.clockOn = true → s.blk.phase = .idle → s.blk.cmdDone = false → s.agenda = [] →
    s.host.outcome = none → s.host.ops = [] → s.host.calls = [.waitCommandDone] →
    ∃ t, s.after k = .next t ∧ t.returned = false ∧ t.host.outcome = none

/-- 42_command_encoder.md R157 (b) to (e): under every interleaving of the other agents, once `send_command` has
returned the trace has grown by the dispatch of its command with the caller's bytes in the caller's order, followed
only by the end of its data phase; no fault is recorded, nothing was refused, and `command_done` is consumed. -/
def Obligations.SendCommandDispatchesExactlyItsCommand : Prop :=
  ∀ (s t : State) (w : Word) (bytes : List Byte) (k : Nat),
    s.par.layout.Wf → s.blk.refused = none → s.blk.clockOn = true → s.blk.phase = .idle → s.blk.cmdDone = false →
    s.blk.fault.isEmpty = true → s.host.outcome = none → s.host.ops = [] → s.host.calls = [.sendCommand w bytes] →
    s.par.layout.legalCommand w = true → s.par.layout.acycle w ≤ bytes.length →
    s.after k = .next t → t.returned = true →
    t.unmarked = true ∧ t.blk.cmdDone = false ∧
      (t.blk.trace = s.blk.trace ++ [.dispatched w (bytes.take (s.par.layout.acycle w))] ∨
        (s.par.layout.cwDataen.bit w = true ∧
          t.blk.trace =
            s.blk.trace ++ [.dispatched w (bytes.take (s.par.layout.acycle w)), .dataDone w]))

/-- 42_command_encoder.md R157 (f), R154: under the fair continuation (the sequencer's step whenever it has one) the
call returns, after at most eight steps. The continuation is the model's choice of a fair schedule
(notes/assumptions/7.md). -/
def Obligations.SendCommandReturnsWhenTheSequencerIsFair : Prop :=
  ∀ (s : State) (w : Word) (bytes : List Byte),
    s.par.layout.Wf → s.par.behaviour.Wf s.par.layout → s.blk.refused = none → s.blk.clockOn = true →
    s.blk.phase = .idle → s.agenda = [] →
    s.host.outcome = none → s.host.ops = [] → s.host.calls = [.sendCommand w bytes] →
    s.par.layout.legalCommand w = true → s.par.layout.acycle w ≤ bytes.length →
    ∃ k t, k ≤ 8 ∧ s.after k = .next t ∧ t.returned = true ∧ t.blk.phase = .idle ∧ t.blk.cmdDone = false ∧
      Event.dispatched w (bytes.take (s.par.layout.acycle w)) ∈ t.blk.trace

/-- 42_command_encoder.md R156, R159; 60_exceptions.md R203, R215: an invalid count is reported once the slot has been
seen free and nothing is written; a short byte sequence is refused. -/
def Obligations.SendCommandStopsBeforeWritingABadCount : Prop :=
  ∀ (s : State) (w : Word) (bytes : List Byte) (ops : List HostOp) (rest : List Turn),
    s.blk.refused = none → s.host.outcome = none → s.host.ops = .encodeCommand w bytes :: ops →
    s.agenda = .host :: rest →
    (5 < s.par.layout.acycle w → step s = .next { s with
      agenda := rest, host.ops := [], host.outcome := some .invariantViolation }) ∧
    (s.par.layout.acycle w ≤ 5 → bytes.length < s.par.layout.acycle w → step s = .next { s with
      agenda := rest, blk.refused := some .shortAddressBytes })

/-- 42_command_encoder.md R156 step 3 and 4, R158: the extra-address register is written before the command, with the
first byte, and only for five cycles. -/
def Obligations.ExtraAddressIsWrittenOnlyForFiveCycles : Prop :=
  ∀ (s : State) (w : Word) (bytes : List Byte) (ops : List HostOp) (rest : List Turn),
    s.blk.refused = none → s.host.outcome = none → s.host.ops = .encodeCommand w bytes :: ops →
    s.agenda = .host :: rest → s.par.layout.acycle w ≤ 5 → s.par.layout.acycle w ≤ bytes.length →
    ∃ e a, pack (s.par.layout.acycle w) bytes = some (e, a) ∧
      (s.par.layout.acycle w ≠ 5 → step s = .next { s with
        agenda := rest, host.ops := .access (writeTxn (.cmd w) a) :: ops }) ∧
      (s.par.layout.acycle w = 5 → ∃ b, bytes.head? = some b ∧ step s = .next { s with
        agenda := rest,
        host.ops := .access (writeTxn (.reg s.par.layout.offAddr) (b.zeroExtend 32)) ::
          .access (writeTxn (.cmd w) a) :: ops })

/-- 40_bus_timing.md R113, R115; 95_test_vectors.md S7, S8: the preset enables the clock and writes the five registers
of the NAND chip select; the mode register has read and write enabled, the 8-bit code exactly for bus width 8 and the
16-bit code for every other value, and one data-float cycle. The schedule is the fair continuation
(notes/assumptions/7.md), the zeros outside these four fields are the model's choice (notes/assumptions/22.md), and that
the fields can hold their values is `ModeLayout.Wf` (notes/assumptions/23.md). -/
def Obligations.NandTimingPresetWritesItsChipSelect : Prop :=
  ∀ (s : State) (busWidth : Word), s.blk.refused = none → s.blk.phase = .idle → s.agenda = [] →
    s.host.outcome = none → s.host.ops = [] → s.host.calls = [.configureNandTiming busWidth] →
    s.par.board.nandCs < s.par.board.nCs → s.t.length = s.par.board.nCs → s.par.board.mode.Wf →
    let b := s.par.board
    ∃ t m, s.after 7 = .next t ∧ t.returned = true ∧ t.blk = { s.blk with clockOn := true } ∧
      t.t = s.t.set b.nandCs ⟨b.nandSetup, b.nandPulse, b.nandCycle, b.nandTimings, m⟩ ∧
      b.mode.read.get m = 1#32 ∧ b.mode.write.get m = 1#32 ∧
      b.mode.dbw.get m = (if busWidth = 8#32 then b.mode.dbw8 else b.mode.dbw16) ∧ b.mode.tdf.get m = 1#32 ∧
      ∀ i, m.getLsbD i = true → ∃ f ∈ [b.mode.read, b.mode.write, b.mode.dbw, b.mode.tdf],
        f.lo ≤ i ∧ i < f.lo + f.width

/-- 40_bus_timing.md R114, R115; 95_test_vectors.md S9: the NOR preset writes the caller's chip select, its
extended-timings register with zero, and a mode register that also disables extended-wait mode. The same choices as for
the NAND preset (notes/assumptions/7.md, notes/assumptions/22.md, notes/assumptions/23.md). -/
def Obligations.NorTimingPresetWritesItsChipSelect : Prop :=
  ∀ (s : State) (cs : Nat) (busWidth : Word), s.blk.refused = none → s.blk.phase = .idle → s.agenda = [] →
    s.host.outcome = none → s.host.ops = [] → s.host.calls = [.configureNorTiming cs busWidth] →
    cs < s.par.board.nCs → s.t.length = s.par.board.nCs → s.par.board.mode.Wf →
    let b := s.par.board
    ∃ t m, s.after 7 = .next t ∧ t.returned = true ∧ t.blk = { s.blk with clockOn := true } ∧
      t.t = s.t.set cs ⟨b.norSetup, b.norPulse, b.norCycle, 0#32, m⟩ ∧
      b.mode.read.get m = 1#32 ∧ b.mode.write.get m = 1#32 ∧
      b.mode.dbw.get m = (if busWidth = 8#32 then b.mode.dbw8 else b.mode.dbw16) ∧ b.mode.tdf.get m = 1#32 ∧
      b.mode.exnw.get m = b.mode.exnwDisabled ∧
      ∀ i, m.getLsbD i = true → ∃ f ∈ [b.mode.read, b.mode.write, b.mode.dbw, b.mode.tdf, b.mode.exnw],
        f.lo ≤ i ∧ i < f.lo + f.width

/-- 70_reset_and_hazards.md R237, 10_state.md R51, 95_test_vectors.md P1: the boot sequence establishes the clean
entry, whatever the registers and flags held. The order of the routines and the drained read are the spec's own
choice (R237), the schedule is the fair continuation (notes/assumptions/7.md). -/
def Obligations.BootSequenceReachesTheCleanEntry : Prop :=
  ∀ (s : State) (busWidth pageSize spareSize v : Word) (readSpare writeSpare : Bool),
    s.par.layout.Wf → s.par.behaviour.Wf s.par.layout → s.unmarked = true → s.blk.phase = .idle → s.agenda = [] →
    s.par.board.nandCs < s.par.board.nCs → s.host.outcome = none → s.host.ops = [] →
    s.host.calls = [.configureNandTiming busWidth, .resetSequencer,
      .configureSequencer pageSize spareSize readSpare writeSpare, .access (readTxn (.reg s.par.layout.offSr))] →
    (readSpare && writeSpare) = false → cfgword s.par pageSize spareSize readSpare writeSpare = some v →
    ∃ k t, s.after k = .next t ∧ t.returned = true ∧ CleanEntry t ∧ t.blk.cfg = v ∧ t.blk.ctrl = 0#32 ∧
      t.blk.addr0 = s.blk.addr0 ∧ t.blk.trace = s.blk.trace
end

