-- ==== Sys2Proof/Laws/Bits.lean ====
section
/-! SUPPORT. What reading and writing a field do, bit by bit. -/

namespace Sys2Proof

theorem getLsbD_lowMask (n i : Nat) : (lowMask n).getLsbD i = (decide (i < n) && decide (i < 32)) := by
  unfold lowMask
  rw [BitVec.getLsbD_ofNat, Nat.testBit_two_pow_sub_one, Bool.and_comm]

theorem Field.getLsbD_mask (f : Field) (i : Nat) :
    f.mask.getLsbD i = (decide (f.lo ≤ i) && decide (i < f.lo + f.width) && decide (i < 32)) := by
  unfold Field.mask
  rw [BitVec.getLsbD_shiftLeft, getLsbD_lowMask, Bool.eq_iff_iff]
  simp only [Bool.and_eq_true, Bool.not_eq_true', decide_eq_true_eq, decide_eq_false_iff_not]
  omega

theorem Field.getLsbD_get (f : Field) (w : Word) (i : Nat) :
    (f.get w).getLsbD i = (decide (i < f.width) && w.getLsbD (f.lo + i)) := by
  unfold Field.get
  rw [BitVec.getLsbD_and, BitVec.getLsbD_ushiftRight, getLsbD_lowMask]
  by_cases h : i < 32
  · simp [h, Bool.and_comm]
  · simp [h, BitVec.getLsbD_of_ge w (f.lo + i) (by omega)]

/-- What `set` leaves at each bit: the value inside the field, the old word outside it. -/
theorem Field.getLsbD_set (f : Field) (w v : Word) (i : Nat) :
    (f.set w v).getLsbD i =
      if f.lo ≤ i ∧ i < f.lo + f.width ∧ i < 32 then v.getLsbD (i - f.lo) else w.getLsbD i := by
  unfold Field.set
  rw [BitVec.getLsbD_or, BitVec.getLsbD_and, BitVec.getLsbD_not, Field.getLsbD_mask, BitVec.getLsbD_shiftLeft,
    BitVec.getLsbD_and, getLsbD_lowMask]
  by_cases h32 : i < 32
  · by_cases hlo : f.lo ≤ i
    · by_cases hhi : i < f.lo + f.width
      · have h1 : i - f.lo < f.width := by omega
        have h2 : i - f.lo < 32 := by omega
        have h3 : ¬ i < f.lo := by omega
        simp [h32, hlo, hhi, h1, h2, h3]
      · have h1 : ¬ i - f.lo < f.width := by omega
        simp [h32, hlo, hhi, h1]
    · have h3 : i < f.lo := by omega
      simp [h32, hlo, h3]
  · simp [h32, BitVec.getLsbD_of_ge w i (by omega)]

theorem getLsbD_and_not (w m : Word) (i : Nat) : (w &&& ~~~ m).getLsbD i = (w.getLsbD i && !m.getLsbD i) := by
  rw [BitVec.getLsbD_and, BitVec.getLsbD_not]
  by_cases h : i < 32
  · rw [decide_eq_true h, Bool.true_and]
  · rw [BitVec.getLsbD_of_ge w i (by omega), Bool.false_and, Bool.false_and]

/-- A word has no one outside a mask exactly when each of its ones is one of the mask's. -/
theorem and_not_eq_zero_iff (w m : Word) :
    w &&& ~~~ m = 0#32 ↔ ∀ i, i < 32 → w.getLsbD i = true → m.getLsbD i = true := by
  constructor
  · intro h i _ hw
    have := congrArg (fun x : Word => x.getLsbD i) h
    simp only [getLsbD_and_not, hw, Bool.true_and, BitVec.getLsbD_zero] at this
    simpa using this
  · intro h
    apply BitVec.eq_of_getLsbD_eq
    intro i hi
    rw [getLsbD_and_not, BitVec.getLsbD_zero]
    cases hw : w.getLsbD i
    · rfl
    · rw [h i hi hw]
      rfl

theorem Field.fits_iff (f : Field) (v : Word) : f.fits v = true ↔ ∀ i, f.width ≤ i → v.getLsbD i = false := by
  unfold Field.fits
  rw [beq_iff_eq, and_not_eq_zero_iff]
  constructor
  · intro h i hi
    by_cases h32 : i < 32
    · by_contra hv
      have := h i h32 (by simpa using hv)
      rw [getLsbD_lowMask, decide_eq_false (by omega : ¬ i < f.width)] at this
      simp at this
    · exact BitVec.getLsbD_of_ge v i (by omega)
  · intro h i hi hv
    by_cases hw : i < f.width
    · rw [getLsbD_lowMask, decide_eq_true hw, decide_eq_true hi, Bool.and_self]
    · rw [h i (by omega)] at hv
      cases hv

/-- Reading back a field just written. -/
theorem Field.get_set_self (f : Field) (w v : Word) (hin : f.lo + f.width ≤ 32) (hv : f.fits v = true) :
    f.get (f.set w v) = v := by
  apply BitVec.eq_of_getLsbD_eq
  intro i _
  rw [Field.getLsbD_get, Field.getLsbD_set]
  by_cases hw : i < f.width
  · have h : f.lo ≤ f.lo + i ∧ f.lo + i < f.lo + f.width ∧ f.lo + i < 32 := by omega
    rw [if_pos h, Nat.add_sub_cancel_left]
    simp [hw]
  · rw [(f.fits_iff v).1 hv i (by omega)]
    simp [hw]

/-- A field is not touched by a write to a field disjoint from it. -/
theorem Field.get_set_other (f g : Field) (w v : Word) (h : Field.Disjoint f g) : f.get (g.set w v) = f.get w := by
  apply BitVec.eq_of_getLsbD_eq
  intro i _
  rw [Field.getLsbD_get, Field.getLsbD_get, Field.getLsbD_set]
  by_cases hw : i < f.width
  · rcases h with h | h
    · rw [if_neg (by omega)]
    · rw [if_neg (by omega)]
  · simp [hw]

theorem Field.bit_set_other (f g : Field) (w v : Word) (h : Field.Disjoint f g) (hf : f.width = 1) :
    f.bit (g.set w v) = f.bit w := by
  unfold Field.bit
  rw [Field.getLsbD_set]
  rcases h with h | h
  · rw [if_neg (by omega)]
  · rw [if_neg (by omega)]

/-- A flag just written reads back. -/
theorem Field.bit_setBit_self (f : Field) (w : Word) (b : Bool) (hf : f.width = 1) (hin : f.lo + f.width ≤ 32) :
    f.bit (f.setBit w b) = b := by
  unfold Field.bit Field.setBit
  rw [Field.getLsbD_set, if_pos (by omega)]
  cases b <;> simp

theorem Field.bit_setBit_other (f g : Field) (w : Word) (b : Bool) (h : Field.Disjoint f g) (hf : f.width = 1) :
    f.bit (g.setBit w b) = f.bit w :=
  f.bit_set_other g w _ h hf

theorem Field.get_setBit_other (f g : Field) (w : Word) (b : Bool) (h : Field.Disjoint f g) :
    f.get (g.setBit w b) = f.get w :=
  f.get_set_other g w _ h

/-- Bit `i` of a word with flag `f` written. -/
theorem Field.getLsbD_setBit (f : Field) (w : Word) (b : Bool) (i : Nat) (hf : f.width = 1) (hin : f.lo + f.width ≤ 32) :
    (f.setBit w b).getLsbD i = if i = f.lo then b else w.getLsbD i := by
  unfold Field.setBit
  rw [Field.getLsbD_set]
  by_cases h : i = f.lo
  · subst h
    rw [if_pos (by omega), if_pos rfl]
    cases b <;> simp
  · rw [if_neg (by omega), if_neg h]

theorem Field.Disjoint.symm {f g : Field} (h : Field.Disjoint f g) : Field.Disjoint g f := Or.symm h

/-- A bit of the ones of a list of fields is a bit of one of them. -/
theorem getLsbD_maskOf (fs : List Field) (i : Nat) : (maskOf fs).getLsbD i = fs.any fun f => f.mask.getLsbD i := by
  induction fs with
  | nil => simp [maskOf]
  | cons f fs ih =>
    have h : maskOf (f :: fs) = f.mask ||| maskOf fs := rfl
    rw [h, BitVec.getLsbD_or, ih, List.any_cons]

/-- A command word has ones only in bits `CMD_WINDOW_BITS`-1:2 (30_encoding.md R83). -/
theorem Layout.cmdBitsOk_iff (L : Layout) (w : Word) :
    L.cmdBitsOk w = true ↔ ∀ i, i < 32 → w.getLsbD i = true → 2 ≤ i ∧ i < L.cmdWindowBits := by
  unfold Layout.cmdBitsOk Layout.cmdAllowed
  have h3 : ∀ i, (3#32).getLsbD i = decide (i < 2) := by
    intro i
    have : (3#32 : Word) = lowMask 2 := rfl
    rw [this, getLsbD_lowMask, Bool.eq_iff_iff]
    simp only [Bool.and_eq_true, decide_eq_true_eq]
    omega
  rw [beq_iff_eq, and_not_eq_zero_iff]
  refine forall_congr' fun i => forall_congr' fun hi => forall_congr' fun _ => ?_
  rw [getLsbD_and_not, getLsbD_lowMask, h3]
  simp only [Bool.and_eq_true, Bool.not_eq_true', decide_eq_true_eq, decide_eq_false_iff_not]
  omega

/-- A command word is word aligned: its bits 1:0 are zero (30_encoding.md R83). -/
theorem Layout.cmdBitsOk_aligned (L : Layout) (w : Word) (h : L.cmdBitsOk w = true) : w &&& 3#32 = 0#32 := by
  rw [L.cmdBitsOk_iff] at h
  apply BitVec.eq_of_getLsbD_eq
  intro i hi
  have h3 : (3#32 : Word).getLsbD i = decide (i < 2) := by
    have : (3#32 : Word) = lowMask 2 := rfl
    rw [this, getLsbD_lowMask, Bool.eq_iff_iff]
    simp only [Bool.and_eq_true, decide_eq_true_eq]
    omega
  rw [BitVec.getLsbD_and, h3, BitVec.getLsbD_zero]
  cases hw : w.getLsbD i
  · rfl
  · have h2 : ¬ i < 2 := Nat.not_lt.mpr (h i hi hw).1
    rw [decide_eq_false h2, Bool.and_false]

end Sys2Proof
end

