-- ==== Sys2Proof/Laws/Decode.lean ====
section
/-! SUPPORT. What the decoder answers: only well-formed instructions (`decode_wf`), and how it takes apart each
window. -/

namespace Sys2Proof

theorem decode_eq (L : Layout) (t : Target) (d : Dir) :
    decode L ⟨t, d, 4⟩ =
      match t with
      | .cs index r => decodeCs index r d
      | .csGap _ => .error .unlisted
      | .reg offset => if offset &&& 3#32 ≠ 0#32 then .error .misaligned else decodeReg L offset d
      | .cmd offset => decodeCmd L offset d := by
  cases t <;> simp [decode]

theorem commandOf_wf (L : Layout) (w a : Word) (h : L.cmdBitsOk w = true) (i : Instr)
    (hi : commandOf (L.acycle w) w a = .ok i) : i.wf L = true := by
  unfold commandOf at hi
  split at hi <;> cases hi <;> simp_all [Instr.wf, Layout.isCommand]

theorem decodeReg_wf (L : Layout) (offset : Word) (d : Dir) (i : Instr) (hi : decodeReg L offset d = .ok i) :
    i.wf L = true := by
  cases d with
  | read =>
    simp only [decodeReg] at hi
    split at hi
    · cases hi; rfl
    split at hi
    · cases hi; rfl
    split at hi
    · cases hi; rfl
    split at hi <;> cases hi
  | write v =>
    simp only [decodeReg] at hi
    split at hi
    · cases hi; rfl
    split at hi
    · cases hi; rfl
    split at hi
    · cases hi; rfl
    split at hi
    · cases hi; rfl
    split at hi <;> cases hi

/-- The decoder answers only well-formed instructions. -/
theorem decode_wf (L : Layout) (x : Txn) (i : Instr) (hi : decode L x = .ok i) : i.wf L = true := by
  unfold decode at hi
  split at hi
  · cases hi
  · split at hi
    · rename_i index r _
      cases hd : x.dir <;> rw [hd] at hi <;> cases r <;> simp [decodeCs] at hi <;> subst hi <;> rfl
    · cases hi
    · split at hi
      · cases hi
      · exact decodeReg_wf L _ _ i hi
    · unfold decodeCmd at hi
      split at hi
      · split at hi
        · rename_i h
          cases hi
          exact h
        · cases hi
      · split at hi
        · rename_i h
          exact commandOf_wf L _ _ h i hi
        · cases hi

/-- The register offsets of a well-formed layout are pairwise distinct, pair by pair (00_scope.md R16). -/
theorem Layout.Wf.offsets {L : Layout} (h : L.Wf) :
    L.offCfg ≠ L.offCtrl ∧ L.offCfg ≠ L.offSr ∧ L.offCfg ≠ L.offIdr ∧ L.offCfg ≠ L.offAddr ∧ L.offCfg ≠ L.offEccsr ∧
      L.offCtrl ≠ L.offSr ∧ L.offCtrl ≠ L.offIdr ∧ L.offCtrl ≠ L.offAddr ∧ L.offCtrl ≠ L.offEccsr ∧
      L.offSr ≠ L.offIdr ∧ L.offSr ≠ L.offAddr ∧ L.offSr ≠ L.offEccsr ∧
      L.offIdr ≠ L.offAddr ∧ L.offIdr ≠ L.offEccsr ∧ L.offAddr ≠ L.offEccsr := by
  have := h.offsetsDistinct
  simp only [Layout.regOffsets, List.nodup_cons, List.mem_cons, List.not_mem_nil, or_false, not_or] at this
  tauto

/-- The register offsets of a well-formed layout are word aligned (00_scope.md R16). -/
theorem Layout.Wf.aligned {L : Layout} (h : L.Wf) (o : Word) (ho : o ∈ L.regOffsets) : o &&& 3#32 = 0#32 :=
  h.offsetsAligned o ho

/-- A read of the status register is decoded as one (30_encoding.md R81). -/
theorem decode_readSr {L : Layout} (h : L.Wf) : decode L (readTxn (.reg L.offSr)) = .ok .srR := by
  obtain ⟨_, h2, _⟩ := h.offsets
  simp [readTxn, decode_eq, decodeReg, h.aligned L.offSr (by simp [Layout.regOffsets]), h2.symm]

/-- A read of the engine's status register is decoded as one (30_encoding.md R81). -/
theorem decode_readEccsr {L : Layout} (h : L.Wf) : decode L (readTxn (.reg L.offEccsr)) = .ok .eccsrR := by
  have ho := h.offsets
  simp [readTxn, decode_eq, decodeReg, h.aligned L.offEccsr (by simp [Layout.regOffsets]), Ne.symm ho.2.2.2.2.1,
    Ne.symm ho.2.2.2.2.2.2.2.2.2.2.2.1]

/-- A read of the configuration register is decoded as one (30_encoding.md R81). -/
theorem decode_readCfg {L : Layout} (h : L.Wf) : decode L (readTxn (.reg L.offCfg)) = .ok .cfgR := by
  simp [readTxn, decode_eq, decodeReg, h.aligned L.offCfg (by simp [Layout.regOffsets])]

/-- A write of the configuration register is decoded as one (30_encoding.md R81). -/
theorem decode_writeCfg {L : Layout} (h : L.Wf) (v : Word) :
    decode L (writeTxn (.reg L.offCfg) v) = .ok (.cfgW v) := by
  simp [writeTxn, decode_eq, decodeReg, h.aligned L.offCfg (by simp [Layout.regOffsets])]

/-- A write of the control register is decoded as one (30_encoding.md R81). -/
theorem decode_writeCtrl {L : Layout} (h : L.Wf) (v : Word) :
    decode L (writeTxn (.reg L.offCtrl) v) = .ok (.ctrlW v) := by
  simp [writeTxn, decode_eq, decodeReg, h.aligned L.offCtrl (by simp [Layout.regOffsets]), Ne.symm h.offsets.1]

/-- A write of the interrupt-disable register is decoded as one (30_encoding.md R81). -/
theorem decode_writeIdr {L : Layout} (h : L.Wf) (v : Word) :
    decode L (writeTxn (.reg L.offIdr) v) = .ok (.idrW v) := by
  have ho := h.offsets
  simp [writeTxn, decode_eq, decodeReg, h.aligned L.offIdr (by simp [Layout.regOffsets]), Ne.symm ho.2.2.1,
    Ne.symm ho.2.2.2.2.2.2.1]

/-- A write of the extra-address register is decoded as one (30_encoding.md R81). -/
theorem decode_writeAddr {L : Layout} (h : L.Wf) (v : Word) :
    decode L (writeTxn (.reg L.offAddr) v) = .ok (.addrW v) := by
  have ho := h.offsets
  simp [writeTxn, decode_eq, decodeReg, h.aligned L.offAddr (by simp [Layout.regOffsets]), Ne.symm ho.2.2.2.1,
    Ne.symm ho.2.2.2.2.2.2.2.1, Ne.symm ho.2.2.2.2.2.2.2.2.2.2.2.2.1]

/-- A command word is decoded by its cycle count (30_encoding.md R87). -/
theorem decode_writeCmd (L : Layout) (w a : Word) (h : L.cmdBitsOk w = true) :
    decode L (writeTxn (.cmd w) a) = commandOf (L.acycle w) w a := by
  simp [writeTxn, decode_eq, decodeCmd, h]

/-- A write of a chip-select register is decoded by its register (40_bus_timing.md R111). -/
theorem decode_writeCs (L : Layout) (cs : Nat) (r : CsReg) (v : Word) :
    decode L (writeTxn (.cs cs r) v) = decodeCs cs r (.write v) := by
  simp [writeTxn, decode_eq]

/-- The poll of the host status word is decoded as one (30_encoding.md R82). -/
theorem decode_readHstat {L : Layout} (h : L.Wf) :
    decode L (readTxn (.cmd (L.offHstat.getD 0#32))) = .ok (.hstatR (L.offHstat.getD 0#32)) := by
  have hz : L.hstatAt (L.offHstat.getD 0#32) = true := by
    unfold Layout.hstatAt
    cases ho : L.offHstat with
    | none => simp [Layout.cmdBitsOk]
    | some o => simp [h.hstatOffset o ho]
  simp [readTxn, decode_eq, decodeCmd, hz]

end Sys2Proof
end

