-- ==== Sys2Proof/Laws/Flags.lean ====
section
/-! SUPPORT. What the status words hold, bit by bit, under a well-formed layout. -/

namespace Sys2Proof.Machine

/-- Every flag stands at its bit of the status word, and the drawn word in every other bit (43_status_poller.md
R170). -/
theorem statusWord_bits {L : Layout} (hL : L.Wf) (b : Block) (junk : Word) :
    L.srRbRise.bit (statusWord L b junk) = b.rbRise ∧ L.srRbFall.bit (statusWord L b junk) = b.rbFall ∧
      L.srSeqBusy.bit (statusWord L b junk) = b.busy ∧ L.srXfrDone.bit (statusWord L b junk) = b.xfrDone ∧
      L.srCmdDone.bit (statusWord L b junk) = b.cmdDone ∧ L.srRbEdge0.bit (statusWord L b junk) = b.rbEdge0 ∧
      ∀ i, (∀ f ∈ L.srFields, i ≠ f.lo) → (statusWord L b junk).getLsbD i = junk.getLsbD i := by
  have hp := hL.srDisjoint
  have hi := hL.srInside
  have hf := hL.flagsOneBit
  simp only [Layout.srFields, Layout.eventFields, List.pairwise_cons, List.mem_cons, List.not_mem_nil, or_false,
    forall_eq_or_imp, forall_eq, List.Pairwise.nil, and_true] at hp hi
  simp only [Layout.flagFields, List.mem_cons, List.not_mem_nil, or_false, forall_eq_or_imp, forall_eq] at hf
  obtain ⟨_, _, _, f1, f2, f3, f4, f5, f6, _⟩ := hf
  obtain ⟨i3, i1, i2, i4, i5, i6⟩ := hi
  obtain ⟨⟨p11, p12, p13, p14, p15⟩, ⟨p21, p22, p23, p24⟩, ⟨p31, p32, p33⟩, ⟨p41, p42⟩, p51, -⟩ := hp
  unfold statusWord
  refine ⟨?_, ?_, ?_, ?_, ?_, ?_, ?_⟩
  · rw [Field.bit_setBit_other _ _ _ _ p24 f1, Field.bit_setBit_other _ _ _ _ p23 f1,
      Field.bit_setBit_other _ _ _ _ p22 f1, Field.bit_setBit_other _ _ _ _ p11.symm f1,
      Field.bit_setBit_other _ _ _ _ p21 f1, Field.bit_setBit_self _ _ _ f1 i1]
  · rw [Field.bit_setBit_other _ _ _ _ p33 f2, Field.bit_setBit_other _ _ _ _ p32 f2,
      Field.bit_setBit_other _ _ _ _ p31 f2, Field.bit_setBit_other _ _ _ _ p12.symm f2,
      Field.bit_setBit_self _ _ _ f2 i2]
  · rw [Field.bit_setBit_other _ _ _ _ p15 f3, Field.bit_setBit_other _ _ _ _ p14 f3,
      Field.bit_setBit_other _ _ _ _ p13 f3, Field.bit_setBit_self _ _ _ f3 i3]
    rfl
  · rw [Field.bit_setBit_other _ _ _ _ p42 f4, Field.bit_setBit_other _ _ _ _ p41 f4,
      Field.bit_setBit_self _ _ _ f4 i4]
  · rw [Field.bit_setBit_other _ _ _ _ p51 f5, Field.bit_setBit_self _ _ _ f5 i5]
  · rw [Field.bit_setBit_self _ _ _ f6 i6]
  · intro i h
    simp only [Layout.srFields, Layout.eventFields, List.mem_cons, List.not_mem_nil, or_false, forall_eq_or_imp,
      forall_eq] at h
    obtain ⟨h3, h1, h2, h4, h5, h6⟩ := h
    rw [Field.getLsbD_setBit _ _ _ _ f6 i6, if_neg h6, Field.getLsbD_setBit _ _ _ _ f5 i5, if_neg h5,
      Field.getLsbD_setBit _ _ _ _ f4 i4, if_neg h4, Field.getLsbD_setBit _ _ _ _ f3 i3, if_neg h3,
      Field.getLsbD_setBit _ _ _ _ f2 i2, if_neg h2, Field.getLsbD_setBit _ _ _ _ f1 i1, if_neg h1]

/-- The host status word: `host_busy` at its bit, the drawn word elsewhere (43_status_poller.md R171). -/
theorem hostStatusWord_bits {L : Layout} (hL : L.Wf) (b : Block) (junk : Word) :
    L.hstatBusy.bit (hostStatusWord L b junk) = b.busy ∧
      ∀ i, i ≠ L.hstatBusy.lo → (hostStatusWord L b junk).getLsbD i = junk.getLsbD i := by
  have hf := hL.flagsOneBit L.hstatBusy (by simp [Layout.flagFields])
  refine ⟨Field.bit_setBit_self _ _ _ hf hL.hstatInside, fun i h => ?_⟩
  rw [hostStatusWord, Field.getLsbD_setBit _ _ _ _ hf hL.hstatInside, if_neg h]

/-- The engine's status word: `ecc_busy` at its bit, the drawn word elsewhere (43_status_poller.md R172). -/
theorem eccStatusWord_bits {L : Layout} (hL : L.Wf) (b : Block) (junk : Word) :
    L.eccsrBusy.bit (eccStatusWord L b junk) = b.eccBusy ∧
      ∀ i, i ≠ L.eccsrBusy.lo → (eccStatusWord L b junk).getLsbD i = junk.getLsbD i := by
  have hf := hL.flagsOneBit L.eccsrBusy (by simp [Layout.flagFields])
  refine ⟨Field.bit_setBit_self _ _ _ hf hL.eccsrInside, fun i h => ?_⟩
  rw [eccStatusWord, Field.getLsbD_setBit _ _ _ _ hf hL.eccsrInside, if_neg h]

end Sys2Proof.Machine
end

