-- ==== Sys2Proof/Laws/Operands.lean ====
section
/-! SUPPORT. What the operand forms do, bit by bit: lanes of the packed address word. -/

namespace Sys2Proof.Machine

theorem ushiftRight_eq_zero_iff (a : Word) (k : Nat) : a >>> k = 0#32 ↔ ∀ i, k ≤ i → a.getLsbD i = false := by
  constructor
  · intro h i hi
    have := congrArg (fun x : Word => x.getLsbD (i - k)) h
    simp only [BitVec.getLsbD_ushiftRight, BitVec.getLsbD_zero, Nat.add_sub_cancel' hi] at this
    exact this
  · intro h
    apply BitVec.eq_of_getLsbD_eq
    intro i _
    simp [h (k + i) (by omega)]

theorem getLsbD_laneByte (k : Nat) (a : Word) (i : Nat) :
    (laneByte k a).getLsbD i = (decide (i < 8) && a.getLsbD (8 * k + i)) := by
  simp [laneByte]

theorem getLsbD_lane (k : Nat) (x : Byte) (i : Nat) :
    (lane k x).getLsbD i = (decide (i < 32) && (decide (8 * k ≤ i) && x.getLsbD (i - 8 * k))) := by
  simp only [lane, BitVec.getLsbD_shiftLeft, BitVec.getLsbD_setWidth]
  by_cases h : i < 32 <;> by_cases h2 : 8 * k ≤ i
  · have h3 : ¬ i < 8 * k := by omega
    have h4 : i - 8 * k < 32 := by omega
    simp [h, h2, h3, h4]
  · have h3 : i < 8 * k := by omega
    simp [h2, h3]
  · simp [h]
  · simp [h]

/-- The bytes of a word packed lane by lane (20_memory.md R65). -/
theorem laneByte_lanes (b0 b1 b2 b3 : Byte) :
    laneByte 0 (lane 0 b0 ||| lane 1 b1 ||| lane 2 b2 ||| lane 3 b3) = b0 ∧
      laneByte 1 (lane 0 b0 ||| lane 1 b1 ||| lane 2 b2 ||| lane 3 b3) = b1 ∧
      laneByte 2 (lane 0 b0 ||| lane 1 b1 ||| lane 2 b2 ||| lane 3 b3) = b2 ∧
      laneByte 3 (lane 0 b0 ||| lane 1 b1 ||| lane 2 b2 ||| lane 3 b3) = b3 := by
  refine ⟨?_, ?_, ?_, ?_⟩ <;> (apply BitVec.eq_of_getLsbD_eq; intro i hi)
  all_goals
    simp only [getLsbD_laneByte, BitVec.getLsbD_or, getLsbD_lane, hi]
    interval_cases i <;> simp

/-- A word is its four lanes. -/
theorem lanes_laneByte (a : Word) :
    lane 0 (laneByte 0 a) ||| lane 1 (laneByte 1 a) ||| lane 2 (laneByte 2 a) ||| lane 3 (laneByte 3 a) = a := by
  apply BitVec.eq_of_getLsbD_eq
  intro i hi
  simp only [BitVec.getLsbD_or, getLsbD_lane, getLsbD_laneByte]
  interval_cases i <;> simp

theorem lane_zero (k : Nat) : lane k 0#8 = 0#32 := by
  simp [lane]

@[simp] theorem received_nil (L : Layout) (cs : Nat) : received L cs [] = [] := rfl

@[simp] theorem received_append (L : Layout) (cs : Nat) (a b : List Event) :
    received L cs (a ++ b) = received L cs a ++ received L cs b := List.flatMap_append

@[simp] theorem received_singleton (L : Layout) (cs : Nat) (e : Event) : received L cs [e] = e.busOn L cs := by
  simp [received]

@[simp] theorem Event.busOn_dispatched (L : Layout) (cs : Nat) (w : Word) (bytes : List Byte) :
    Event.busOn L cs (.dispatched w bytes) = if chipSelect L w = cs then bus L w bytes else [] := rfl

@[simp] theorem Event.busOn_dataDone (L : Layout) (cs : Nat) (w : Word) : Event.busOn L cs (.dataDone w) = [] := rfl

/-- A lane with no bit set is zero. -/
theorem laneByte_eq_zero (k : Nat) (a : Word) (h : ∀ i, 8 * k ≤ i → a.getLsbD i = false) : laneByte k a = 0#8 := by
  apply BitVec.eq_of_getLsbD_eq
  intro i _
  simp [getLsbD_laneByte, h (8 * k + i) (by omega)]

end Sys2Proof.Machine
end

