-- ==== Sys2Proof/Laws/State.lean ====
section
/-! SUPPORT. One lemma per field per update, each true by unfolding: no later proof unfolds a record update. -/

namespace Sys2Proof.Machine

@[simp] theorem State.raise_par (r : FaultReason) (s : State) : (s.raise r).par = s.par := rfl
@[simp] theorem State.raise_blk (r : FaultReason) (s : State) : (s.raise r).blk = { s.blk with fault := s.blk.fault.add r } := rfl
@[simp] theorem State.raise_t (r : FaultReason) (s : State) : (s.raise r).t = s.t := rfl
@[simp] theorem State.raise_host (r : FaultReason) (s : State) : (s.raise r).host = s.host := rfl
@[simp] theorem State.raise_agenda (r : FaultReason) (s : State) : (s.raise r).agenda = s.agenda := rfl
@[simp] theorem State.raise_draws (r : FaultReason) (s : State) : (s.raise r).draws = s.draws := rfl

@[simp] theorem State.mark_par (r : Refusal) (s : State) : (s.mark r).par = s.par := rfl
@[simp] theorem State.mark_blk (r : Refusal) (s : State) : (s.mark r).blk = { s.blk with refused := some r } := rfl
@[simp] theorem State.mark_t (r : Refusal) (s : State) : (s.mark r).t = s.t := rfl
@[simp] theorem State.mark_host (r : Refusal) (s : State) : (s.mark r).host = s.host := rfl
@[simp] theorem State.mark_agenda (r : Refusal) (s : State) : (s.mark r).agenda = s.agenda := rfl
@[simp] theorem State.mark_draws (r : Refusal) (s : State) : (s.mark r).draws = s.draws := rfl

@[simp] theorem State.answer_par (w : Word) (s : State) : (s.answer w).par = s.par := rfl
@[simp] theorem State.answer_blk (w : Word) (s : State) : (s.answer w).blk = s.blk := rfl
@[simp] theorem State.answer_t (w : Word) (s : State) : (s.answer w).t = s.t := rfl
@[simp] theorem State.answer_host (w : Word) (s : State) : (s.answer w).host = { s.host with rdata := w } := rfl
@[simp] theorem State.answer_agenda (w : Word) (s : State) : (s.answer w).agenda = s.agenda := rfl
@[simp] theorem State.answer_draws (w : Word) (s : State) : (s.answer w).draws = s.draws := rfl

@[simp] theorem State.drew_par (k : Nat) (s : State) : (s.drew k).par = s.par := rfl
@[simp] theorem State.drew_blk (k : Nat) (s : State) : (s.drew k).blk = s.blk := rfl
@[simp] theorem State.drew_t (k : Nat) (s : State) : (s.drew k).t = s.t := rfl
@[simp] theorem State.drew_host (k : Nat) (s : State) : (s.drew k).host = s.host := rfl
@[simp] theorem State.drew_agenda (k : Nat) (s : State) : (s.drew k).agenda = s.agenda := rfl
@[simp] theorem State.drew_draws (k : Nat) (s : State) : (s.drew k).draws = s.draws + k := rfl

@[simp] theorem State.haltHost_par (o : HostOutcome) (s : State) : (s.haltHost o).par = s.par := rfl
@[simp] theorem State.haltHost_blk (o : HostOutcome) (s : State) : (s.haltHost o).blk = s.blk := rfl
@[simp] theorem State.haltHost_t (o : HostOutcome) (s : State) : (s.haltHost o).t = s.t := rfl
@[simp] theorem State.haltHost_host (o : HostOutcome) (s : State) : (s.haltHost o).host = { s.host with ops := [], outcome := some o } := rfl
@[simp] theorem State.haltHost_agenda (o : HostOutcome) (s : State) : (s.haltHost o).agenda = s.agenda := rfl
@[simp] theorem State.haltHost_draws (o : HostOutcome) (s : State) : (s.haltHost o).draws = s.draws := rfl

@[simp] theorem State.updateCs_par (cs : Nat) (f : CsRegs → CsRegs) (s : State) : (s.updateCs cs f).par = s.par := rfl
@[simp] theorem State.updateCs_blk (cs : Nat) (f : CsRegs → CsRegs) (s : State) : (s.updateCs cs f).blk = s.blk := rfl
@[simp] theorem State.updateCs_t (cs : Nat) (f : CsRegs → CsRegs) (s : State) : (s.updateCs cs f).t = s.t.modify cs f := rfl
@[simp] theorem State.updateCs_host (cs : Nat) (f : CsRegs → CsRegs) (s : State) : (s.updateCs cs f).host = s.host := rfl
@[simp] theorem State.updateCs_agenda (cs : Nat) (f : CsRegs → CsRegs) (s : State) : (s.updateCs cs f).agenda = s.agenda := rfl
@[simp] theorem State.updateCs_draws (cs : Nat) (f : CsRegs → CsRegs) (s : State) : (s.updateCs cs f).draws = s.draws := rfl

@[simp] theorem State.push_par (l : List HostOp) (s : State) : (s.push l).par = s.par := rfl
@[simp] theorem State.push_blk (l : List HostOp) (s : State) : (s.push l).blk = s.blk := rfl
@[simp] theorem State.push_t (l : List HostOp) (s : State) : (s.push l).t = s.t := rfl
@[simp] theorem State.push_host (l : List HostOp) (s : State) : (s.push l).host = { s.host with ops := l ++ s.host.ops } := rfl
@[simp] theorem State.push_agenda (l : List HostOp) (s : State) : (s.push l).agenda = s.agenda := rfl
@[simp] theorem State.push_draws (l : List HostOp) (s : State) : (s.push l).draws = s.draws := rfl

@[simp] theorem State.setOps_par (l : List HostOp) (s : State) : (s.setOps l).par = s.par := rfl
@[simp] theorem State.setOps_blk (l : List HostOp) (s : State) : (s.setOps l).blk = s.blk := rfl
@[simp] theorem State.setOps_t (l : List HostOp) (s : State) : (s.setOps l).t = s.t := rfl
@[simp] theorem State.setOps_host (l : List HostOp) (s : State) : (s.setOps l).host = { s.host with ops := l } := rfl
@[simp] theorem State.setOps_agenda (l : List HostOp) (s : State) : (s.setOps l).agenda = s.agenda := rfl
@[simp] theorem State.setOps_draws (l : List HostOp) (s : State) : (s.setOps l).draws = s.draws := rfl

@[simp] theorem State.setCalls_par (l : List Call) (s : State) : (s.setCalls l).par = s.par := rfl
@[simp] theorem State.setCalls_blk (l : List Call) (s : State) : (s.setCalls l).blk = s.blk := rfl
@[simp] theorem State.setCalls_t (l : List Call) (s : State) : (s.setCalls l).t = s.t := rfl
@[simp] theorem State.setCalls_host (l : List Call) (s : State) : (s.setCalls l).host = { s.host with calls := l } := rfl
@[simp] theorem State.setCalls_agenda (l : List Call) (s : State) : (s.setCalls l).agenda = s.agenda := rfl
@[simp] theorem State.setCalls_draws (l : List Call) (s : State) : (s.setCalls l).draws = s.draws := rfl

@[simp] theorem State.dropTurn_par (s : State) : (s.dropTurn).par = s.par := rfl
@[simp] theorem State.dropTurn_blk (s : State) : (s.dropTurn).blk = s.blk := rfl
@[simp] theorem State.dropTurn_t (s : State) : (s.dropTurn).t = s.t := rfl
@[simp] theorem State.dropTurn_host (s : State) : (s.dropTurn).host = s.host := rfl
@[simp] theorem State.dropTurn_agenda (s : State) : (s.dropTurn).agenda = s.agenda.tail := rfl
@[simp] theorem State.dropTurn_draws (s : State) : (s.dropTurn).draws = s.draws := rfl

@[simp] theorem envEcc_par (b : Bool) (s : State) : (envEcc b s).par = s.par := rfl
@[simp] theorem envEcc_blk (b : Bool) (s : State) : (envEcc b s).blk = { s.blk with eccBusy := b } := rfl
@[simp] theorem envEcc_t (b : Bool) (s : State) : (envEcc b s).t = s.t := rfl
@[simp] theorem envEcc_host (b : Bool) (s : State) : (envEcc b s).host = s.host := rfl
@[simp] theorem envEcc_agenda (b : Bool) (s : State) : (envEcc b s).agenda = s.agenda := rfl
@[simp] theorem envEcc_draws (b : Bool) (s : State) : (envEcc b s).draws = s.draws := rfl

@[simp] theorem State.enablePeripheral_par (id : Nat) (s : State) : (s.enablePeripheral id).par = s.par := by
  unfold State.enablePeripheral
  split <;> rfl

@[simp] theorem State.enablePeripheral_t (id : Nat) (s : State) : (s.enablePeripheral id).t = s.t := by
  unfold State.enablePeripheral
  split <;> rfl

@[simp] theorem State.enablePeripheral_host (id : Nat) (s : State) : (s.enablePeripheral id).host = s.host := by
  unfold State.enablePeripheral
  split <;> rfl

@[simp] theorem State.enablePeripheral_agenda (id : Nat) (s : State) : (s.enablePeripheral id).agenda = s.agenda := by
  unfold State.enablePeripheral
  split <;> rfl

@[simp] theorem State.enablePeripheral_draws (id : Nat) (s : State) : (s.enablePeripheral id).draws = s.draws := by
  unfold State.enablePeripheral
  split <;> rfl

@[simp] theorem Block.latch_cfg (b : Block) (w a : Word) : (b.latch w a).cfg = b.cfg := rfl
@[simp] theorem Block.latch_ctrl (b : Block) (w a : Word) : (b.latch w a).ctrl = b.ctrl := rfl
@[simp] theorem Block.latch_imr (b : Block) (w a : Word) : (b.latch w a).imr = b.imr := rfl
@[simp] theorem Block.latch_addr0 (b : Block) (w a : Word) : (b.latch w a).addr0 = b.addr0 := rfl
@[simp] theorem Block.latch_cmdDone (b : Block) (w a : Word) : (b.latch w a).cmdDone = b.cmdDone := rfl
@[simp] theorem Block.latch_xfrDone (b : Block) (w a : Word) : (b.latch w a).xfrDone = b.xfrDone := rfl
@[simp] theorem Block.latch_rbFall (b : Block) (w a : Word) : (b.latch w a).rbFall = b.rbFall := rfl
@[simp] theorem Block.latch_rbRise (b : Block) (w a : Word) : (b.latch w a).rbRise = b.rbRise := rfl
@[simp] theorem Block.latch_rbEdge0 (b : Block) (w a : Word) : (b.latch w a).rbEdge0 = b.rbEdge0 := rfl
@[simp] theorem Block.latch_phase (b : Block) (w a : Word) : (b.latch w a).phase = .issue := rfl
@[simp] theorem Block.latch_curCmd (b : Block) (w a : Word) : (b.latch w a).curCmd = w := rfl
@[simp] theorem Block.latch_curAddr (b : Block) (w a : Word) : (b.latch w a).curAddr = a := rfl
@[simp] theorem Block.latch_curAddr0 (b : Block) (w a : Word) : (b.latch w a).curAddr0 = b.addr0 := rfl
@[simp] theorem Block.latch_eccBusy (b : Block) (w a : Word) : (b.latch w a).eccBusy = b.eccBusy := rfl
@[simp] theorem Block.latch_rbLevel (b : Block) (w a : Word) : (b.latch w a).rbLevel = b.rbLevel := rfl
@[simp] theorem Block.latch_clockOn (b : Block) (w a : Word) : (b.latch w a).clockOn = b.clockOn := rfl
@[simp] theorem Block.latch_trace (b : Block) (w a : Word) : (b.latch w a).trace = b.trace := rfl
@[simp] theorem Block.latch_fault (b : Block) (w a : Word) : (b.latch w a).fault = b.fault := rfl
@[simp] theorem Block.latch_refused (b : Block) (w a : Word) : (b.latch w a).refused = b.refused := rfl

@[simp] theorem Block.clearEvents_cfg (b : Block) : (b.clearEvents).cfg = b.cfg := rfl
@[simp] theorem Block.clearEvents_ctrl (b : Block) : (b.clearEvents).ctrl = b.ctrl := rfl
@[simp] theorem Block.clearEvents_imr (b : Block) : (b.clearEvents).imr = b.imr := rfl
@[simp] theorem Block.clearEvents_addr0 (b : Block) : (b.clearEvents).addr0 = b.addr0 := rfl
@[simp] theorem Block.clearEvents_cmdDone (b : Block) : (b.clearEvents).cmdDone = false := rfl
@[simp] theorem Block.clearEvents_xfrDone (b : Block) : (b.clearEvents).xfrDone = false := rfl
@[simp] theorem Block.clearEvents_rbFall (b : Block) : (b.clearEvents).rbFall = false := rfl
@[simp] theorem Block.clearEvents_rbRise (b : Block) : (b.clearEvents).rbRise = false := rfl
@[simp] theorem Block.clearEvents_rbEdge0 (b : Block) : (b.clearEvents).rbEdge0 = false := rfl
@[simp] theorem Block.clearEvents_phase (b : Block) : (b.clearEvents).phase = b.phase := rfl
@[simp] theorem Block.clearEvents_curCmd (b : Block) : (b.clearEvents).curCmd = b.curCmd := rfl
@[simp] theorem Block.clearEvents_curAddr (b : Block) : (b.clearEvents).curAddr = b.curAddr := rfl
@[simp] theorem Block.clearEvents_curAddr0 (b : Block) : (b.clearEvents).curAddr0 = b.curAddr0 := rfl
@[simp] theorem Block.clearEvents_eccBusy (b : Block) : (b.clearEvents).eccBusy = b.eccBusy := rfl
@[simp] theorem Block.clearEvents_rbLevel (b : Block) : (b.clearEvents).rbLevel = b.rbLevel := rfl
@[simp] theorem Block.clearEvents_clockOn (b : Block) : (b.clearEvents).clockOn = b.clockOn := rfl
@[simp] theorem Block.clearEvents_trace (b : Block) : (b.clearEvents).trace = b.trace := rfl
@[simp] theorem Block.clearEvents_fault (b : Block) : (b.clearEvents).fault = b.fault := rfl
@[simp] theorem Block.clearEvents_refused (b : Block) : (b.clearEvents).refused = b.refused := rfl

@[simp] theorem Block.dispatch_cfg (L : Layout) (b : Block) : (b.dispatch L).cfg = b.cfg := rfl
@[simp] theorem Block.dispatch_ctrl (L : Layout) (b : Block) : (b.dispatch L).ctrl = b.ctrl := rfl
@[simp] theorem Block.dispatch_imr (L : Layout) (b : Block) : (b.dispatch L).imr = b.imr := rfl
@[simp] theorem Block.dispatch_addr0 (L : Layout) (b : Block) : (b.dispatch L).addr0 = b.addr0 := rfl
@[simp] theorem Block.dispatch_cmdDone (L : Layout) (b : Block) : (b.dispatch L).cmdDone = true := rfl
@[simp] theorem Block.dispatch_xfrDone (L : Layout) (b : Block) : (b.dispatch L).xfrDone = b.xfrDone := rfl
@[simp] theorem Block.dispatch_rbFall (L : Layout) (b : Block) : (b.dispatch L).rbFall = b.rbFall := rfl
@[simp] theorem Block.dispatch_rbRise (L : Layout) (b : Block) : (b.dispatch L).rbRise = b.rbRise := rfl
@[simp] theorem Block.dispatch_rbEdge0 (L : Layout) (b : Block) : (b.dispatch L).rbEdge0 = b.rbEdge0 := rfl
@[simp] theorem Block.dispatch_phase (L : Layout) (b : Block) : (b.dispatch L).phase = if L.cwDataen.bit b.curCmd then .data else .idle := rfl
@[simp] theorem Block.dispatch_curCmd (L : Layout) (b : Block) : (b.dispatch L).curCmd = b.curCmd := rfl
@[simp] theorem Block.dispatch_curAddr (L : Layout) (b : Block) : (b.dispatch L).curAddr = b.curAddr := rfl
@[simp] theorem Block.dispatch_curAddr0 (L : Layout) (b : Block) : (b.dispatch L).curAddr0 = b.curAddr0 := rfl
@[simp] theorem Block.dispatch_eccBusy (L : Layout) (b : Block) : (b.dispatch L).eccBusy = b.eccBusy := rfl
@[simp] theorem Block.dispatch_rbLevel (L : Layout) (b : Block) : (b.dispatch L).rbLevel = b.rbLevel := rfl
@[simp] theorem Block.dispatch_clockOn (L : Layout) (b : Block) : (b.dispatch L).clockOn = b.clockOn := rfl
@[simp] theorem Block.dispatch_trace (L : Layout) (b : Block) : (b.dispatch L).trace = b.trace ++ [.dispatched b.curCmd (b.commandBytes L)] := rfl
@[simp] theorem Block.dispatch_fault (L : Layout) (b : Block) : (b.dispatch L).fault = b.fault := rfl
@[simp] theorem Block.dispatch_refused (L : Layout) (b : Block) : (b.dispatch L).refused = b.refused := rfl

@[simp] theorem Block.transfer_cfg (b : Block) : (b.transfer).cfg = b.cfg := rfl
@[simp] theorem Block.transfer_ctrl (b : Block) : (b.transfer).ctrl = b.ctrl := rfl
@[simp] theorem Block.transfer_imr (b : Block) : (b.transfer).imr = b.imr := rfl
@[simp] theorem Block.transfer_addr0 (b : Block) : (b.transfer).addr0 = b.addr0 := rfl
@[simp] theorem Block.transfer_cmdDone (b : Block) : (b.transfer).cmdDone = b.cmdDone := rfl
@[simp] theorem Block.transfer_xfrDone (b : Block) : (b.transfer).xfrDone = true := rfl
@[simp] theorem Block.transfer_rbFall (b : Block) : (b.transfer).rbFall = b.rbFall := rfl
@[simp] theorem Block.transfer_rbRise (b : Block) : (b.transfer).rbRise = b.rbRise := rfl
@[simp] theorem Block.transfer_rbEdge0 (b : Block) : (b.transfer).rbEdge0 = b.rbEdge0 := rfl
@[simp] theorem Block.transfer_phase (b : Block) : (b.transfer).phase = .idle := rfl
@[simp] theorem Block.transfer_curCmd (b : Block) : (b.transfer).curCmd = b.curCmd := rfl
@[simp] theorem Block.transfer_curAddr (b : Block) : (b.transfer).curAddr = b.curAddr := rfl
@[simp] theorem Block.transfer_curAddr0 (b : Block) : (b.transfer).curAddr0 = b.curAddr0 := rfl
@[simp] theorem Block.transfer_eccBusy (b : Block) : (b.transfer).eccBusy = b.eccBusy := rfl
@[simp] theorem Block.transfer_rbLevel (b : Block) : (b.transfer).rbLevel = b.rbLevel := rfl
@[simp] theorem Block.transfer_clockOn (b : Block) : (b.transfer).clockOn = b.clockOn := rfl
@[simp] theorem Block.transfer_trace (b : Block) : (b.transfer).trace = b.trace ++ [.dataDone b.curCmd] := rfl
@[simp] theorem Block.transfer_fault (b : Block) : (b.transfer).fault = b.fault := rfl
@[simp] theorem Block.transfer_refused (b : Block) : (b.transfer).refused = b.refused := rfl

@[simp] theorem Block.pinEdge_cfg (b : Block) (p : Edge) (l x y z : Bool) : (b.pinEdge p l x y z).cfg = b.cfg := rfl
@[simp] theorem Block.pinEdge_ctrl (b : Block) (p : Edge) (l x y z : Bool) : (b.pinEdge p l x y z).ctrl = b.ctrl := rfl
@[simp] theorem Block.pinEdge_imr (b : Block) (p : Edge) (l x y z : Bool) : (b.pinEdge p l x y z).imr = b.imr := rfl
@[simp] theorem Block.pinEdge_addr0 (b : Block) (p : Edge) (l x y z : Bool) : (b.pinEdge p l x y z).addr0 = b.addr0 := rfl
@[simp] theorem Block.pinEdge_cmdDone (b : Block) (p : Edge) (l x y z : Bool) : (b.pinEdge p l x y z).cmdDone = b.cmdDone := rfl
@[simp] theorem Block.pinEdge_xfrDone (b : Block) (p : Edge) (l x y z : Bool) : (b.pinEdge p l x y z).xfrDone = b.xfrDone := rfl
@[simp] theorem Block.pinEdge_rbFall (b : Block) (p : Edge) (l x y z : Bool) : (b.pinEdge p l x y z).rbFall = (b.rbFall || (!l && x)) := rfl
@[simp] theorem Block.pinEdge_rbRise (b : Block) (p : Edge) (l x y z : Bool) : (b.pinEdge p l x y z).rbRise = (b.rbRise || (l && y)) := rfl
@[simp] theorem Block.pinEdge_rbEdge0 (b : Block) (p : Edge) (l x y z : Bool) : (b.pinEdge p l x y z).rbEdge0 = (b.rbEdge0 || (isEdge0 p l && z)) := rfl
@[simp] theorem Block.pinEdge_phase (b : Block) (p : Edge) (l x y z : Bool) : (b.pinEdge p l x y z).phase = b.phase := rfl
@[simp] theorem Block.pinEdge_curCmd (b : Block) (p : Edge) (l x y z : Bool) : (b.pinEdge p l x y z).curCmd = b.curCmd := rfl
@[simp] theorem Block.pinEdge_curAddr (b : Block) (p : Edge) (l x y z : Bool) : (b.pinEdge p l x y z).curAddr = b.curAddr := rfl
@[simp] theorem Block.pinEdge_curAddr0 (b : Block) (p : Edge) (l x y z : Bool) : (b.pinEdge p l x y z).curAddr0 = b.curAddr0 := rfl
@[simp] theorem Block.pinEdge_eccBusy (b : Block) (p : Edge) (l x y z : Bool) : (b.pinEdge p l x y z).eccBusy = b.eccBusy := rfl
@[simp] theorem Block.pinEdge_rbLevel (b : Block) (p : Edge) (l x y z : Bool) : (b.pinEdge p l x y z).rbLevel = l := rfl
@[simp] theorem Block.pinEdge_clockOn (b : Block) (p : Edge) (l x y z : Bool) : (b.pinEdge p l x y z).clockOn = b.clockOn := rfl
@[simp] theorem Block.pinEdge_trace (b : Block) (p : Edge) (l x y z : Bool) : (b.pinEdge p l x y z).trace = b.trace := rfl
@[simp] theorem Block.pinEdge_fault (b : Block) (p : Edge) (l x y z : Bool) : (b.pinEdge p l x y z).fault = b.fault := rfl
@[simp] theorem Block.pinEdge_refused (b : Block) (p : Edge) (l x y z : Bool) : (b.pinEdge p l x y z).refused = b.refused := rfl

end Sys2Proof.Machine
end

