-- ==== Sys2Proof/Laws/Ops.lean ====
section
/-! SUPPORT. What each shared operation and each transaction can do, said once: `exec_next_iff` is the inversion of
`exec`. -/

namespace Sys2Proof.Machine

@[simp] theorem FaultSet.add_overlap (f : FaultSet) : f.add .overlap = { f with overlap := true } := rfl

@[simp] theorem FaultSet.add_badCycleCount (f : FaultSet) : f.add .badCycleCount = { f with badCycleCount := true } :=
  rfl

theorem Block.busy_iff (b : Block) : b.busy = true ↔ b.phase ≠ .idle := by
  simp [Block.busy]

theorem Block.busy_eq_false_iff (b : Block) : b.busy = false ↔ b.phase = .idle := by
  simp [Block.busy]

theorem next_eq_iff (a b : State) : (Host.Outcome.next a : Result) = .next b ↔ b = a := by
  rw [Host.Outcome.next.injEq, eq_comm]

theorem clocked_next_iff (s : State) (r : Result) (t : State) :
    clocked s r = .next t ↔ s.blk.clockOn = true ∧ r = .next t := by
  unfold clocked
  split <;> simp_all

theorem clocked_on (s : State) (r : Result) (h : s.blk.clockOn = true) : clocked s r = r := by
  simp [clocked, h]

theorem clocked_off (s : State) (r : Result) (h : s.blk.clockOn = false) : clocked s r = .refused .clockOff := by
  simp [clocked, h]

/-- No transaction answers a fault: the block's fault reasons are marks (60_exceptions.md R200). -/
theorem clocked_fault_iff (s : State) (r : Result) (x : Fault) :
    clocked s r = .fault x ↔ s.blk.clockOn = true ∧ r = .fault x := by
  unfold clocked
  split <;> simp_all

/-- The command of `n` cycles, `n` at most 5 (30_encoding.md R87). -/
def command (n : Nat) (w a : Word) : Instr :=
  match n with
  | 0 => .nfcCmdA0 w a
  | 1 => .nfcCmdA1 w a
  | 2 => .nfcCmdA2 w a
  | 3 => .nfcCmdA3 w a
  | 4 => .nfcCmdA4 w a
  | _ => .nfcCmdA5 w a

theorem exec_command (n : Nat) (hn : n ≤ 5) (w a : Word) (s : State) : exec (command n w a) s = accept n w a s := by
  match n, hn with
  | 0, _ => rfl
  | 1, _ => rfl
  | 2, _ => rfl
  | 3, _ => rfl
  | 4, _ => rfl
  | 5, _ => rfl

/-- What an accepted or overlapping command does (42_command_encoder.md R141). -/
def Accepted (n : Nat) (w a : Word) (s t : State) : Prop :=
  s.par.layout.cmdBitsOk w = true ∧
    ((s.blk.phase ≠ .idle ∧ t = s.raise .overlap) ∨
      (s.blk.phase = .idle ∧ lanesOk n a = true ∧ t = { s with blk := s.blk.latch w a }))

/-- What a chip-select write does (40_bus_timing.md R111). -/
def CsWritten (cs : Nat) (upd : CsRegs → CsRegs) (s t : State) : Prop :=
  cs < s.par.board.nCs ∧ t = s.updateCs cs upd

/-- What each transaction does when it answers a next state, the clock being on. -/
def Effect (i : Instr) (s t : State) : Prop :=
  match i with
  | .cfgW v => s.blk.phase = .idle ∧ s.par.cfgLegal v = true ∧ t = { s with blk.cfg := v }
  | .cfgR => t = s.answer s.blk.cfg
  | .idrW m => t = { s with blk.imr := s.blk.imr &&& ~~~ m }
  | .ctrlW v => v = 0#32 ∧ s.blk.phase = .idle ∧ t = { s with blk.ctrl := 0#32 }
  | .addrW v => v >>> 8 = 0#32 ∧ s.blk.phase = .idle ∧ t = { s with blk.addr0 := v.setWidth 8 }
  | .nfcCmdA0 w a => Accepted 0 w a s t
  | .nfcCmdA1 w a => Accepted 1 w a s t
  | .nfcCmdA2 w a => Accepted 2 w a s t
  | .nfcCmdA3 w a => Accepted 3 w a s t
  | .nfcCmdA4 w a => Accepted 4 w a s t
  | .nfcCmdA5 w a => Accepted 5 w a s t
  | .nfcCmdRsv6 _ _ => t = if s.blk.busy then (s.raise .badCycleCount).raise .overlap else s.raise .badCycleCount
  | .nfcCmdRsv7 _ _ => t = if s.blk.busy then (s.raise .badCycleCount).raise .overlap else s.raise .badCycleCount
  | .srR => t = ({ s with blk := s.blk.clearEvents }.answer (statusWord s.par.layout s.blk s.freeWord)).drew 1
  | .hstatR _ => t = (s.answer (hostStatusWord s.par.layout s.blk s.freeWord)).drew 1
  | .eccsrR => t = (s.answer (eccStatusWord s.par.layout s.blk s.freeWord)).drew 1
  | .csSetupW cs v => CsWritten cs (fun r => { r with setup := v }) s t
  | .csPulseW cs v => CsWritten cs (fun r => { r with pulse := v }) s t
  | .csCycleW cs v => CsWritten cs (fun r => { r with cycle := v }) s t
  | .csTimingsW cs v => CsWritten cs (fun r => { r with timings := v }) s t
  | .csModeW cs v => CsWritten cs (fun r => { r with mode := v }) s t

theorem accept_next_iff (n : Nat) (w a : Word) (s t : State) :
    accept n w a s = .next t ↔ s.blk.clockOn = true ∧ Accepted n w a s t := by
  unfold accept Accepted
  rw [clocked_next_iff]
  cases hc : s.par.layout.cmdBitsOk w <;> cases hb : s.blk.busy <;> cases hl : lanesOk n a <;>
    simp_all [-Host.Outcome.next.injEq, next_eq_iff, Block.busy]

theorem writeCs_next_iff (cs : Nat) (upd : CsRegs → CsRegs) (s t : State) :
    writeCs cs upd s = .next t ↔ s.blk.clockOn = true ∧ CsWritten cs upd s t := by
  unfold writeCs CsWritten
  rw [clocked_next_iff]
  by_cases h : s.par.board.nCs ≤ cs
  · have : ¬ cs < s.par.board.nCs := by omega
    simp [h, this]
  · have : cs < s.par.board.nCs := by omega
    simp [-Host.Outcome.next.injEq, next_eq_iff, h, this]

theorem execCfgW_next_iff (v : Word) (s t : State) :
    execCfgW v s = .next t ↔
      s.blk.clockOn = true ∧ s.blk.phase = .idle ∧ s.par.cfgLegal v = true ∧ t = { s with blk.cfg := v } := by
  unfold execCfgW Params.cfgLegal
  rw [clocked_next_iff]
  by_cases h0 : s.blk.busy = true
  · have : s.blk.phase ≠ .idle := (Block.busy_iff _).1 h0
    simp [h0, this]
  · have hp : s.blk.phase = .idle := (Block.busy_eq_false_iff _).1 (by simpa using h0)
    by_cases h1 : v &&& ~~~ s.par.layout.cfgDefined = 0#32 <;>
      cases h2 : s.par.layout.cfgRspare.bit v <;> cases h3 : s.par.layout.cfgWspare.bit v <;>
        cases h4 : s.par.behaviour.isPageCode (s.par.layout.cfgPagesize.get v) <;>
          simp_all [-Host.Outcome.next.injEq, next_eq_iff]

/-- The inversion of `exec`: a transaction answers a next state exactly when the clock is on and that state is its
effect. -/
theorem exec_next_iff (i : Instr) (s t : State) :
    exec i s = .next t ↔ s.blk.clockOn = true ∧ Effect i s t := by
  cases i with
  | cfgW v => exact execCfgW_next_iff v s t
  | cfgR => simp [-Host.Outcome.next.injEq, next_eq_iff, exec, execCfgR, clocked_next_iff, Effect]
  | idrW m => simp [-Host.Outcome.next.injEq, next_eq_iff, exec, execIdrW, clocked_next_iff, Effect]
  | ctrlW v =>
    simp only [exec, execCtrlW, clocked_next_iff, Effect]
    by_cases h : v = 0#32 <;> cases hb : s.blk.busy <;> simp_all [-Host.Outcome.next.injEq, next_eq_iff, Block.busy]
  | addrW v =>
    simp only [exec, execAddrW, clocked_next_iff, Effect]
    by_cases h : v >>> 8 = 0#32 <;> cases hb : s.blk.busy <;> simp_all [-Host.Outcome.next.injEq, next_eq_iff, Block.busy]
  | nfcCmdA0 w a => exact accept_next_iff 0 w a s t
  | nfcCmdA1 w a => exact accept_next_iff 1 w a s t
  | nfcCmdA2 w a => exact accept_next_iff 2 w a s t
  | nfcCmdA3 w a => exact accept_next_iff 3 w a s t
  | nfcCmdA4 w a => exact accept_next_iff 4 w a s t
  | nfcCmdA5 w a => exact accept_next_iff 5 w a s t
  | nfcCmdRsv6 w a => simp [-Host.Outcome.next.injEq, next_eq_iff, exec, execNfcCmdRsv6, reservedCount, clocked_next_iff, Effect]
  | nfcCmdRsv7 w a => simp [-Host.Outcome.next.injEq, next_eq_iff, exec, execNfcCmdRsv7, reservedCount, clocked_next_iff, Effect]
  | srR => simp [-Host.Outcome.next.injEq, next_eq_iff, exec, execSrR, clocked_next_iff, Effect]
  | hstatR o => simp [-Host.Outcome.next.injEq, next_eq_iff, exec, execHstatR, clocked_next_iff, Effect]
  | eccsrR => simp [-Host.Outcome.next.injEq, next_eq_iff, exec, execEccsrR, clocked_next_iff, Effect]
  | csSetupW cs v => exact writeCs_next_iff cs _ s t
  | csPulseW cs v => exact writeCs_next_iff cs _ s t
  | csCycleW cs v => exact writeCs_next_iff cs _ s t
  | csTimingsW cs v => exact writeCs_next_iff cs _ s t
  | csModeW cs v => exact writeCs_next_iff cs _ s t

/-- Every transaction is refused before the clock is on (10_state.md R46). -/
theorem exec_off (i : Instr) (s : State) (h : s.blk.clockOn = false) : exec i s = .refused .clockOff := by
  cases i <;> exact clocked_off _ _ h

theorem writeCs_ne_fault (cs : Nat) (upd : CsRegs → CsRegs) (s : State) (f : Fault) : writeCs cs upd s ≠ .fault f := by
  unfold writeCs clocked
  repeat' split
  all_goals simp

theorem accept_ne_fault (n : Nat) (w a : Word) (s : State) (f : Fault) : accept n w a s ≠ .fault f := by
  unfold accept clocked
  repeat' split
  all_goals simp

theorem reservedCount_ne_fault (s : State) (f : Fault) : reservedCount s ≠ .fault f := by
  unfold reservedCount clocked
  split <;> simp

/-- No transaction answers a fault (60_exceptions.md R200: the block's reasons are marks). -/
theorem exec_ne_fault (i : Instr) (s : State) (f : Fault) : exec i s ≠ .fault f := by
  cases i with
  | cfgW v =>
    simp only [exec, execCfgW, clocked]
    repeat' split
    all_goals simp
  | cfgR => simp [exec, execCfgR, clocked_fault_iff]
  | idrW m => simp [exec, execIdrW, clocked_fault_iff]
  | ctrlW v =>
    simp only [exec, execCtrlW, clocked]
    repeat' split
    all_goals simp
  | addrW v =>
    simp only [exec, execAddrW, clocked]
    repeat' split
    all_goals simp
  | nfcCmdA0 w a => exact accept_ne_fault 0 w a s f
  | nfcCmdA1 w a => exact accept_ne_fault 1 w a s f
  | nfcCmdA2 w a => exact accept_ne_fault 2 w a s f
  | nfcCmdA3 w a => exact accept_ne_fault 3 w a s f
  | nfcCmdA4 w a => exact accept_ne_fault 4 w a s f
  | nfcCmdA5 w a => exact accept_ne_fault 5 w a s f
  | nfcCmdRsv6 w a => exact reservedCount_ne_fault s f
  | nfcCmdRsv7 w a => exact reservedCount_ne_fault s f
  | srR => simp [exec, execSrR, clocked_fault_iff]
  | hstatR o => simp [exec, execHstatR, clocked_fault_iff]
  | eccsrR => simp [exec, execEccsrR, clocked_fault_iff]
  | csSetupW cs v => exact writeCs_ne_fault cs _ s f
  | csPulseW cs v => exact writeCs_ne_fault cs _ s f
  | csCycleW cs v => exact writeCs_ne_fault cs _ s f
  | csTimingsW cs v => exact writeCs_ne_fault cs _ s f
  | csModeW cs v => exact writeCs_ne_fault cs _ s f

end Sys2Proof.Machine
end

