-- ==== Sys2Proof/Laws/PerInstr.lean ====
section
/-! SUPPORT. The family `EncodeShape`: every well-formed instruction is one aligned 32-bit transaction (20_memory.md
R67, 30_encoding.md R96), one lemma per constructor. -/

namespace Sys2Proof.Laws.EncodeShape

/-- The transaction of a well-formed instruction is 4 bytes wide and aligned. -/
def Statement (i : Instr) : Prop :=
  ∀ L : Layout, L.Wf → i.wf L = true → (encode L i).size = 4 ∧ (encode L i).target.misaligned = false

theorem reg_aligned {L : Layout} (h : L.Wf) (o : Word) (ho : o ∈ L.regOffsets) :
    (Target.reg o).misaligned = false := by
  simp [Target.misaligned, h.offsetsAligned o ho]

theorem cmd_aligned {L : Layout} (w : Word) (h : L.cmdBitsOk w = true) : (Target.cmd w).misaligned = false := by
  simp [Target.misaligned, L.cmdBitsOk_aligned w h]

theorem command_aligned {L : Layout} (n : Nat) (w : Word) (h : L.isCommand n w = true) :
    (Target.cmd w).misaligned = false := by
  rw [Layout.isCommand, Bool.and_eq_true] at h
  exact cmd_aligned w h.1

theorem cfgW (v : Word) : Statement (.cfgW v) := fun _ hL _ => ⟨rfl, reg_aligned hL _ (by simp [Layout.regOffsets])⟩

theorem cfgR : Statement .cfgR := fun _ hL _ => ⟨rfl, reg_aligned hL _ (by simp [Layout.regOffsets])⟩

theorem idrW (m : Word) : Statement (.idrW m) := fun _ hL _ => ⟨rfl, reg_aligned hL _ (by simp [Layout.regOffsets])⟩

theorem ctrlW (v : Word) : Statement (.ctrlW v) := fun _ hL _ => ⟨rfl, reg_aligned hL _ (by simp [Layout.regOffsets])⟩

theorem addrW (v : Word) : Statement (.addrW v) := fun _ hL _ => ⟨rfl, reg_aligned hL _ (by simp [Layout.regOffsets])⟩

theorem nfcCmdA0 (w a : Word) : Statement (.nfcCmdA0 w a) := fun _ _ hi => ⟨rfl, command_aligned _ w hi⟩

theorem nfcCmdA1 (w a : Word) : Statement (.nfcCmdA1 w a) := fun _ _ hi => ⟨rfl, command_aligned _ w hi⟩

theorem nfcCmdA2 (w a : Word) : Statement (.nfcCmdA2 w a) := fun _ _ hi => ⟨rfl, command_aligned _ w hi⟩

theorem nfcCmdA3 (w a : Word) : Statement (.nfcCmdA3 w a) := fun _ _ hi => ⟨rfl, command_aligned _ w hi⟩

theorem nfcCmdA4 (w a : Word) : Statement (.nfcCmdA4 w a) := fun _ _ hi => ⟨rfl, command_aligned _ w hi⟩

theorem nfcCmdA5 (w a : Word) : Statement (.nfcCmdA5 w a) := fun _ _ hi => ⟨rfl, command_aligned _ w hi⟩

theorem nfcCmdRsv6 (w a : Word) : Statement (.nfcCmdRsv6 w a) := fun _ _ hi => ⟨rfl, command_aligned _ w hi⟩

theorem nfcCmdRsv7 (w a : Word) : Statement (.nfcCmdRsv7 w a) := fun _ _ hi => ⟨rfl, command_aligned _ w hi⟩

theorem srR : Statement .srR := fun _ hL _ => ⟨rfl, reg_aligned hL _ (by simp [Layout.regOffsets])⟩

theorem hstatR (offset : Word) : Statement (.hstatR offset) := fun _ _ hi =>
  ⟨rfl, cmd_aligned offset ((Bool.and_eq_true _ _).mp hi).1⟩

theorem eccsrR : Statement .eccsrR := fun _ hL _ => ⟨rfl, reg_aligned hL _ (by simp [Layout.regOffsets])⟩

theorem csSetupW (cs : Nat) (v : Word) : Statement (.csSetupW cs v) := fun _ _ _ => ⟨rfl, rfl⟩

theorem csPulseW (cs : Nat) (v : Word) : Statement (.csPulseW cs v) := fun _ _ _ => ⟨rfl, rfl⟩

theorem csCycleW (cs : Nat) (v : Word) : Statement (.csCycleW cs v) := fun _ _ _ => ⟨rfl, rfl⟩

theorem csTimingsW (cs : Nat) (v : Word) : Statement (.csTimingsW cs v) := fun _ _ _ => ⟨rfl, rfl⟩

theorem csModeW (cs : Nat) (v : Word) : Statement (.csModeW cs v) := fun _ _ _ => ⟨rfl, rfl⟩

end Sys2Proof.Laws.EncodeShape
end

