-- ==== Sys2Proof/Laws/Step.lean ====
section
/-! SUPPORT. Everything a step of the machine can do: `step_next`. Later proofs cite it and never unfold `step`. -/

namespace Sys2Proof.Machine

/-- The ways a step answers a next state. -/
inductive StepKind (s t : State) : Prop where
  /-- the host's step was refused: the sticky mark -/
  | marked (r : Refusal) (turn : s.nextTurn = some .host) (out : t = s.dropTurn.mark r)
  /-- `SEQ.DISPATCH` -/
  | dispatch (turn : s.nextTurn = some .seqDispatch) (enabled : s.blk.phase = .issue)
      (out : t = { s.dropTurn with blk := s.blk.dispatch s.par.layout })
  /-- `SEQ.XFER` -/
  | transfer (turn : s.nextTurn = some .seqXfer) (enabled : s.blk.phase = .data)
      (out : t = { s.dropTurn with blk := s.blk.transfer })
  /-- `ENV.RB(l)` -/
  | pin (l : Bool) (turn : s.nextTurn = some (.envRb l)) (out : t = envRb l s.dropTurn)
  /-- `ENV.ECC(b)` -/
  | ecc (b : Bool) (turn : s.nextTurn = some (.envEcc b)) (out : t = envEcc b s.dropTurn)
  /-- the host moved on inside its own program, the block untouched -/
  | internal (h : HostAgent) (turn : s.nextTurn = some .host) (idle : s.nextInstr = none)
      (out : t = { s.dropTurn with host := h })
  /-- `CLKEN` -/
  | clock (h : HostAgent) (turn : s.nextTurn = some .host) (idle : s.nextInstr = none)
      (out : t = { s.dropTurn with host := h, blk.clockOn := true })
  /-- a transaction: its effect, and the host's own bookkeeping after it -/
  | txn (i : Instr) (rest : List HostOp) (u : State) (h : HostAgent) (turn : s.nextTurn = some .host)
      (next : s.nextInstr = some i) (wf : i.wf s.par.layout = true)
      (run : exec i (s.dropTurn.setOps rest) = .next u) (out : t = { u with host := h })

theorem clocked_cases (s : State) (r : Result) : clocked s r = r ∨ clocked s r = .refused .clockOff := by
  unfold clocked
  split
  · exact .inl rfl
  · exact .inr rfl

/-- A transaction that is carried out was decoded and executed. -/
theorem runTxn_next {x : Txn} {s u : State} (h : runTxn x s = .next u) :
    ∃ i, decode s.par.layout x = .ok i ∧ exec i s = .next u := by
  unfold runTxn at h
  split at h
  · exact ⟨_, ‹_›, h⟩
  · rcases clocked_cases s (.refused (refusalOf ‹_›)) with hc | hc <;> rw [hc] at h <;> cases h

theorem runMem_next {m : MemAccess} {s u : State} (h : runMem m s = .next u) :
    ∃ x i, m.txn s.par = some x ∧ decode s.par.layout x = .ok i ∧ exec i s = .next u := by
  unfold runMem at h
  split at h
  · obtain ⟨i, hi, he⟩ := runTxn_next h
    exact ⟨_, i, ‹_›, hi, he⟩
  · cases h

theorem andThen_next {r : Result} {f : State → Result} {t : State} (h : andThen r f = .next t) :
    ∃ u, r = .next u ∧ f u = .next t := by
  unfold andThen at h
  split at h
  · exact ⟨_, rfl, h⟩
  · cases h
  · cases h

/-- What the host's own bookkeeping after a poll leaves alone. -/
theorem spinOn_frame (c : SpinCond) (left : Option Nat) (s : State) :
    ∃ h, spinOn c left s = { s with host := h } := by
  unfold spinOn
  split
  · exact ⟨_, rfl⟩
  · split
    · exact ⟨_, rfl⟩
    · exact ⟨_, rfl⟩

theorem enablePeripheral_cases (id : Nat) (s : State) :
    s.enablePeripheral id = { s with blk.clockOn := true } ∨ s.enablePeripheral id = s := by
  unfold State.enablePeripheral
  split
  · exact .inl rfl
  · exact .inr rfl

/-- Everything one operation of a routine can do. -/
theorem hostOp_next {op : HostOp} {s t : State} (h : hostOp op s = .next t) :
    (op.txn s.par = none ∧ ∃ g, t = { s with host := g } ∨ t = { s with host := g, blk.clockOn := true }) ∨
      ∃ x i u g, op.txn s.par = some x ∧ decode s.par.layout x = .ok i ∧ exec i s = .next u ∧
        t = { u with host := g } := by
  cases op with
  | enablePeripheral id =>
    refine .inl ⟨rfl, s.host, ?_⟩
    cases h
    rcases enablePeripheral_cases id s with he | he <;> rw [he]
    · exact .inr rfl
    · exact .inl rfl
  | access x =>
    obtain ⟨i, hi, he⟩ := runTxn_next h
    exact .inr ⟨x, i, t, t.host, rfl, hi, he, rfl⟩
  | mem m =>
    obtain ⟨x, i, hx, hi, he⟩ := runMem_next h
    exact .inr ⟨x, i, t, t.host, hx, hi, he, rfl⟩
  | spin c left =>
    obtain ⟨u, hu, ht⟩ := andThen_next h
    obtain ⟨i, hi, he⟩ := runTxn_next hu
    cases ht
    split
    · exact .inr ⟨_, i, u, u.host, rfl, hi, he, rfl⟩
    · obtain ⟨g, hg⟩ := spinOn_frame c left u
      exact .inr ⟨_, i, u, g, rfl, hi, he, hg⟩
  | query q =>
    obtain ⟨u, hu, ht⟩ := andThen_next h
    obtain ⟨i, hi, he⟩ := runTxn_next hu
    cases ht
    exact .inr ⟨_, i, u, _, rfl, hi, he, rfl⟩
  | encodeCommand w bytes =>
    refine .inl ⟨rfl, ?_⟩
    simp only [hostOp, encodeStep] at h
    split at h
    · cases h
      exact ⟨_, .inl rfl⟩
    · split at h
      · cases h
        exact ⟨_, .inl rfl⟩
      · cases h

theorem enterCall_next {c : Call} {s t : State} (h : enterCall c s = .next t) : ∃ g, t = { s with host := g } := by
  unfold enterCall at h
  split at h
  · cases h
    exact ⟨_, rfl⟩
  · cases h
    exact ⟨_, rfl⟩
  · cases h

/-- The next instruction is that of the operation at the head of the host's routine. -/
theorem nextInstr_eq {s : State} {op : HostOp} {rest : List HostOp} (turn : s.nextTurn = some .host)
    (hout : s.host.outcome = none) (hops : s.host.ops = op :: rest) :
    s.nextInstr = (op.txn s.par).bind fun x => (decode s.par.layout x).toOption := by
  simp [State.nextInstr, turn, hout, hops]

theorem settle_next {s t : State} {r : Result} (h : settle s r = .next t) :
    r = .next t ∨ ∃ x, r = .refused x ∧ t = s.mark x := by
  cases r with
  | next u => exact .inl h
  | fault x => cases h
  | refused x =>
    cases h
    exact .inr ⟨x, rfl, rfl⟩

theorem hostStep_kind {s t : State} (turn : s.nextTurn = some .host) (h : hostStep s.dropTurn = .next t) :
    StepKind s t := by
  unfold hostStep at h
  split at h
  · cases h
  · rename_i hout
    split at h
    · rename_i op rest hops
      have hn : s.nextInstr = _ := nextInstr_eq turn hout hops
      rcases hostOp_next h with ⟨hx, g, rfl | rfl⟩ | ⟨x, i, u, g, hx, hi, he, rfl⟩
      · have hx' : op.txn s.par = none := hx
        exact .internal g turn (by rw [hn, hx']; rfl) rfl
      · have hx' : op.txn s.par = none := hx
        exact .clock g turn (by rw [hn, hx']; rfl) rfl
      · have hx' : op.txn s.par = some x := hx
        have hi' : decode s.par.layout x = .ok i := hi
        exact .txn i rest u g turn (by rw [hn, hx', Option.bind_some, hi']; rfl) (decode_wf _ x i hi') he rfl
    · rename_i hops
      have hn : s.nextInstr = none := by
        have hops' : s.host.ops = [] := hops
        simp [State.nextInstr, hops']
      split at h
      · obtain ⟨g, rfl⟩ := enterCall_next h
        exact .internal g turn hn rfl
      · cases h

/-- The inversion of `step`: a step that answers a next state is from an unmarked state and is one of `StepKind`. -/
theorem step_next {s t : State} (h : step s = .next t) : s.blk.refused = none ∧ StepKind s t := by
  unfold step machineStep at h
  split at h
  · cases h
  · refine ⟨‹_›, ?_⟩
    split at h
    · cases h
    · rename_i turn ht
      rcases settle_next h with hr | ⟨x, hr, rfl⟩
      · cases turn with
        | host => exact hostStep_kind ht hr
        | seqDispatch =>
          simp only [takeTurn, seqDispatch] at hr
          split at hr
          · cases hr
            exact .dispatch ht ‹_› rfl
          · cases hr
        | seqXfer =>
          simp only [takeTurn, seqXfer] at hr
          split at hr
          · cases hr
            exact .transfer ht ‹_› rfl
          · cases hr
        | envRb l =>
          cases hr
          exact .pin l ht rfl
        | envEcc b =>
          cases hr
          exact .ecc b ht rfl
      · cases turn with
        | host => exact .marked x ht rfl
        | seqDispatch =>
          simp only [takeTurn, seqDispatch] at hr
          split at hr <;> cases hr
        | seqXfer =>
          simp only [takeTurn, seqXfer] at hr
          split at hr <;> cases hr
        | envRb l => cases hr
        | envEcc b => cases hr

/-- A step of an unmarked state is its agent's turn, settled. -/
theorem step_of_turn {s : State} {turn : Turn} (hm : s.blk.refused = none) (ht : s.nextTurn = some turn) :
    step s = settle s.dropTurn (takeTurn turn s.dropTurn) := by
  simp [step, machineStep, hm, ht]

/-- What an edge of the ready/busy pin leaves alone. -/
theorem envRb_frame (l : Bool) (s : State) :
    ∃ f r e k, envRb l s =
      { s with
        blk := { s.blk with rbFall := s.blk.rbFall || f, rbRise := s.blk.rbRise || r, rbEdge0 := s.blk.rbEdge0 || e,
                            rbLevel := l },
        draws := s.draws + k } := by
  unfold envRb
  split
  · rename_i h
    exact ⟨false, false, false, 0, by subst h; simp⟩
  · split
    · exact ⟨_, _, _, 0, rfl⟩
    · exact ⟨_, _, _, 3, rfl⟩

/-- Every transaction is refused before the clock is on, whether it decodes or not (10_state.md R46, 60_exceptions.md
R216). -/
theorem runTxn_off (x : Txn) (s : State) (h : s.blk.clockOn = false) : runTxn x s = .refused .clockOff := by
  unfold runTxn
  split
  · exact exec_off _ _ h
  · exact clocked_off _ _ h

/-- A transaction that decodes is its instruction, executed. -/
theorem runTxn_of_decode {x : Txn} {i : Instr} {s : State} (h : decode s.par.layout x = .ok i) :
    runTxn x s = exec i s := by
  simp [runTxn, h]

/-- The host's turn with an operation left of its routine. -/
theorem step_of_op {s : State} {op : HostOp} {rest : List HostOp} (hm : s.blk.refused = none)
    (ht : s.nextTurn = some .host) (ho : s.host.outcome = none) (hops : s.host.ops = op :: rest) :
    step s = settle s.dropTurn (hostOp op (s.dropTurn.setOps rest)) := by
  have hd : s.dropTurn.host = s.host := rfl
  rw [step_of_turn hm ht, takeTurn, hostStep, hd, ho, hops]

/-- The host's turn with its routine done and a call still to make. -/
theorem step_of_call {s : State} {c : Call} {rest : List Call} (hm : s.blk.refused = none)
    (ht : s.nextTurn = some .host) (ho : s.host.outcome = none) (hops : s.host.ops = [])
    (hcalls : s.host.calls = c :: rest) :
    step s = settle s.dropTurn (enterCall c (s.dropTurn.setCalls rest)) := by
  have hd : s.dropTurn.host = s.host := rfl
  rw [step_of_turn hm ht, takeTurn, hostStep, hd, ho, hops, hcalls]

/-- The host enters its next routine. -/
theorem step_enter {s : State} {c : Call} {rest : List Call} {l : List HostOp} (hm : s.blk.refused = none)
    (ht : s.nextTurn = some .host) (ho : s.host.outcome = none) (hops : s.host.ops = [])
    (hcalls : s.host.calls = c :: rest) (he : expand s.par c = .ops l) :
    step s = .next { s with
      agenda := s.agenda.tail, host.calls := rest, host.ops := l, host.ret := none } := by
  rw [step_of_call hm ht ho hops hcalls, enterCall]
  have : expand (s.dropTurn.setCalls rest).par c = .ops l := he
  rw [this]
  rfl

/-- The host's next operation is a transaction that is carried out. -/
theorem step_access {s u : State} {x : Txn} {i : Instr} {rest : List HostOp} (hm : s.blk.refused = none)
    (ht : s.nextTurn = some .host) (ho : s.host.outcome = none) (hops : s.host.ops = .access x :: rest)
    (hd : decode s.par.layout x = .ok i) (hu : exec i (s.dropTurn.setOps rest) = .next u) : step s = .next u := by
  rw [step_of_op hm ht ho hops, hostOp, runTxn_of_decode (s := s.dropTurn.setOps rest) hd, hu]
  rfl

/-- A poll reads a word that tells whether its condition holds, and has the side effects of the read it is
(43_status_poller.md R180 to R187). -/
theorem runTxn_poll {s : State} (c : SpinCond) (hL : s.par.layout.Wf) (hc : s.blk.clockOn = true) :
    ∃ w, c.holds s.par.layout w = s.blk.meets c ∧
      runTxn (c.txn s.par.layout) s = .next { s with
        host.rdata := w
        draws := s.draws + 1
        blk := if c = .hostNotBusy ∨ c = .eccReady then s.blk else s.blk.clearEvents } := by
  have hs := statusWord_bits hL s.blk s.freeWord
  cases c with
  | hostNotBusy =>
    refine ⟨_, ?_, (runTxn_of_decode (decode_readHstat hL)).trans (clocked_on _ _ hc)⟩
    simp [SpinCond.holds, (hostStatusWord_bits hL s.blk s.freeWord).1, Block.meets]
  | eccReady =>
    refine ⟨_, ?_, (runTxn_of_decode (decode_readEccsr hL)).trans (clocked_on _ _ hc)⟩
    simp [SpinCond.holds, (eccStatusWord_bits hL s.blk s.freeWord).1, Block.meets]
  | commandDone => exact ⟨_, hs.2.2.2.2.1, (runTxn_of_decode (decode_readSr hL)).trans (clocked_on _ _ hc)⟩
  | transferDone => exact ⟨_, hs.2.2.2.1, (runTxn_of_decode (decode_readSr hL)).trans (clocked_on _ _ hc)⟩
  | rbFall => exact ⟨_, hs.2.1, (runTxn_of_decode (decode_readSr hL)).trans (clocked_on _ _ hc)⟩
  | rbRise => exact ⟨_, hs.1, (runTxn_of_decode (decode_readSr hL)).trans (clocked_on _ _ hc)⟩
  | rbEdge0 => exact ⟨_, hs.2.2.2.2.2.1, (runTxn_of_decode (decode_readSr hL)).trans (clocked_on _ _ hc)⟩

/-- The state a poll of the host leaves before it is decided whether the wait goes on: the word `w` read, one draw, and
the event flags cleared if the status register was read. -/
def State.polled (c : SpinCond) (w : Word) (rest : List HostOp) (s : State) : State :=
  { s with
    agenda := s.agenda.tail
    host.ops := rest
    host.rdata := w
    draws := s.draws + 1
    blk := if c = .hostNotBusy ∨ c = .eccReady then s.blk else s.blk.clearEvents }

/-- One poll of a wait, decided by the block's own condition. -/
theorem step_spin {s : State} {c : SpinCond} {left : Option Nat} {rest : List HostOp} (hL : s.par.layout.Wf)
    (hm : s.blk.refused = none) (hc : s.blk.clockOn = true) (ht : s.nextTurn = some .host)
    (ho : s.host.outcome = none) (hops : s.host.ops = .spin c left :: rest) :
    ∃ w, step s = .next (if s.blk.meets c then s.polled c w rest else spinOn c left (s.polled c w rest)) := by
  obtain ⟨w, h1, h2⟩ := runTxn_poll (s := s.dropTurn.setOps rest) c hL hc
  have h3 : c.holds (s.dropTurn.setOps rest).par.layout w = s.blk.meets c := h1
  refine ⟨w, ?_⟩
  rw [step_of_op hm ht ho hops, hostOp, spinStep, h2]
  simp only [andThen]
  rw [h3]
  rfl

/-- A poll whose condition holds ends its wait. -/
theorem step_spin_met {s : State} {c : SpinCond} {left : Option Nat} {rest : List HostOp} (hL : s.par.layout.Wf)
    (hm : s.blk.refused = none) (hc : s.blk.clockOn = true) (ht : s.nextTurn = some .host)
    (ho : s.host.outcome = none) (hops : s.host.ops = .spin c left :: rest) (hme : s.blk.meets c = true) :
    ∃ w, step s = .next (s.polled c w rest) := by
  obtain ⟨w, h⟩ := step_spin hL hm hc ht ho hops
  exact ⟨w, by rw [h, if_pos hme]⟩

/-- A poll of an unbounded wait whose condition does not hold leaves the same wait. -/
theorem step_spin_unmet {s : State} {c : SpinCond} {rest : List HostOp} (hL : s.par.layout.Wf)
    (hm : s.blk.refused = none) (hc : s.blk.clockOn = true) (ht : s.nextTurn = some .host)
    (ho : s.host.outcome = none) (hops : s.host.ops = .spin c none :: rest) (hme : s.blk.meets c = false) :
    ∃ w, step s = .next (s.polled c w (.spin c none :: rest)) := by
  obtain ⟨w, h⟩ := step_spin hL hm hc ht ho hops
  exact ⟨w, by rw [h, hme]; rfl⟩

/-- When the agenda is empty and the sequencer idle, the host's turn is next if it has a step. -/
theorem nextTurn_fair_host {s : State} (ha : s.agenda = []) (hp : s.blk.phase = .idle) (he : s.hostEnabled = true) :
    s.nextTurn = some .host := by
  simp [State.nextTurn, ha, fairTurn, hp, he]

theorem hostEnabled_of_ops {s : State} {op : HostOp} {rest : List HostOp} (ho : s.host.outcome = none)
    (h : s.host.ops = op :: rest) : s.hostEnabled = true := by
  simp [State.hostEnabled, ho, h]

theorem hostEnabled_of_calls {s : State} {c : Call} {rest : List Call} (ho : s.host.outcome = none)
    (h : s.host.calls = c :: rest) : s.hostEnabled = true := by
  simp [State.hostEnabled, ho, h]

/-- The host's next operation writes a chip-select register that exists. -/
theorem step_csWrite {s : State} {cs : Nat} {r : CsReg} {v : Word} {rest : List HostOp} (hm : s.blk.refused = none)
    (hc : s.blk.clockOn = true) (ht : s.nextTurn = some .host) (ho : s.host.outcome = none)
    (hops : s.host.ops = csWrite cs r v :: rest) (hcs : cs < s.par.board.nCs) :
    step s = .next { s with
      agenda := s.agenda.tail
      host.ops := rest
      t := s.t.modify cs (match r with
        | .setup => fun x => { x with setup := v }
        | .pulse => fun x => { x with pulse := v }
        | .cycle => fun x => { x with cycle := v }
        | .timings => fun x => { x with timings := v }
        | .mode => fun x => { x with mode := v }) } := by
  have hn : ¬ s.par.board.nCs ≤ cs := by omega
  cases r <;> exact step_access hm ht ho hops rfl ((clocked_on _ _ hc).trans (if_neg hn))

/-- The host's next operation enables the controller's clock. -/
theorem step_enable {s : State} {rest : List HostOp} (hm : s.blk.refused = none) (ht : s.nextTurn = some .host)
    (ho : s.host.outcome = none) (hops : s.host.ops = .enablePeripheral s.par.board.periphId :: rest) :
    step s = .next { s with agenda := s.agenda.tail, host.ops := rest, blk.clockOn := true } := by
  rw [step_of_op hm ht ho hops, hostOp, State.enablePeripheral]
  have : (s.dropTurn.setOps rest).par = s.par := rfl
  rw [this, if_pos rfl]
  rfl

/-- The host's next operation is `IDR.W`. -/
theorem step_writeIdr {s : State} {m : Word} {rest : List HostOp} (hL : s.par.layout.Wf) (hm : s.blk.refused = none)
    (hc : s.blk.clockOn = true) (ht : s.nextTurn = some .host) (ho : s.host.outcome = none)
    (hops : s.host.ops = .access (writeTxn (.reg s.par.layout.offIdr) m) :: rest) :
    step s = .next { s with agenda := s.agenda.tail, host.ops := rest, blk.imr := s.blk.imr &&& ~~~ m } :=
  step_access hm ht ho hops (decode_writeIdr hL m) (clocked_on _ _ hc)

/-- The host's next operation is `CTRL.W` of zero and the sequencer is idle. -/
theorem step_writeCtrl {s : State} {rest : List HostOp} (hL : s.par.layout.Wf) (hm : s.blk.refused = none)
    (hc : s.blk.clockOn = true) (hp : s.blk.phase = .idle) (ht : s.nextTurn = some .host) (ho : s.host.outcome = none)
    (hops : s.host.ops = .access (writeTxn (.reg s.par.layout.offCtrl) 0#32) :: rest) :
    step s = .next { s with agenda := s.agenda.tail, host.ops := rest, blk.ctrl := 0#32 } := by
  refine step_access hm ht ho hops (decode_writeCtrl hL 0#32) ((exec_next_iff _ _ _).2 ⟨hc, ?_⟩)
  exact ⟨rfl, hp, rfl⟩

/-- The host's next operation is `CFG.W` of a legal word and the sequencer is idle. -/
theorem step_writeCfg {s : State} {v : Word} {rest : List HostOp} (hL : s.par.layout.Wf) (hm : s.blk.refused = none)
    (hc : s.blk.clockOn = true) (hp : s.blk.phase = .idle) (hv : s.par.cfgLegal v = true)
    (ht : s.nextTurn = some .host) (ho : s.host.outcome = none)
    (hops : s.host.ops = .access (writeTxn (.reg s.par.layout.offCfg) v) :: rest) :
    step s = .next { s with agenda := s.agenda.tail, host.ops := rest, blk.cfg := v } :=
  step_access hm ht ho hops (decode_writeCfg hL v) ((execCfgW_next_iff _ _ _).2 ⟨hc, hp, hv, rfl⟩)

/-- The host's next operation is `ADDR.W` of a byte and the sequencer is idle. -/
theorem step_writeAddr {s : State} {x : Byte} {rest : List HostOp} (hL : s.par.layout.Wf) (hm : s.blk.refused = none)
    (hc : s.blk.clockOn = true) (hp : s.blk.phase = .idle) (ht : s.nextTurn = some .host) (ho : s.host.outcome = none)
    (hops : s.host.ops = .access (writeTxn (.reg s.par.layout.offAddr) (x.zeroExtend 32)) :: rest) :
    step s = .next { s with agenda := s.agenda.tail, host.ops := rest, blk.addr0 := x } := by
  refine step_access hm ht ho hops (decode_writeAddr hL _) ((exec_next_iff _ _ _).2 ⟨hc, ?_⟩)
  refine ⟨?_, hp, ?_⟩
  · apply BitVec.eq_of_getLsbD_eq
    intro i _
    simp
  · have : (x.zeroExtend 32).setWidth 8 = x := by
      apply BitVec.eq_of_getLsbD_eq
      intro i hi
      simp [hi]
    rw [this]
    rfl

/-- The host's next operation is a command-decoded write of a legal command into a free slot. -/
theorem step_writeCommand {s : State} {w a : Word} {rest : List HostOp} (hm : s.blk.refused = none)
    (hc : s.blk.clockOn = true) (hp : s.blk.phase = .idle) (ht : s.nextTurn = some .host) (ho : s.host.outcome = none)
    (hw : s.par.layout.legalCommand w = true) (ha : lanesOk (s.par.layout.acycle w) a = true)
    (hops : s.host.ops = .access (writeTxn (.cmd w) a) :: rest) :
    step s = .next { s with agenda := s.agenda.tail, host.ops := rest, blk := s.blk.latch w a } := by
  simp only [Layout.legalCommand, Bool.and_eq_true, decide_eq_true_eq] at hw
  have hrun : ∀ i, commandOf (s.par.layout.acycle w) w a = .ok i → step s = .next { s with
      agenda := s.agenda.tail, host.ops := rest, blk := s.blk.latch w a } := by
    intro i hi
    refine step_access hm ht ho hops ((decode_writeCmd _ w a hw.1).trans hi) ((exec_next_iff _ _ _).2 ⟨hc, ?_⟩)
    have hlt : s.par.layout.acycle w ≤ 5 := hw.2
    generalize s.par.layout.acycle w = n at hi hlt ha
    match n, hlt, hi with
    | 0, _, hi => cases hi; exact ⟨hw.1, .inr ⟨hp, ha, rfl⟩⟩
    | 1, _, hi => cases hi; exact ⟨hw.1, .inr ⟨hp, ha, rfl⟩⟩
    | 2, _, hi => cases hi; exact ⟨hw.1, .inr ⟨hp, ha, rfl⟩⟩
    | 3, _, hi => cases hi; exact ⟨hw.1, .inr ⟨hp, ha, rfl⟩⟩
    | 4, _, hi => cases hi; exact ⟨hw.1, .inr ⟨hp, ha, rfl⟩⟩
    | 5, _, hi => cases hi; exact ⟨hw.1, .inr ⟨hp, ha, rfl⟩⟩
  have hlt : s.par.layout.acycle w ≤ 5 := hw.2
  generalize s.par.layout.acycle w = n at hrun hlt
  match n, hlt with
  | 0, _ => exact hrun _ rfl
  | 1, _ => exact hrun _ rfl
  | 2, _ => exact hrun _ rfl
  | 3, _ => exact hrun _ rfl
  | 4, _ => exact hrun _ rfl
  | 5, _ => exact hrun _ rfl

/-- The sequencer's turn in phase Issue. -/
theorem step_dispatch {s : State} (hm : s.blk.refused = none) (ht : s.nextTurn = some .seqDispatch)
    (hp : s.blk.phase = .issue) :
    step s = .next { s with agenda := s.agenda.tail, blk := s.blk.dispatch s.par.layout } := by
  have hd : s.dropTurn.blk.phase = .issue := hp
  rw [step_of_turn hm ht, takeTurn, seqDispatch, if_pos hd]
  rfl

/-- The sequencer's turn in phase Data. -/
theorem step_transfer {s : State} (hm : s.blk.refused = none) (ht : s.nextTurn = some .seqXfer)
    (hp : s.blk.phase = .data) :
    step s = .next { s with agenda := s.agenda.tail, blk := s.blk.transfer } := by
  have hd : s.dropTurn.blk.phase = .data := hp
  rw [step_of_turn hm ht, takeTurn, seqXfer, if_pos hd]
  rfl

/-- The host's next operation is a status read. -/
theorem step_readSr {s : State} {rest : List HostOp} (hL : s.par.layout.Wf) (hm : s.blk.refused = none)
    (hc : s.blk.clockOn = true) (ht : s.nextTurn = some .host) (ho : s.host.outcome = none)
    (hops : s.host.ops = .access (readTxn (.reg s.par.layout.offSr)) :: rest) :
    step s = .next { s with
      agenda := s.agenda.tail
      host.ops := rest
      host.rdata := statusWord s.par.layout s.blk s.freeWord
      blk := s.blk.clearEvents
      draws := s.draws + 1 } :=
  step_access hm ht ho hops (decode_readSr hL) (clocked_on _ _ hc)

/-- `send_command` past its wait, with a legal count and enough bytes: the writes of the command are next. -/
theorem step_encode {s : State} {w a : Word} {bytes : List Byte} {e : Option Byte} {rest : List HostOp}
    (hm : s.blk.refused = none) (ht : s.nextTurn = some .host) (ho : s.host.outcome = none)
    (hops : s.host.ops = .encodeCommand w bytes :: rest) (hn : s.par.layout.acycle w ≤ 5)
    (hpack : pack (s.par.layout.acycle w) bytes = some (e, a)) :
    step s = .next { s with agenda := s.agenda.tail, host.ops := commandWrites s.par.layout w e a ++ rest } := by
  have hs : (s.dropTurn.setOps rest).par.layout = s.par.layout := rfl
  have hn' : ¬ 5 < s.par.layout.acycle w := by omega
  rw [step_of_op hm ht ho hops, hostOp, encodeStep, hs, if_neg hn', hpack]
  rfl

theorem nextTurn_cons {s : State} {turn : Turn} {rest : List Turn} (h : s.agenda = turn :: rest) :
    s.nextTurn = some turn := by
  simp [State.nextTurn, h]

theorem after_zero (s : State) : s.after 0 = .next s := rfl

/-- `k` + 1 steps are a step and then `k`. -/
theorem after_succ (k : Nat) (s : State) : s.after (k + 1) = andThen (step s) (State.after k) := by
  have h : ∀ r, core.step s = r → Host.Core.run core (k + 1) s = andThen r (State.after k) := by
    intro r hr
    cases r <;> simp only [Host.Core.run, hr, andThen] <;> rfl
  exact h _ rfl

theorem after_succ_next_iff (k : Nat) (s t : State) :
    s.after (k + 1) = .next t ↔ ∃ u, step s = .next u ∧ u.after k = .next t := by
  rw [after_succ]
  constructor
  · exact andThen_next
  · rintro ⟨u, hu, ht⟩
    rw [hu]
    exact ht

/-- A step and then `k` more. -/
theorem after_step {k : Nat} {s u t : State} (h : step s = .next u) (h2 : u.after k = .next t) :
    s.after (k + 1) = .next t :=
  (after_succ_next_iff k s t).2 ⟨u, h, h2⟩

/-- `j` steps and then `k` more. -/
theorem after_add {j k : Nat} {s u t : State} (h : s.after j = .next u) (h2 : u.after k = .next t) :
    s.after (j + k) = .next t := by
  induction j generalizing s with
  | zero =>
    cases h
    rw [Nat.zero_add]
    exact h2
  | succ j ih =>
    obtain ⟨v, hv, hv2⟩ := (after_succ_next_iff _ _ _).1 h
    rw [Nat.succ_add]
    exact after_step hv (ih hv2)

/-- A property that every step keeps holds after any number of steps. -/
theorem after_induction {P : State → Prop} (keep : ∀ s t, P s → step s = .next t → P t) (k : Nat) :
    ∀ s t : State, P s → s.after k = .next t → P t := by
  induction k with
  | zero =>
    intro s t hs h
    cases h
    exact hs
  | succ k ih =>
    intro s t hs h
    obtain ⟨u, hu, ht⟩ := (after_succ_next_iff k s t).1 h
    exact ih u t (keep s u hs hu) ht

end Sys2Proof.Machine
end

