-- ==== Sys2Proof/Tests/Slice0.lean ====
section
/-! SUPPORT. Tests: expected results from 95_test_vectors.md (the id is named), one step each. -/

namespace Sys2Proof.Tests

open Sys2Proof Sys2Proof.Machine

/- A board for the tests: the bases are the illustrative ones of 95_test_vectors.md, everything else is arbitrary. -/

/-- The five offsets of chip select `k` on the test board. -/
def csAt (k : Nat) : CsOffsets :=
  let o (j : Nat) : Word := BitVec.ofNat 32 (20 * k + 4 * j)
  ⟨o 0, o 1, o 2, o 3, o 4⟩

def board : Board where
  part := "test"
  regBase := 0x40000000#32
  cmdBase := 0x50000000#32
  csBase := 0x40001000#32
  regLen := 0x100
  csLen := 0x100
  nCs := 4
  nandCs := 3
  periphId := 5
  csOffsets := [csAt 0, csAt 1, csAt 2, csAt 3]
  mode := ⟨⟨0, 1⟩, ⟨1, 1⟩, ⟨12, 1⟩, ⟨16, 4⟩, ⟨4, 2⟩, 0#32, 1#32, 0#32⟩
  nandSetup := 0x11#32
  nandPulse := 0x22#32
  nandCycle := 0x33#32
  nandTimings := 0x44#32
  norSetup := 0x55#32
  norPulse := 0x66#32
  norCycle := 0x77#32

def params : Params := Params.withBoard board

/-- After reset: the clock is off. -/
def off : State := State.resetWith params

/-- Idle with the clock on and 0x5A in the extra-address register (95_test_vectors.md §2.5). -/
def ready : State := { off with blk.clockOn := true, blk.addr0 := 0x5A#8 }

/-- The same with the sequencer in phase `p`, `w` and `a` in the slot. -/
def busyIn (p : Phase) (w a : Word) : State :=
  { ready with blk.phase := p, blk.curCmd := w, blk.curAddr := a, blk.curAddr0 := 0x5A#8 }

/-- A host whose program is `calls`, the turns `agenda` to come. -/
def calling (s : State) (calls : List Call) (agenda : List Turn) : State :=
  { s with host.calls := calls, agenda := agenda }

/-- A host inside a routine with `ops` left. -/
def inside (s : State) (ops : List HostOp) (agenda : List Turn) : State :=
  { s with host.ops := ops, agenda := agenda }

/-- A field of the next state. -/
def got {α : Type} (r : Result) (f : State → α) : Option α :=
  match r with
  | .next s => some (f s)
  | .fault _ => none
  | .refused _ => none

/-- The reason of a refusal. -/
def why (r : Result) : Option Refusal :=
  match r with
  | .next _ => none
  | .fault _ => none
  | .refused x => some x

/-- The fault a step stops with. -/
def stop (r : Result) : Option Fault :=
  match r with
  | .next _ => none
  | .fault x => some x
  | .refused _ => none

/- Well-formedness: the default record is well formed (00_scope.md R16), and each check refuses an ill-formed term. -/

theorem test_layout_wf : Layout.default.Wf where
  cfgInside := by decide
  cfgDisjoint := by decide
  srInside := by decide
  srDisjoint := by decide
  hstatInside := by decide
  eccsrInside := by decide
  cwInside := by decide
  cwDisjoint := by decide
  window := by decide
  flagsOneBit := by decide
  cmd1Byte := by decide
  cmd2Byte := by decide
  acycleWide := by decide
  dtocycWide := by decide
  sparesizeWide := by decide
  offsetsAligned := List.forall_mem_iff_forall_getElem.2 (by decide)
  offsetsDistinct := by decide
  hstatOffset := fun _ h => nomatch h

theorem test_behaviour_wf : Behaviour.default.Wf Layout.default where
  sizesKnown := List.forall_mem_iff_forall_getElem.2 (by decide)
  codesExist := by
    intro p hp
    simp only [Behaviour.default, List.mem_cons, List.not_mem_nil, or_false] at hp
    rcases hp with rfl | rfl | rfl | rfl | rfl
    · exact ⟨0#32, by decide, by decide⟩
    · exact ⟨1#32, by decide, by decide⟩
    · exact ⟨2#32, by decide, by decide⟩
    · exact ⟨3#32, by decide, by decide⟩
    · exact ⟨4#32, by decide, by decide⟩
  dtomulFits := by decide
  boundPositive := by decide

theorem test_mode_wf : board.mode.Wf where
  inside := List.forall_mem_iff_forall_getElem.2 (by decide)
  disjoint := by decide
  readFits := by decide
  writeFits := by decide
  dbw8Fits := by decide
  dbw16Fits := by decide
  tdfFits := by decide
  exnwFits := by decide

theorem test_board_wf : board.Wf Layout.default where
  regAligned := by decide
  csBaseAligned := by decide
  cmdAligned := by decide
  cmdInside := by decide
  regInside := by decide
  csInside := by decide
  regApartCmd := by decide
  csApartCmd := by decide
  csApartReg := by decide
  regHolds := List.forall_mem_iff_forall_getElem.2 (by decide)
  csCount := by decide
  csHolds := List.forall_mem_iff_forall_getElem.2 (by decide)
  csAligned := List.forall_mem_iff_forall_getElem.2 (by decide)
  csDistinct := by decide
  nandInside := by decide
  mode := test_mode_wf

theorem test_params_wf : params.Wf := ⟨test_layout_wf, test_behaviour_wf, test_board_wf⟩

theorem test_layout_refuses_field_outside : ¬ { Layout.default with cfgSparesize := ⟨26, 7⟩ }.Wf :=
  fun h => absurd h.cfgInside (by decide)

theorem test_layout_refuses_overlapping_cfg : ¬ { Layout.default with cfgRspare := ⟨8, 1⟩ }.Wf :=
  fun h => absurd h.cfgDisjoint (by decide)

theorem test_layout_refuses_status_outside : ¬ { Layout.default with srRbEdge0 := ⟨32, 1⟩ }.Wf :=
  fun h => absurd h.srInside (by decide)

theorem test_layout_refuses_overlapping_status : ¬ { Layout.default with srRbRise := ⟨5, 1⟩ }.Wf :=
  fun h => absurd h.srDisjoint (by decide)

theorem test_layout_refuses_hstat_outside : ¬ { Layout.default with hstatBusy := ⟨32, 1⟩ }.Wf :=
  fun h => absurd h.hstatInside (by decide)

theorem test_layout_refuses_eccsr_outside : ¬ { Layout.default with eccsrBusy := ⟨32, 1⟩ }.Wf :=
  fun h => absurd h.eccsrInside (by decide)

theorem test_layout_refuses_command_field_below_two : ¬ { Layout.default with cwCmd1 := ⟨1, 8⟩ }.Wf :=
  fun h => absurd h.cwInside (by decide)

theorem test_layout_refuses_overlapping_command : ¬ { Layout.default with cwVcmd2 := ⟨17, 1⟩ }.Wf :=
  fun h => absurd h.cwDisjoint (by decide)

theorem test_layout_refuses_wide_window : ¬ { Layout.default with cmdWindowBits := 33 }.Wf :=
  fun h => absurd h.window (by decide)

theorem test_layout_refuses_wide_flag : ¬ { Layout.default with cfgRbedge := ⟨12, 2⟩ }.Wf :=
  fun h => absurd h.flagsOneBit (by decide)

theorem test_layout_refuses_short_opcode : ¬ { Layout.default with cwCmd1 := ⟨2, 7⟩ }.Wf :=
  fun h => absurd h.cmd1Byte (by decide)

theorem test_layout_refuses_short_second_opcode : ¬ { Layout.default with cwCmd2 := ⟨10, 7⟩ }.Wf :=
  fun h => absurd h.cmd2Byte (by decide)

theorem test_layout_refuses_two_bit_count : ¬ { Layout.default with cwAcycle := ⟨19, 2⟩ }.Wf :=
  fun h => absurd h.acycleWide (by decide)

theorem test_layout_refuses_short_timeout : ¬ { Layout.default with cfgDtocyc := ⟨16, 3⟩ }.Wf :=
  fun h => absurd h.dtocycWide (by decide)

theorem test_layout_refuses_short_spare : ¬ { Layout.default with cfgSparesize := ⟨24, 5⟩ }.Wf :=
  fun h => absurd h.sparesizeWide (by decide)

theorem test_layout_refuses_odd_offset : ¬ { Layout.default with offAddr := 0x1A#32 }.Wf :=
  fun h => absurd (h.offsetsAligned 0x1A#32 (by decide)) (by decide)

theorem test_layout_refuses_shared_offset : ¬ { Layout.default with offAddr := 0x10#32 }.Wf :=
  fun h => absurd h.offsetsDistinct (by decide)

theorem test_layout_refuses_hstat_offset : ¬ { Layout.default with offHstat := some 2#32 }.Wf :=
  fun h => absurd (h.hstatOffset 2#32 rfl) (by decide)

theorem test_behaviour_refuses_unknown_size :
    ¬ { Behaviour.default with supportedPageSizes := [777#32] }.Wf Layout.default :=
  fun h => absurd (h.sizesKnown 777#32 (by decide)) (by decide)

theorem test_behaviour_refuses_size_without_code : ¬ { Behaviour.default with pageCode := [] }.Wf Layout.default :=
  fun h => by
    obtain ⟨c, hc, _⟩ := h.codesExist 512#32 (by decide)
    exact nomatch hc

theorem test_behaviour_refuses_wide_multiplier :
    ¬ { Behaviour.default with dtomulX1048576 := 8#32 }.Wf Layout.default :=
  fun h => absurd h.dtomulFits (by decide)

theorem test_behaviour_refuses_zero_bound : ¬ { Behaviour.default with waitBound := some 0 }.Wf Layout.default :=
  fun h => absurd h.boundPositive (by decide)

theorem test_board_refuses_odd_register_base : ¬ { board with regBase := 0x40000002#32 }.Wf Layout.default :=
  fun h => absurd h.regAligned (by decide)

theorem test_board_refuses_odd_chip_select_base : ¬ { board with csBase := 0x40001002#32 }.Wf Layout.default :=
  fun h => absurd h.csBaseAligned (by decide)

theorem test_board_refuses_misaligned_window : ¬ { board with cmdBase := 0x51000000#32 }.Wf Layout.default :=
  fun h => absurd h.cmdAligned (by decide)

theorem test_board_refuses_window_past_the_end :
    ¬ { board with cmdBase := 0xF0000000#32 }.Wf { Layout.default with cmdWindowBits := 29 } :=
  fun h => absurd h.cmdInside (by decide)

theorem test_board_refuses_registers_past_the_end : ¬ { board with regBase := 0xFFFFFFF0#32 }.Wf Layout.default :=
  fun h => absurd h.regInside (by decide)

theorem test_board_refuses_chip_selects_past_the_end : ¬ { board with csBase := 0xFFFFFFF0#32 }.Wf Layout.default :=
  fun h => absurd h.csInside (by decide)

theorem test_board_refuses_overlapping_windows_b_c : ¬ { board with regBase := 0x50000000#32 }.Wf Layout.default :=
  fun h => absurd h.regApartCmd (by decide)

theorem test_board_refuses_overlapping_windows_a_c : ¬ { board with csBase := 0x50000000#32 }.Wf Layout.default :=
  fun h => absurd h.csApartCmd (by decide)

theorem test_board_refuses_overlapping_windows_a_b : ¬ { board with csBase := 0x40000000#32 }.Wf Layout.default :=
  fun h => absurd h.csApartReg (by decide)

theorem test_board_refuses_short_window_b : ¬ { board with regLen := 0x88 }.Wf Layout.default :=
  fun h => absurd (h.regHolds 0x088#32 (by decide)) (by decide)

theorem test_board_refuses_wrong_count : ¬ { board with nCs := 5 }.Wf Layout.default :=
  fun h => absurd h.csCount (by decide)

theorem test_board_refuses_short_window_a : ¬ { board with csLen := 0x4C }.Wf Layout.default :=
  fun h => absurd (h.csHolds 0x4C#32 (by decide)) (by decide)

theorem test_board_refuses_odd_chip_select_offset :
    ¬ { board with csOffsets := [⟨0#32, 4#32, 8#32, 12#32, 17#32⟩] }.Wf Layout.default :=
  fun h => absurd (h.csAligned 17#32 (by decide)) (by decide)

theorem test_board_refuses_shared_chip_select_offset :
    ¬ { board with csOffsets := [csAt 0, csAt 0, csAt 2, csAt 3] }.Wf Layout.default :=
  fun h => absurd h.csDistinct (by decide)

theorem test_board_refuses_nand_chip_select : ¬ { board with nandCs := 4 }.Wf Layout.default :=
  fun h => absurd h.nandInside (by decide)

theorem test_board_refuses_mode_register : ¬ { board with mode.tdf := ⟨30, 4⟩ }.Wf Layout.default :=
  fun h => absurd (h.mode.inside ⟨30, 4⟩ (by decide)) (by decide)

theorem test_mode_refuses_field_outside : ¬ { board.mode with exnw := ⟨31, 2⟩ }.Wf :=
  fun h => absurd (h.inside ⟨31, 2⟩ (by decide)) (by decide)

theorem test_mode_refuses_overlapping_fields : ¬ { board.mode with write := ⟨0, 1⟩ }.Wf :=
  fun h => absurd h.disjoint (by decide)

theorem test_mode_refuses_empty_read_enable : ¬ { board.mode with read := ⟨0, 0⟩ }.Wf :=
  fun h => absurd h.readFits (by decide)

theorem test_mode_refuses_empty_write_enable : ¬ { board.mode with write := ⟨1, 0⟩ }.Wf :=
  fun h => absurd h.writeFits (by decide)

theorem test_mode_refuses_wide_8_bit_code : ¬ { board.mode with dbw8 := 2#32 }.Wf :=
  fun h => absurd h.dbw8Fits (by decide)

theorem test_mode_refuses_wide_16_bit_code : ¬ { board.mode with dbw16 := 2#32 }.Wf :=
  fun h => absurd h.dbw16Fits (by decide)

theorem test_mode_refuses_empty_float_cycles : ¬ { board.mode with tdf := ⟨16, 0⟩ }.Wf :=
  fun h => absurd h.tdfFits (by decide)

theorem test_mode_refuses_wide_wait_code : ¬ { board.mode with exnwDisabled := 4#32 }.Wf :=
  fun h => absurd h.exnwFits (by decide)

/-- Each command row refuses a word of another count (30_encoding.md R87). -/
theorem test_wf_refuses_wrong_count :
    (Instr.nfcCmdA0 0x00C80240#32 0#32).wf Layout.default = false ∧
      (Instr.nfcCmdA1 0x00C003FC#32 0#32).wf Layout.default = false ∧
      (Instr.nfcCmdA2 0x00C003FC#32 0#32).wf Layout.default = false ∧
      (Instr.nfcCmdA3 0x00C003FC#32 0#32).wf Layout.default = false ∧
      (Instr.nfcCmdA4 0x02ECC000#32 0#32).wf Layout.default = false ∧
      (Instr.nfcCmdA5 0x02E4C000#32 0#32).wf Layout.default = false ∧
      (Instr.nfcCmdRsv6 0x00F80000#32 0#32).wf Layout.default = false ∧
      (Instr.nfcCmdRsv7 0x00F4C000#32 0#32).wf Layout.default = false := by decide

/-- V70, V71: bits 1:0 and 31:27 of a command word; the same bits of the offset of `HSTAT.R`. -/
theorem test_wf_refuses_command_bits :
    (Instr.nfcCmdA0 0x00C003FE#32 0#32).wf Layout.default = false ∧
      (Instr.nfcCmdA0 0x08C003FC#32 0#32).wf Layout.default = false ∧
      (Instr.hstatR 1#32).wf Layout.default = false ∧ (Instr.hstatR 0x08000000#32).wf Layout.default = false := by
  decide

/-- Another board may fix the one offset of the host status word (30_encoding.md R82). -/
theorem test_wf_refuses_other_hstat_offset :
    (Instr.hstatR 4#32).wf { Layout.default with offHstat := some 8#32 } = false := by decide

theorem test_wf_accepts :
    (Instr.nfcCmdA5 0x06E80200#32 0#32).wf Layout.default = true ∧ (Instr.hstatR 0x07FFFFFC#32).wf Layout.default = true ∧
      (Instr.nfcCmdRsv7 0x00F80000#32 0#32).wf Layout.default = true := by decide

/- Masks of the default layout (10_state.md R28, R32; 30_encoding.md R87). -/

theorem test_masks :
    Layout.default.cfgDefined = 0x7F7F2307#32 ∧ Layout.default.srDefined = 0x01030130#32 ∧
      Layout.default.srEvents = 0x01030030#32 ∧ ~~~ Layout.default.cmdAllowed = 0xF8000003#32 := by decide

/- Decoding: one word of every row, written out from the spec's encoding of it. -/

/-- §2.4: register transactions, at their absolute addresses with `REG_BASE` 0x40000000. -/
theorem test_decode_registers :
    (MemAccess.txn params ⟨0x40000000#32, .write 0x0F7F2002#32, 4⟩).map (decode Layout.default) =
        some (.ok (.cfgW 0x0F7F2002#32)) ∧
      (MemAccess.txn params ⟨0x40000000#32, .read, 4⟩).map (decode Layout.default) = some (.ok .cfgR) ∧
      (MemAccess.txn params ⟨0x40000004#32, .write 0#32, 4⟩).map (decode Layout.default) = some (.ok (.ctrlW 0#32)) ∧
      (MemAccess.txn params ⟨0x40000008#32, .read, 4⟩).map (decode Layout.default) = some (.ok .srR) ∧
      (MemAccess.txn params ⟨0x40000010#32, .write 7#32, 4⟩).map (decode Layout.default) = some (.ok (.idrW 7#32)) ∧
      (MemAccess.txn params ⟨0x40000018#32, .write 0xAA#32, 4⟩).map (decode Layout.default) =
        some (.ok (.addrW 0xAA#32)) ∧
      (MemAccess.txn params ⟨0x40000088#32, .read, 4⟩).map (decode Layout.default) = some (.ok .eccsrR) := by decide

/-- V60 to V65 at the addresses of §2.4. -/
theorem test_decode_commands :
    (MemAccess.txn params ⟨0x50C003FC#32, .write 0#32, 4⟩).map (decode Layout.default) =
        some (.ok (.nfcCmdA0 0x00C003FC#32 0#32)) ∧
      (MemAccess.txn params ⟨0x50C80240#32, .write 0#32, 4⟩).map (decode Layout.default) =
        some (.ok (.nfcCmdA1 0x00C80240#32 0#32)) ∧
      (MemAccess.txn params ⟨0x50D78014#32, .write 0x810#32, 4⟩).map (decode Layout.default) =
        some (.ok (.nfcCmdA2 0x00D78014#32 0x810#32)) ∧
      (MemAccess.txn params ⟨0x50DF4180#32, .write 0x1240#32, 4⟩).map (decode Layout.default) =
        some (.ok (.nfcCmdA3 0x00DF4180#32 0x1240#32)) ∧
      (MemAccess.txn params ⟨0x52E4C000#32, .write 0x44332211#32, 4⟩).map (decode Layout.default) =
        some (.ok (.nfcCmdA4 0x02E4C000#32 0x44332211#32)) ∧
      (MemAccess.txn params ⟨0x52ECC000#32, .write 0x44332211#32, 4⟩).map (decode Layout.default) =
        some (.ok (.nfcCmdA5 0x02ECC000#32 0x44332211#32)) := by decide

/-- V66 to V71, and a read at the last word of window (c). -/
theorem test_decode_more_commands :
    decode Layout.default (writeTxn (.cmd 0x06E80200#32) 1#32) = .ok (.nfcCmdA5 0x06E80200#32 1#32) ∧
      decode Layout.default (writeTxn (.cmd 0x00C00040#32) 0#32) = .ok (.nfcCmdA0 0x00C00040#32 0#32) ∧
      decode Layout.default (writeTxn (.cmd 0x00F4C000#32) 0#32) = .ok (.nfcCmdRsv6 0x00F4C000#32 0#32) ∧
      decode Layout.default (writeTxn (.cmd 0x00F80000#32) 0#32) = .ok (.nfcCmdRsv7 0x00F80000#32 0#32) ∧
      decode Layout.default (writeTxn (.cmd 0x00C003FE#32) 0#32) = .error .commandBits ∧
      decode Layout.default (writeTxn (.cmd 0x08C003FC#32) 0#32) = .error .commandBits ∧
      decode Layout.default (readTxn (.cmd 0x07FFFFFC#32)) = .ok (.hstatR 0x07FFFFFC#32) := by decide

/-- The five rows of window (a), named by register and chip select (30_encoding.md R96). -/
theorem test_decode_chip_selects :
    decode Layout.default (writeTxn (.cs 2 .setup) 1#32) = .ok (.csSetupW 2 1#32) ∧
      decode Layout.default (writeTxn (.cs 2 .pulse) 1#32) = .ok (.csPulseW 2 1#32) ∧
      decode Layout.default (writeTxn (.cs 2 .cycle) 1#32) = .ok (.csCycleW 2 1#32) ∧
      decode Layout.default (writeTxn (.cs 2 .timings) 1#32) = .ok (.csTimingsW 2 1#32) ∧
      decode Layout.default (writeTxn (.cs 2 .mode) 1#32) = .ok (.csModeW 2 1#32) ∧
      MemAccess.txn params ⟨0x40001038#32, .write 1#32, 4⟩ = some (writeTxn (.cs 2 .mode) 1#32) := by decide

/-- V38: the offsets and directions no rule admits. -/
theorem test_decode_refuses_unmapped :
    decode Layout.default (readTxn (.reg 0x004#32)) = .error .direction ∧
      decode Layout.default (readTxn (.reg 0x010#32)) = .error .direction ∧
      decode Layout.default (readTxn (.reg 0x018#32)) = .error .direction ∧
      decode Layout.default (writeTxn (.reg 0x008#32) 0#32) = .error .direction ∧
      decode Layout.default (writeTxn (.reg 0x088#32) 0#32) = .error .direction ∧
      decode Layout.default (readTxn (.reg 0x00C#32)) = .error .unlisted ∧
      decode Layout.default (readTxn (.reg 0x014#32)) = .error .unlisted ∧
      decode Layout.default (writeTxn (.reg 0x01C#32) 0#32) = .error .unlisted ∧
      decode Layout.default (readTxn (.cs 0 .mode)) = .error .direction := by decide

/-- 20_memory.md R67, R77: width, alignment, and an address outside the three windows. -/
theorem test_decode_refuses_width_and_alignment :
    decode Layout.default ⟨.reg 0x008#32, .read, 2⟩ = .error .width ∧
      decode Layout.default (readTxn (.reg 0x00A#32)) = .error .misaligned ∧
      decode Layout.default (readTxn (.cmd 0x00000002#32)) = .error .notStatusOffset ∧
      MemAccess.txn params ⟨0x60000000#32, .read, 4⟩ = none ∧
      why (runMem ⟨0x60000000#32, .read, 4⟩ ready) = some .outsideBlock := by decide

/-- The encoder answers the words above. -/
theorem test_encode :
    encode Layout.default (.nfcCmdA5 0x02ECC000#32 0x44332211#32) = ⟨.cmd 0x02ECC000#32, .write 0x44332211#32, 4⟩ ∧
      encode Layout.default .eccsrR = ⟨.reg 0x088#32, .read, 4⟩ ∧
      encode Layout.default (.addrW 0xAA#32) = ⟨.reg 0x018#32, .write 0xAA#32, 4⟩ := by decide

/-- Opcode-table words (notes/assumptions/10.md). -/
theorem test_table_words :
    decodeTableWord 32 0x00280000 = some (.nfcCmdA5 0x00280000#32 0#32) ∧ decodeTableWord 32 0x8 = some .srR ∧
      decodeTableWord 32 0x18 = some (.addrW 0#32) ∧ decodeTableWord 32 0 = some (.cfgW 0#32) ∧
      decodeTableWord 32 0x00280003 = none := by decide

/-- A table word is the first transaction after reset. -/
theorem test_fetch_word :
    got (step (off.withFetchWord 32 0x00280000)) (fun s => s.blk.phase) = some .issue ∧
      got (step (off.withFetchWord 32 0x00380000)) (fun s => s.blk.fault.badCycleCount) = some true := by decide

/- Operand forms. -/

/-- V40 to V45. -/
theorem test_pack_short :
    pack 0 [] = some (none, 0#32) ∧ pack 1 [0xFF#8] = some (none, 0xFF#32) ∧
      pack 2 [0x10#8, 0x08#8] = some (none, 0x810#32) ∧
      pack 3 [0x40#8, 0x12#8, 0x00#8] = some (none, 0x1240#32) := by decide

/-- V48, V49, V50, V53, V54. -/
theorem test_pack_long :
    pack 4 [0x80#8, 0x00#8, 0x00#8, 0x80#8] = some (none, 0x80000080#32) ∧
      pack 5 [0xAA#8, 0x11#8, 0x22#8, 0x33#8, 0x44#8] = some (some 0xAA#8, 0x44332211#32) ∧
      pack 5 [0x00#8, 0x00#8, 0x34#8, 0x12#8, 0x00#8] = some (some 0x00#8, 0x00123400#32) ∧
      pack 2 [0x10#8, 0x08#8, 0x99#8] = some (none, 0x810#32) ∧ pack 3 [0x10#8, 0x08#8] = none := by decide

/-- V47, V49, V51: the cycles of a packed word. -/
theorem test_cycles :
    cycles 4 0x5A#8 0x44332211#32 = [0x11#8, 0x22#8, 0x33#8, 0x44#8] ∧
      cycles 5 0xAA#8 0x44332211#32 = [0xAA#8, 0x11#8, 0x22#8, 0x33#8, 0x44#8] ∧
      cycles 0 0xAA#8 0#32 = [] := by decide

/-- V60 to V66: command words from their fields. -/
theorem test_command_words :
    commandWord Layout.default 0xFF#8 0#8 false 0#32 3#32 false false = 0x00C003FC#32 ∧
      commandWord Layout.default 0x05#8 0xE0#8 true 2#32 3#32 false false = 0x00D78014#32 ∧
      commandWord Layout.default 0x60#8 0xD0#8 true 3#32 3#32 false false = 0x00DF4180#32 ∧
      commandWord Layout.default 0x80#8 0#8 false 5#32 3#32 true true = 0x06E80200#32 := by decide

/-- V106, V107: the bus cycles. -/
theorem test_bus :
    bus Layout.default 0x02E4C000#32 [0x11#8, 0x22#8] =
        [.cmdCycle 0x00#8, .addrCycle 0x11#8, .addrCycle 0x22#8, .cmdCycle 0x30#8] ∧
      bus Layout.default 0x00C003FC#32 [] = [.cmdCycle 0xFF#8] := by decide

/-- V106, V107: the cycles go to the chip select the word names, 3 here, and to no other. -/
theorem test_received :
    chipSelect Layout.default 0x02E4C000#32 = 3 ∧
      received Layout.default 3 [.dispatched 0x00C003FC#32 [], .dispatched 0x02E4C000#32 [0x11#8], .dataDone 0x02E4C000#32] =
        [.cmdCycle 0xFF#8, .cmdCycle 0x00#8, .addrCycle 0x11#8, .cmdCycle 0x30#8] ∧
      received Layout.default 2 [.dispatched 0x00C003FC#32 []] = [] := by decide

/-- S3, V2, V4, V6: configuration words. -/
theorem test_cfgword :
    cfgword params 8192#32 448#32 false false = some 0x6F7F2004#32 ∧
      cfgword params 2048#32 64#32 true false = some 0x0F7F2202#32 ∧
      cfgword params 4096#32 224#32 true false = some 0x377F2203#32 ∧
      cfgword params 2048#32 512#32 false false = some 0x7F7F2002#32 := by decide

/-- V3, V7, V9, V10, V12. -/
theorem test_cfgword_edges :
    cfgword params 2048#32 64#32 false true = some 0x0F7F2102#32 ∧
      cfgword params 2048#32 61#32 false false = some 0x0F7F2002#32 ∧
      cfgword params 2048#32 0#32 false false = none ∧ cfgword params 2048#32 516#32 false false = none ∧
      cfgword params 0#32 64#32 false false = none := by decide

/-- S10: the device timeout. -/
theorem test_timeout : timeoutCycles params 0x0F7F2002#32 = some 15728640 := by decide

/-- S7, S8: on the test board the mode word of the NAND preset; only 8 gives the 8-bit code. -/
theorem test_mode_words :
    nandMode board.mode 8#32 = 0x00010003#32 ∧ nandMode board.mode 16#32 = 0x00011003#32 ∧
      nandMode board.mode 9#32 = 0x00011003#32 ∧ norMode board.mode 0xFFFFFFFF#32 = 0x00011003#32 := by decide

/- The transactions. -/

/-- V1, V20: stored. -/
theorem test_cfgW :
    got (exec (.cfgW 0x0F7F2002#32) ready) (fun s => s.blk.cfg) = some 0x0F7F2002#32 ∧
      got (exec (.cfgW 0x0F000002#32) ready) (fun s => s.blk.cfg) = some 0x0F000002#32 := by decide

/-- V16 to V19, V22: refused, each by its reason. -/
theorem test_cfgW_refused :
    why (exec (.cfgW 0x0F7F2302#32) ready) = some .bothSpareFlags ∧
      why (exec (.cfgW 0x0F7F2005#32) ready) = some .badPageCode ∧
      why (exec (.cfgW 0x8F7F2002#32) ready) = some .reservedBits ∧
      why (exec (.cfgW 0x0F7F2012#32) ready) = some .reservedBits ∧
      why (exec (.cfgW 0x0F7F2002#32) (busyIn .issue 0#32 0#32)) = some .configWhileBusy ∧
      why (exec (.cfgW 0x0F7F2002#32) off) = some .clockOff := by decide

/-- V21. -/
theorem test_cfgR :
    got (exec .cfgR { ready with blk.cfg := 0x0F7F2002#32 }) (fun s => s.host.rdata) = some 0x0F7F2002#32 := by decide

/-- V30 to V32, V37. -/
theorem test_idrW :
    got (exec (.idrW 0x00020000#32) { ready with blk.imr := 0x01030030#32 }) (fun s => s.blk.imr) =
        some 0x01010030#32 ∧
      got (exec (.idrW 0xFFFFFFFF#32) { busyIn .data 0#32 0#32 with blk.imr := 0x01030030#32 })
        (fun s => s.blk.imr) = some 0#32 := by decide

/-- V33: the mask hides the flag and does not clear it. -/
theorem test_idrW_hides_the_flag :
    irq Layout.default { ready.blk with imr := 0x00020000#32, cmdDone := true } = true ∧
      got (exec (.idrW 0xFFFFFFFF#32) { ready with blk.imr := 0x00020000#32, blk.cmdDone := true })
        (fun s => (irq Layout.default s.blk, s.blk.cmdDone)) = some (false, true) := by decide

/-- V34 to V36. -/
theorem test_ctrlW :
    got (exec (.ctrlW 0#32) { ready with blk.ctrl := 7#32 }) (fun s => s.blk.ctrl) = some 0#32 ∧
      why (exec (.ctrlW 1#32) ready) = some .controlNonZero ∧
      why (exec (.ctrlW 0#32) (busyIn .data 0#32 0#32)) = some .configWhileBusy := by decide

/-- V80 to V82. -/
theorem test_addrW :
    got (exec (.addrW 0xAA#32) ready) (fun s => s.blk.addr0) = some 0xAA#8 ∧
      why (exec (.addrW 0x1AA#32) ready) = some .reservedBits ∧
      why (exec (.addrW 0xAA#32) (busyIn .issue 0#32 0#32)) = some .configWhileBusy := by decide

/-- V83, V84. -/
theorem test_nfcCmdA0 :
    got (exec (.nfcCmdA0 0x00C003FC#32 0#32) ready) (fun s => (s.blk.phase, s.blk.curCmd, s.blk.curAddr0)) =
        some (.issue, 0x00C003FC#32, 0x5A#8) ∧
      why (exec (.nfcCmdA0 0x00C003FC#32 1#32) ready) = some .unusedLaneNonZero := by decide

/-- V85. -/
theorem test_nfcCmdA1 :
    got (exec (.nfcCmdA1 0x00C80240#32 0xFF#32) ready) (fun s => s.blk.curAddr) = some 0xFF#32 ∧
      why (exec (.nfcCmdA1 0x00C80240#32 0x100#32) ready) = some .unusedLaneNonZero := by decide

/-- V86. -/
theorem test_nfcCmdA2 :
    got (exec (.nfcCmdA2 0x00D78014#32 0x810#32) ready) (fun s => s.blk.curAddr) = some 0x810#32 ∧
      why (exec (.nfcCmdA2 0x00D78014#32 0x10810#32) ready) = some .unusedLaneNonZero := by decide

/-- V87. -/
theorem test_nfcCmdA3 :
    got (exec (.nfcCmdA3 0x00DF4180#32 0x1240#32) ready) (fun s => s.blk.curAddr) = some 0x1240#32 ∧
      why (exec (.nfcCmdA3 0x00DF4180#32 0x01001240#32) ready) = some .unusedLaneNonZero := by decide

/-- V88. -/
theorem test_nfcCmdA4 :
    got (exec (.nfcCmdA4 0x02E4C000#32 0x44332211#32) ready) (fun s => (s.blk.phase, s.blk.curAddr, s.blk.addr0)) =
      some (.issue, 0x44332211#32, 0x5A#8) := by decide

/-- V89, V90: the extra byte is latched, no flag is cleared. -/
theorem test_nfcCmdA5 :
    got (exec (.nfcCmdA5 0x02ECC000#32 0x44332211#32) { ready with blk.cmdDone := true, blk.xfrDone := true })
      (fun s => (s.blk.phase, s.blk.curAddr0, s.blk.cmdDone, s.blk.xfrDone)) =
      some (.issue, 0x5A#8, true, true) := by decide

/-- V91, V92, V95. -/
theorem test_overlap :
    got (exec (.nfcCmdA0 0x00C003FC#32 0#32) (busyIn .issue 0x02E4C000#32 1#32))
        (fun s => (s.blk.fault, s.blk.phase, s.blk.curCmd)) = some (⟨true, false⟩, .issue, 0x02E4C000#32) ∧
      why (exec (.nfcCmdA0 0x00C003FC#32 0#32) off) = some .clockOff := by decide

/-- V93. -/
theorem test_nfcCmdRsv6 :
    got (exec (.nfcCmdRsv6 0x00F4C000#32 0#32) ready) (fun s => (s.blk.fault, s.blk.phase, s.blk.curCmd)) =
      some (⟨false, true⟩, .idle, 0#32) := by decide

/-- V94. -/
theorem test_nfcCmdRsv7 :
    got (exec (.nfcCmdRsv7 0x00F80000#32 0#32) (busyIn .data 0#32 0#32)) (fun s => (s.blk.fault, s.blk.phase)) =
      some (⟨true, true⟩, .data) := by decide

/-- V122, V123, V125: the defined bits, whatever the drawn word. -/
theorem test_status_word :
    statusWord Layout.default { (busyIn .data 0#32 0#32).blk with cmdDone := true } 0xFFFFFFFF#32 &&& 0x01030130#32 =
        0x00020100#32 ∧
      statusWord Layout.default { ready.blk with cmdDone := true, xfrDone := true } 0#32 = 0x00030000#32 ∧
      statusWord Layout.default { ready.blk with rbFall := true, rbRise := true, rbEdge0 := true } 0xFFFFFFFF#32 &&&
          0x01030130#32 = 0x01000030#32 := by decide

/-- V125: the read clears the five flags and not the phase. -/
theorem test_srR :
    got (exec .srR { busyIn .data 0#32 0#32 with
        blk.cmdDone := true, blk.xfrDone := true, blk.rbFall := true, blk.rbRise := true, blk.rbEdge0 := true })
      (fun s => (s.blk.quiet, s.blk.phase)) = some (true, .data) := by decide

/-- V127, V128. -/
theorem test_hstatR :
    hostStatusWord Layout.default (busyIn .issue 0#32 0#32).blk 0#32 = 0x08000000#32 ∧
      hostStatusWord Layout.default ready.blk 0xFFFFFFFF#32 &&& 0x08000000#32 = 0#32 ∧
      got (exec (.hstatR 0#32) { ready with blk.cmdDone := true }) (fun s => s.blk.cmdDone) = some true := by decide

/-- V129, V130. -/
theorem test_eccsrR :
    eccStatusWord Layout.default { ready.blk with eccBusy := true } 0#32 = 1#32 ∧
      eccStatusWord Layout.default ready.blk 0xFFFFFFFF#32 &&& 1#32 = 0#32 ∧
      got (exec .eccsrR { ready with blk.cmdDone := true }) (fun s => s.blk.cmdDone) = some true := by decide

/-- R111, R112: one register of one chip select. -/
theorem test_chip_selects :
    got (exec (.csSetupW 3 1#32) ready) (fun s => s.t[3]?) = some (some ⟨1#32, 0#32, 0#32, 0#32, 0#32⟩) ∧
      got (exec (.csPulseW 0 2#32) ready) (fun s => s.t[0]?) = some (some ⟨0#32, 2#32, 0#32, 0#32, 0#32⟩) ∧
      got (exec (.csCycleW 1 3#32) ready) (fun s => s.t[1]?) = some (some ⟨0#32, 0#32, 3#32, 0#32, 0#32⟩) ∧
      got (exec (.csTimingsW 2 4#32) ready) (fun s => s.t[2]?) = some (some ⟨0#32, 0#32, 0#32, 4#32, 0#32⟩) ∧
      got (exec (.csModeW 3 5#32) ready) (fun s => s.t[3]?) = some (some ⟨0#32, 0#32, 0#32, 0#32, 5#32⟩) := by decide

/-- U3: an index that does not exist. -/
theorem test_chip_select_range :
    why (exec (.csSetupW 4 1#32) ready) = some .chipSelectRange ∧
      got (exec (.csSetupW 3 1#32) ready) (fun s => s.t[2]?) = some (some CsRegs.zero) := by decide

/- The other agents' steps and the host's. -/

/-- V100, V101, V103: what is dispatched. -/
theorem test_dispatch :
    got (step { busyIn .issue 0x02ECC000#32 0x44332211#32 with agenda := [.seqDispatch] })
        (fun s => (s.blk.trace, s.blk.cmdDone, s.blk.phase)) =
        some ([.dispatched 0x02ECC000#32 [0x5A#8, 0x11#8, 0x22#8, 0x33#8, 0x44#8]], true, .data) ∧
      got (step { busyIn .issue 0x00C003FC#32 0#32 with agenda := [.seqDispatch] })
        (fun s => (s.blk.trace, s.blk.phase)) = some ([.dispatched 0x00C003FC#32 []], .idle) := by decide

/-- V102, V104. -/
theorem test_transfer :
    got (step { busyIn .data 0x02E4C000#32 0#32 with agenda := [.seqXfer] })
        (fun s => (s.blk.trace, s.blk.xfrDone, s.blk.phase)) = some ([.dataDone 0x02E4C000#32], true, .idle) ∧
      stop (step { ready with agenda := [.seqDispatch] }) = some .dispatchNotEnabled ∧
      stop (step { ready with agenda := [.seqXfer] }) = some .xferNotEnabled ∧
      stop (step ready) = some .quiescent ∧ stop (step { ready with agenda := [.host] }) = some .hostHasNoStep := by
  decide

/-- V140 to V144, with edge detection enabled. -/
theorem test_pin :
    got (step { ready with blk.cfg := 0x2000#32, agenda := [.envRb false] })
        (fun s => (s.blk.rbLevel, s.blk.rbFall, s.blk.rbRise, s.blk.rbEdge0)) = some (false, true, false, false) ∧
      got (step { ready with blk.cfg := 0x2000#32, blk.rbLevel := false, agenda := [.envRb true] })
        (fun s => (s.blk.rbLevel, s.blk.rbFall, s.blk.rbRise, s.blk.rbEdge0)) = some (true, false, true, true) ∧
      got (step { ready with blk.cfg := 0x2000#32, agenda := [.envRb true] }) (fun s => s.blk.rbRise) = some false ∧
      isEdge0 .falling false = true := by decide

/-- V145, V147: with edge detection disabled only the level and the other flags are fixed. -/
theorem test_pin_without_edges :
    got (step { ready with agenda := [.envRb false] }) (fun s => (s.blk.rbLevel, s.blk.rbRise, s.blk.rbEdge0)) =
        some (false, false, false) ∧
      got (step { ready with agenda := [.envEcc true] }) (fun s => s.blk.eccBusy) = some true := by decide

/-- V11, V12, V9: how `configure_sequencer` ends without a transaction. -/
theorem test_configure_stops :
    got (step (calling ready [.configureSequencer 777#32 64#32 true true] [.host])) (fun s => s.host.outcome) =
        some (some .invariantViolation) ∧
      got (step (calling ready [.configureSequencer 0#32 64#32 false false] [.host])) (fun s => s.host.outcome) =
        some (some .unsupportedConfiguration) ∧
      got (step (calling ready [.configureSequencer 2048#32 0#32 false false] [.host])) (fun s => s.blk.refused) =
        some (some .spareSizeRange) := by decide

/-- V195: the extra-address register first, then the command. -/
theorem test_encode_command :
    got (step (inside ready [.encodeCommand 0x02ECC000#32 [0xAA#8, 0x11#8, 0x22#8, 0x33#8, 0x44#8]] [.host]))
      (fun s => s.host.ops) =
      some [.access (writeTxn (.reg 0x018#32) 0xAA#32), .access (writeTxn (.cmd 0x02ECC000#32) 0x44332211#32)] := by
  decide

/-- V196, V198. -/
theorem test_encode_command_stops :
    got (step (inside ready [.encodeCommand 0x00F4C000#32 [0#8, 0#8, 0#8, 0#8, 0#8]] [.host]))
        (fun s => (s.host.outcome, s.host.ops.isEmpty)) = some (some .invariantViolation, true) ∧
      got (step (inside ready [.encodeCommand 0x00DF4180#32 [0x40#8, 0x12#8]] [.host])) (fun s => s.blk.refused) =
        some (some .shortAddressBytes) := by decide

/-- R118: the clock gate; another peripheral's is nothing to this block (notes/assumptions/19.md). -/
theorem test_clock_gate :
    got (step (calling off [.clken] [.host, .host])) (fun s => s.host.ops) = some [.enablePeripheral 5] ∧
      got (step (inside off [.enablePeripheral 5] [.host])) (fun s => s.blk.clockOn) = some true ∧
      got (step (inside off [.enablePeripheral 6] [.host])) (fun s => s.blk.clockOn) = some false := by decide

/-- R45: a refused transaction leaves the sticky mark, and the marked state only refuses. -/
theorem test_mark :
    got (step (inside off [.access (readTxn (.reg 0x008#32))] [.host])) (fun s => s.blk.refused) =
        some (some .clockOff) ∧
      why (step { ready with blk.refused := some .unmapped, agenda := [.envEcc true] }) = some .unmapped := by decide

/- Witnesses: for every obligation with hypotheses, a state and operands that meet all of them, for each of its clauses
that has a condition of its own. -/

theorem witness_EncodeThenDecodeReturnsInstruction :
    Layout.default.Wf ∧ (Instr.nfcCmdA5 0x06E80200#32 1#32).wf Layout.default = true ∧
      (Instr.hstatR 0x07FFFFFC#32).wf Layout.default = true ∧ Instr.srR.wf Layout.default = true ∧
      (Instr.csModeW 3 1#32).wf Layout.default = true := ⟨test_layout_wf, by decide⟩

theorem witness_DecodeThenEncodeReturnsTransaction :
    decode Layout.default ⟨.cmd 0x00F80000#32, .write 1#32, 4⟩ = .ok (.nfcCmdRsv7 0x00F80000#32 1#32) := by decide

theorem witness_NarrowOrMisalignedAccessIsRefused :
    (⟨.reg 0x008#32, .read, 2⟩ : Txn).size ≠ 4 ∧ (readTxn (.cmd 2#32)).target.misaligned = true ∧
      decode ready.par.layout (readTxn (.reg 0x008#32)) = .ok .srR ∧ ready.par.Wf ∧
      (⟨0x40000008#32, .read, 1⟩ : MemAccess).size ≠ 4 ∧
      (⟨0x40000003#32, .read, 4⟩ : MemAccess).addr &&& 3#32 ≠ 0#32 :=
  ⟨by decide, by decide, by decide, test_params_wf, by decide, by decide⟩

theorem witness_PackThenCyclesReturnsTheBytes :
    (5 ≤ 5 ∧ [1#8, 2#8, 3#8, 4#8, 5#8].length = 5) ∧ 0 ≤ 5 ∧ ([] : List Byte).length = 0 := by decide

theorem witness_PackedWordsUseNoHigherLane :
    lanesOk 5 0xFFFFFFFF#32 = true ∧ lanesOk 1 0xFF#32 = true ∧ lanesOk 1 0x100#32 = false ∧
      pack 5 [1#8, 2#8, 3#8, 4#8, 5#8] = some (some 1#8, 0x05040302#32) := by decide

theorem witness_CyclesThenPackReturnsTheWord : (5 ≤ 5 ∧ lanesOk 5 0xFFFFFFFF#32 = true) ∧ lanesOk 0 0#32 = true := by
  decide

theorem witness_CommandWordHoldsItsFields :
    Layout.default.Wf ∧ Layout.default.cwAcycle.fits 7#32 = true ∧ Layout.default.cwCsid.fits 7#32 = true :=
  ⟨test_layout_wf, by decide⟩

theorem witness_BusCyclesOfACommand :
    Layout.default.Wf ∧ Layout.default.cwAcycle.fits 0#32 = true ∧ Layout.default.cwCsid.fits 0#32 = true :=
  ⟨test_layout_wf, by decide⟩

theorem witness_ConfigurationWordHoldsItsFields :
    params.layout.Wf ∧ params.behaviour.Wf params.layout ∧
      cfgword params 8192#32 512#32 false true = some 0x7F7F2104#32 := ⟨test_layout_wf, test_behaviour_wf, by decide⟩

theorem witness_SpareFieldRoundsUpToFourBytes : 1#32 ≠ 0#32 ∧ 0xFFFFFFFF#32 ≠ 0#32 := by decide

/-- The gap is the word behind the last register of window (a); the addresses outside are the one behind window (c) and
the one before window (a), which is inside no window either. -/
theorem witness_AddressesResolveToTheirWindow :
    params.Wf ∧ (0x088#32 ∈ params.layout.regOffsets ∧ (0xFF#32).toNat < params.board.regLen) ∧
      (params.layout.cmdBitsOk 0x07FFFFFC#32 = true ∧ (0x07FFFFFF#32).toNat < 2 ^ params.layout.cmdWindowBits) ∧
      params.board.csOffsets[3]? = some (csAt 3) ∧
      ((0x50#32).toNat < params.board.csLen ∧ ∀ o ∈ [csAt 0, csAt 1, csAt 2, csAt 3],
        0x50#32 ≠ o.setup ∧ 0x50#32 ≠ o.pulse ∧ 0x50#32 ≠ o.cycle ∧ 0x50#32 ≠ o.timings ∧ 0x50#32 ≠ o.mode) ∧
      (∀ a ∈ [0x58000000, 0x40000FFF], (a < params.board.regBase.toNat ∨ params.board.regBase.toNat + params.board.regLen ≤ a) ∧
        (a < params.board.cmdBase.toNat ∨ params.board.cmdBase.toNat + 2 ^ params.layout.cmdWindowBits ≤ a) ∧
        (a < params.board.csBase.toNat ∨ params.board.csBase.toNat + params.board.csLen ≤ a)) :=
  ⟨test_params_wf, by decide, by decide, by decide, by decide, by decide⟩

theorem witness_NothingRunsBeforeTheClock :
    (∃ t, step { ready with agenda := [.envEcc true] } = .next t) ∧ ready.blk.clockOn = true ∧
      off.blk.clockOn = false := ⟨⟨_, rfl⟩, by decide⟩

theorem reserved_free {v : Word} (h : v &&& ~~~ Layout.default.cfgDefined = 0#32) :
    ¬ Layout.default.reservedBitSet v := by
  rintro ⟨i, hi, hf⟩
  have hlt : i < 32 := by
    by_contra hge
    rw [BitVec.getLsbD_of_ge v i (by omega)] at hi
    cases hi
  have hm := (and_not_eq_zero_iff _ _).1 h i hlt hi
  rw [Layout.cfgDefined, getLsbD_maskOf, List.any_eq_true] at hm
  obtain ⟨f, hfm, hfi⟩ := hm
  rw [Field.getLsbD_mask] at hfi
  simp only [Bool.and_eq_true, decide_eq_true_eq] at hfi
  exact hf f hfm hfi.1

theorem no_page_code {p : Params} {v : Word} (h : p.behaviour.isPageCode (p.layout.cfgPagesize.get v) = false) :
    ¬ p.pageCodeKnown v := by
  rintro ⟨size, hs, hl⟩
  rw [Behaviour.isPageCode, List.any_eq_false] at h
  exact h size hs (by rw [hl]; exact beq_self_eq_true _)

theorem witness_ConfigWriteStoresOnlyALegalWord :
    (ready.blk.clockOn = true ∧ ready.blk.phase = .idle ∧ ready.par.layout = Layout.default) ∧
      (busyIn .data 0#32 0#32).blk.phase ≠ .idle ∧ off.blk.clockOn = false ∧
      Layout.default.reservedBitSet 0x8F7F2002#32 ∧
      (¬ Layout.default.reservedBitSet 0x0F7F2302#32 ∧ Layout.default.bothSpareFlags 0x0F7F2302#32) ∧
      (¬ Layout.default.reservedBitSet 0x0F7F2005#32 ∧ ¬ Layout.default.bothSpareFlags 0x0F7F2005#32 ∧
        ¬ params.pageCodeKnown 0x0F7F2005#32) ∧
      (¬ Layout.default.reservedBitSet 0x0F7F2004#32 ∧ ¬ Layout.default.bothSpareFlags 0x0F7F2004#32 ∧
        params.pageCodeKnown 0x0F7F2004#32) :=
  ⟨by decide, by decide, by decide, ⟨31, by decide, by decide⟩,
    ⟨reserved_free (by decide), by unfold Layout.bothSpareFlags; decide⟩,
    ⟨reserved_free (by decide), by unfold Layout.bothSpareFlags; decide, no_page_code (by decide)⟩,
    ⟨reserved_free (by decide), by unfold Layout.bothSpareFlags; decide, 8192#32, by decide, by decide⟩⟩

theorem witness_LegalConfigurationWordsByDefault :
    ready.par.layout = Layout.default ∧ ready.par.behaviour = Behaviour.default ∧ ready.blk.clockOn = true ∧
      ready.blk.phase = .idle ∧
      (0x7F7F2204#32 &&& 0x8080DCF8#32 = 0#32 ∧ 0x7F7F2204#32 &&& 0x00000300#32 ≠ 0x00000300#32 ∧
        (0x7F7F2204#32 &&& 7#32).toNat ≤ 4) ∧
      0x7F7F2304#32 &&& 0x00000300#32 = 0x00000300#32 ∧ ¬ (0x0F7F2005#32 &&& 7#32).toNat ≤ 4 :=
  ⟨rfl, rfl, by decide⟩

theorem witness_ConfigReadReturnsTheStoredWord :
    off.blk.clockOn = false ∧ ready.blk.clockOn = true ∧ ∃ t, exec (.cfgW 0x0F7F2002#32) ready = .next t :=
  ⟨rfl, rfl, _, rfl⟩

theorem witness_InterruptDisableClearsTheSelectedSources :
    off.blk.clockOn = false ∧ { ready with blk.imr := 0x01030030#32 }.blk.clockOn = true := by decide

theorem witness_ControlWriteClearsOnlyWhenIdle :
    off.blk.clockOn = false ∧ (ready.blk.clockOn = true ∧ ready.blk.phase = .idle) ∧ 1#32 ≠ 0#32 ∧
      (busyIn .issue 0#32 0#32).blk.clockOn = true ∧ (busyIn .issue 0#32 0#32).blk.phase ≠ .idle := by decide

theorem witness_ExtraAddressWriteStoresOneByte :
    off.blk.clockOn = false ∧ (ready.blk.clockOn = true ∧ ready.blk.phase = .idle) ∧
      (busyIn .issue 0#32 0#32).blk.phase ≠ .idle ∧ (∃ i, 8 ≤ i ∧ (0x100#32).getLsbD i = true) ∧
      (∀ i, 8 ≤ i → (0xFF#32).getLsbD i = false) ∧
      (∃ u, step (inside ready [.access (writeTxn (.reg 0x018#32) 0xAA#32)] [.host]) = .next u ∧
        u.blk.addr0 ≠ ready.blk.addr0) ∧ 4 < 5 :=
  ⟨by decide, by decide, by decide, ⟨8, by decide⟩, (ushiftRight_eq_zero_iff _ _).1 (by decide),
    ⟨_, rfl, by decide⟩, by decide⟩

theorem witness_CommandIsAcceptedOnlyIntoAFreeSlot :
    off.blk.clockOn = false ∧ (ready.blk.clockOn = true ∧ ready.blk.phase = .idle) ∧
      ((busyIn .data 0#32 0#32).blk.clockOn = true ∧ (busyIn .data 0#32 0#32).blk.phase ≠ .idle) ∧
      ready.par.layout = Layout.default ∧ Layout.default.cmdBitsOk 0x00C003FE#32 = false ∧
      (Layout.default.cmdBitsOk 0x00C80240#32 = true ∧ Layout.default.acycle 0x00C80240#32 = 1) ∧
      (∃ k, 8 * 1 ≤ k ∧ (0x100#32).getLsbD k = true) ∧ ¬ ∃ k, 8 * 1 ≤ k ∧ (0xFF#32).getLsbD k = true :=
  ⟨by decide, by decide, by decide, rfl, by decide, by decide, ⟨8, by decide⟩, by
    rintro ⟨k, hk, h⟩
    rw [(ushiftRight_eq_zero_iff 0xFF#32 8).1 (by decide) k hk] at h
    cases h⟩

theorem witness_OverlapIsRecordedAndNothingElse :
    ((busyIn .issue 0#32 0#32).blk.clockOn = true ∧ (busyIn .issue 0#32 0#32).blk.phase ≠ .idle) ∧
      (Layout.default.cmdBitsOk 0x06E80200#32 = true ∧ Layout.default.acycle 0x06E80200#32 = 5) ∧
      (Layout.default.cmdBitsOk 0x00F4C000#32 = true ∧ Layout.default.acycle 0x00F4C000#32 = 6) ∧
      Layout.default.cmdBitsOk 0x00F80000#32 = true ∧ Layout.default.acycle 0x00F80000#32 = 7 := by decide

theorem witness_ReservedCountsRecordBadCycleCount :
    off.blk.clockOn = false ∧ (ready.blk.clockOn = true ∧ ready.blk.phase = .idle) ∧
      (busyIn .data 0#32 0#32).blk.phase ≠ .idle ∧ ready.par.layout.cmdBitsOk 0x00F4C000#32 = true ∧
      ready.par.layout.acycle 0x00F4C000#32 = 6 ∧ ready.par.layout.cmdBitsOk 0x00F80000#32 = true ∧
      ready.par.layout.acycle 0x00F80000#32 = 7 := by decide

theorem witness_StatusReadSamplesThenClearsTheEvents :
    ready.par.layout.Wf ∧ ready.blk.clockOn = true ∧ off.par.layout.Wf ∧ off.blk.clockOn = false :=
  ⟨test_layout_wf, rfl, test_layout_wf, rfl⟩

theorem witness_SecondStatusReadReturnsNoEvent :
    { ready with blk.cmdDone := true }.par.layout.Wf ∧
      ∃ t u, exec .srR { ready with blk.cmdDone := true } = .next t ∧ exec .srR t = .next u :=
  ⟨test_layout_wf, _, _, rfl, rfl⟩

theorem witness_HostStatusReadShowsTheOccupiedSlot :
    (busyIn .issue 0#32 0#32).par.layout.Wf ∧ (busyIn .issue 0#32 0#32).blk.clockOn = true ∧ off.par.layout.Wf ∧
      off.blk.clockOn = false := ⟨test_layout_wf, rfl, test_layout_wf, rfl⟩

theorem witness_EccStatusReadShowsTheBusyInput :
    { ready with blk.eccBusy := true }.par.layout.Wf ∧ { ready with blk.eccBusy := true }.blk.clockOn = true ∧
      off.par.layout.Wf ∧ off.blk.clockOn = false := ⟨test_layout_wf, rfl, test_layout_wf, rfl⟩

theorem witness_ChipSelectWriteStoresOneRegister :
    off.blk.clockOn = false ∧ ready.blk.clockOn = true ∧ ready.par.board.nCs ≤ 4 ∧ 3 < ready.par.board.nCs ∧
      ready.t.length = ready.par.board.nCs := by decide

/-- Each register changes in its own transaction. -/
theorem witness_EachRegisterIsWrittenByItsOwnTransaction :
    got (exec (.cfgW 0x0F7F2002#32) ready) (fun t => t.blk.cfg) = some 0x0F7F2002#32 ∧
      got (exec (.ctrlW 0#32) { ready with blk.ctrl := 1#32 }) (fun t => t.blk.ctrl) = some 0#32 ∧
      got (exec (.idrW 1#32) { ready with blk.imr := 1#32 }) (fun t => t.blk.imr) = some 0#32 ∧
      got (exec (.addrW 1#32) ready) (fun t => t.blk.addr0) = some 1#8 ∧
      got (exec .srR { ready with blk.rbFall := true }) (fun t => (t.blk.rbFall, t.draws)) = some (false, 1) ∧
      got (exec (.nfcCmdA4 0x02E4C000#32 1#32) ready) (fun t => t.blk.phase) = some .issue ∧
      got (exec (.nfcCmdRsv6 0x00F4C000#32 0#32) ready) (fun t => t.blk.fault) = some ⟨false, true⟩ ∧
      got (exec .cfgR { ready with blk.cfg := 1#32 }) (fun t => t.host.rdata) = some 1#32 ∧
      got (exec (.csModeW 0 1#32) ready) (fun t => t.t[0]?) = some (some ⟨0#32, 0#32, 0#32, 0#32, 1#32⟩) := by decide

theorem witness_StepRunsTheDecodedTransaction :
    let s := inside ready [.access (writeTxn (.reg 0x018#32) 0xAA#32)] [.host]
    let bad := inside ready [.access (writeTxn (.reg 0x004#32) 1#32)] [.host]
    (s.blk.refused = none ∧ s.nextTurn = some .host ∧ s.host.outcome = none ∧
      decode s.par.layout (writeTxn (.reg 0x018#32) 0xAA#32) = .ok (.addrW 0xAA#32) ∧
      ∃ t, exec (.addrW 0xAA#32) { s with agenda := s.agenda.tail, host.ops := [] } = .next t) ∧
    (bad.blk.refused = none ∧ bad.nextTurn = some .host ∧ bad.host.outcome = none ∧
      decode bad.par.layout (writeTxn (.reg 0x004#32) 1#32) = .ok (.ctrlW 1#32) ∧
      exec (.ctrlW 1#32) { bad with agenda := bad.agenda.tail, host.ops := [] } = .refused .controlNonZero) :=
  ⟨⟨rfl, rfl, rfl, by decide, _, rfl⟩, rfl, rfl, rfl, by decide, rfl⟩

theorem witness_MarkedRunOnlyRefuses :
    ∃ t, step (inside off [.access (readTxn (.reg 0x008#32))] [.host]) = .next t ∧
      t.blk.refused = some .clockOff := ⟨_, rfl, rfl⟩

theorem witness_DispatchIssuesTheWholeCommand :
    let s : State := { busyIn .issue 0x02ECC000#32 0x44332211#32 with agenda := [.seqDispatch] }
    s.blk.refused = none ∧ s.agenda = [.seqDispatch] ∧ s.blk.phase = .issue ∧
      { s with blk.phase := .data }.blk.phase ≠ .issue := by decide

theorem witness_TransferEndsTheDataPhase :
    let s : State := { busyIn .data 0x02E4C000#32 0#32 with agenda := [.seqXfer] }
    s.blk.refused = none ∧ s.agenda = [.seqXfer] ∧ s.blk.phase = .data ∧
      { s with blk.phase := .idle }.blk.phase ≠ .data := by decide

theorem witness_PinEdgeSetsItsFlags :
    let s (l : Bool) : State := { ready with agenda := [.envRb l], blk.cfg := 0x2000#32 }
    (s true).blk.refused = none ∧ true = (s true).blk.rbLevel ∧
      (false ≠ (s false).blk.rbLevel ∧ (s false).par.layout.cfgRbedge.bit (s false).blk.cfg = true) ∧
      { s false with blk.cfg := 0#32 }.par.layout.cfgRbedge.bit { s false with blk.cfg := 0#32 }.blk.cfg = false := by
  decide

theorem witness_EccInputTakesAnyValue :
    { ready with agenda := [.envEcc true] }.blk.refused = none ∧
      { ready with agenda := [.envEcc true] }.agenda = [.envEcc true] := by decide

theorem witness_DispatchReachesOnlyTheNamedChipSelect :
    let s := busyIn .issue 0x02ECC000#32 0x44332211#32
    (∃ t, step s = .next t) ∧ s.nextTurn = some .seqDispatch ∧
      (s.par.layout.cwCsid.get s.blk.curCmd).toNat = 3 ∧
      ¬ (s.nextTurn = some .seqDispatch ∧ (s.par.layout.cwCsid.get s.blk.curCmd).toNat = 2) := ⟨⟨_, rfl⟩, by decide⟩

theorem witness_PhaseMovesOnlyAlongItsCycle :
    (∃ t, step (inside ready [.access (writeTxn (.cmd 0x02E4C000#32) 1#32)] [.host]) = .next t ∧
      t.blk.phase = .issue) ∧
    (∃ t, step (busyIn .issue 0x02E4C000#32 1#32) = .next t ∧ t.blk.phase = .data) ∧
    ∃ t, step (busyIn .data 0x02E4C000#32 1#32) = .next t ∧ t.blk.phase = .idle := ⟨⟨_, rfl, rfl⟩, ⟨_, rfl, rfl⟩, _, rfl, rfl⟩

/-- A status read of the host, next. -/
def reading : State := inside ready [.access (readTxn (.reg 0x008#32))] [.host]

theorem witness_CommandDoneChangesOnlyByDispatchAndStatusRead :
    (∃ t, step (busyIn .issue 0x00C003FC#32 0#32) = .next t) ∧
      (busyIn .issue 0x00C003FC#32 0#32).nextTurn = some .seqDispatch ∧ (∃ t, step reading = .next t) ∧
      reading.nextInstr = some .srR ∧ reading.blk.clockOn = true ∧ reading.nextTurn ≠ some .seqDispatch ∧
      (busyIn .issue 0x00C003FC#32 0#32).nextInstr ≠ some .srR := ⟨⟨_, rfl⟩, by decide, ⟨_, rfl⟩, by decide⟩

theorem witness_TransferDoneChangesOnlyByTransferAndStatusRead :
    (∃ t, step (busyIn .data 0x02E4C000#32 0#32) = .next t) ∧
      (busyIn .data 0x02E4C000#32 0#32).nextTurn = some .seqXfer ∧ (∃ t, step reading = .next t) ∧
      reading.nextInstr = some .srR ∧ reading.blk.clockOn = true ∧ reading.nextTurn ≠ some .seqXfer ∧
      (busyIn .data 0x02E4C000#32 0#32).nextInstr ≠ some .srR := ⟨⟨_, rfl⟩, by decide, ⟨_, rfl⟩, by decide⟩

theorem witness_ReadyBusyFlagsChangeOnlyByEdgesAndStatusRead :
    let s : State := { ready with agenda := [.envRb false], blk.cfg := 0x2000#32 }
    let r : State := { ready with agenda := [.envRb true], blk.cfg := 0x2000#32, blk.rbLevel := false }
    ((∃ t, step reading = .next t) ∧ reading.nextInstr = some .srR ∧ reading.blk.clockOn = true) ∧
      (s.nextTurn = some (.envRb false) ∧ s.blk.rbLevel = !false ∧ s.par.layout.cfgRbedge.bit s.blk.cfg = true ∧
        s.nextInstr ≠ some .srR ∧ ∃ t, step s = .next t ∧ t.blk.rbFall ≠ s.blk.rbFall) ∧
      r.nextTurn = some (.envRb true) ∧ r.par.behaviour.rbEdge0Polarity = (if true then Edge.rising else .falling) ∧
        r.blk.rbLevel = !true ∧ r.nextInstr ≠ some .srR ∧
        ∃ t, step r = .next t ∧ t.blk.rbRise ≠ r.blk.rbRise ∧ t.blk.rbEdge0 ≠ r.blk.rbEdge0 :=
  ⟨⟨⟨_, rfl⟩, by decide, rfl⟩, ⟨rfl, rfl, by decide, by decide, _, rfl, by decide⟩, rfl, by decide, by decide, by decide, _, rfl,
    by decide, by decide⟩

theorem witness_HistoryAndMarksAreNeverUndone :
    let s : State := { busyIn .issue 0x00C003FC#32 0#32 with
      blk.fault := ⟨true, true⟩, blk.trace := [.dataDone 0x02E4C000#32] }
    (∃ t, s.after 1 = .next t) ∧ s.blk.fault.overlap = true ∧ s.blk.fault.badCycleCount = true ∧
      s.blk.clockOn = true := ⟨⟨_, rfl⟩, by decide⟩

theorem witness_InterruptLineStaysLowOnceMasked :
    (∃ t, (busyIn .issue 0x02E4C000#32 0#32).after 2 = .next t) ∧ (busyIn .issue 0x02E4C000#32 0#32).blk.imr = 0#32 ∧
      ∃ t, { busyIn .issue 0x02E4C000#32 0#32 with blk.imr := 0x00020001#32 }.after 2 = .next t ∧ t.par.layout.Wf ∧
        t.blk.imr.getLsbD 0 = true ∧ t.blk.cmdDone = true ∧ t.par.layout.srCmdDone.bit t.blk.imr = true :=
  ⟨⟨_, rfl⟩, rfl, _, rfl, test_layout_wf, by decide⟩

/-- A state of a run in its data phase, and the step that ends it. -/
theorem witness_InvariantIsKeptByEveryStep :
    let w : Word := 0x02E4C000#32
    let s : State := { busyIn .data w 0x44332211#32 with
      blk.cmdDone := true, blk.trace := [.dispatched w [0x11#8, 0x22#8, 0x33#8, 0x44#8]] }
    Inv s ∧ ∃ t, step s = .next t := by
  refine ⟨⟨fun _ => by decide, fun _ => by decide, ?_, ?_, ⟨fun _ => ⟨_, _, List.mem_singleton.2 rfl⟩, by decide⟩, rfl⟩,
    _, rfl⟩
  · intro w bytes h
    cases List.mem_singleton.1 h
    decide
  · intro w h
    cases List.mem_singleton.1 h

theorem witness_ConfigurationStaysLegal :
    let s : State := { ready with blk.cfg := 0x0F7F2002#32, agenda := [.envEcc true] }
    s.par.cfgLegal s.blk.cfg = true ∧ ∃ t, s.after 1 = .next t := ⟨by decide, _, rfl⟩

theorem witness_ResetSequencerZeroesMaskAndControl :
    let s := calling { ready with blk.imr := 1#32 } [.resetSequencer, .isSequencerBusy] [.host, .host, .host, .host]
    s.par.layout.Wf ∧ s.blk.refused = none ∧ s.blk.clockOn = true ∧ s.blk.phase = .idle ∧ s.host.outcome = none ∧
      s.host.ops = [] ∧ s.host.calls = .resetSequencer :: [.isSequencerBusy] ∧
      s.agenda = .host :: .host :: .host :: [.host] := ⟨test_layout_wf, by decide⟩

theorem witness_ConfigureSequencerChecksThenWrites :
    let s := calling ready [.configureSequencer 2048#32 64#32 true false] [.host, .host]
    (s.par.layout.Wf ∧ s.par.behaviour.Wf s.par.layout) ∧
      (s.blk.refused = none ∧ s.blk.clockOn = true ∧ s.blk.phase = .idle ∧ s.host.outcome = none ∧ s.host.ops = [] ∧
        s.host.calls = .configureSequencer 2048#32 64#32 true false :: [] ∧ s.agenda = .host :: .host :: []) ∧
      (true && true) = true ∧ (true && false) = false ∧ 2049#32 ∉ s.par.behaviour.supportedPageSizes ∧
      cfgword s.par 2048#32 64#32 true false = some 0x0F7F2202#32 :=
  ⟨⟨test_layout_wf, test_behaviour_wf⟩, by decide⟩

/-- V9, V10: the spare sizes 0 and 516 set bit 7 or more of a field of seven bits. -/
theorem witness_ConfigureSequencerRefusesASpareSizeThatDoesNotFit :
    let s (n : Word) := calling ready [.configureSequencer 2048#32 n false false] [.host]
    ∀ n ∈ [0#32, 516#32], (s n).blk.refused = none ∧ (s n).host.outcome = none ∧ (s n).host.ops = [] ∧
      (s n).host.calls = .configureSequencer 2048#32 n false false :: [] ∧ (s n).agenda = .host :: [] ∧
      2048#32 ∈ (s n).par.behaviour.supportedPageSizes ∧ (s n).par.layout.cfgSparesize.width ≤ 7 ∧
      ((n - 1#32) >>> 2).getLsbD 7 = true := List.forall_mem_iff_forall_getElem.2 (by decide)

theorem witness_SparePredicatesReadTheirBit :
    let s := calling { ready with blk.cfg := 0x0F7F2202#32 } [.isSpareReadEnabled] [.host, .host]
    s.par.layout.Wf ∧ s.blk.refused = none ∧ s.blk.clockOn = true ∧ s.host.outcome = none ∧ s.host.ops = [] ∧
      s.host.calls = .isSpareReadEnabled :: [] ∧ s.agenda = .host :: .host :: [] ∧
      (calling s [.isSpareWriteEnabled] s.agenda).host.calls = .isSpareWriteEnabled :: [] :=
  ⟨test_layout_wf, by decide⟩

theorem witness_IsSequencerBusyReadsAndClears :
    let s := calling (busyIn .data 0x02E4C000#32 0#32) [.isSequencerBusy, .isSpareReadEnabled] [.host, .host]
    s.par.layout.Wf ∧ s.blk.refused = none ∧ s.blk.clockOn = true ∧ s.host.outcome = none ∧ s.host.ops = [] ∧
      s.host.calls = .isSequencerBusy :: [.isSpareReadEnabled] ∧ s.agenda = .host :: .host :: [] :=
  ⟨test_layout_wf, by decide⟩

/-- Of the seven conditions six do not hold of `ready` and `hostNotBusy` does not while the slot is occupied. -/
theorem witness_PollEndsTheWaitExactlyOnItsCondition :
    let s := inside (busyIn .issue 0x02E4C000#32 0#32) [.spin .hostNotBusy none, .spin .commandDone none] [.host]
    (s.par.layout.Wf ∧ s.blk.refused = none ∧ s.blk.clockOn = true ∧ s.host.outcome = none ∧
      s.host.ops = .spin .hostNotBusy none :: [.spin .commandDone none] ∧ s.agenda = .host :: []) ∧
      s.blk.meets .hostNotBusy = false ∧ s.blk.meets .eccReady = true := ⟨⟨test_layout_wf, by decide⟩, by decide⟩

/-- Each wait is called where the condition of its first loop is met. -/
theorem witness_WaitCallsRunTheirLoops :
    let b : Block := { ready.blk with cmdDone := true, xfrDone := true, rbFall := true, rbEdge0 := true }
    let s (call : Call) := calling { ready with blk := b } [call] [.host, .host]
    (∀ call, (s call).blk = b ∧ (s call).par.layout.Wf ∧ (s call).blk.refused = none ∧ (s call).host.outcome = none ∧
      (s call).host.ops = [] ∧ (s call).host.calls = call :: [] ∧ (s call).agenda = .host :: .host :: [] ∧
      (s call).blk.clockOn = true) ∧
    ∀ c ∈ [SpinCond.hostNotBusy, .commandDone, .transferDone, .rbFall, .rbEdge0, .eccReady], b.meets c = true :=
  ⟨fun _ => ⟨rfl, test_layout_wf, rfl, rfl, rfl, rfl, rfl, rfl⟩, by decide⟩

/-- The command is not done, the host is not busy. -/
theorem witness_BoundedWaitTimesOutAfterItsLastEvaluation :
    let s (c : SpinCond) (k : Nat) := inside ready [.spin c (some (k + 1))] [.host]
    ∀ c k, ((s c k).par.layout.Wf ∧ (s c k).blk.refused = none ∧ (s c k).blk.clockOn = true ∧
      (s c k).host.outcome = none ∧ (s c k).host.ops = .spin c (some (k + 1)) :: [] ∧ (s c k).agenda = .host :: []) ∧
      (s .commandDone k).blk.meets .commandDone = false ∧ (s .hostNotBusy k).blk.meets .hostNotBusy = true :=
  fun _ _ => ⟨⟨test_layout_wf, rfl, rfl, rfl, rfl, rfl⟩, rfl, rfl⟩

theorem witness_WaitCommandDoneWithoutCommandNeverReturns :
    let s := calling ready [.waitCommandDone] []
    s.par.layout.Wf ∧ s.par.behaviour.waitBound = none ∧ s.blk.refused = none ∧ s.blk.clockOn = true ∧
      s.blk.phase = .idle ∧ s.blk.cmdDone = false ∧ s.agenda = [] ∧ s.host.outcome = none ∧ s.host.ops = [] ∧
      s.host.calls = [.waitCommandDone] := ⟨test_layout_wf, by decide⟩

/-- P2: the device reset command, sent by the host's own routine. -/
def sending : State := calling ready [.sendCommand 0x00C003FC#32 []] []

/-- The routine of `sending` once entered: the wait, the encoding, the wait. -/
def sendingOps : List HostOp := [.spin .hostNotBusy none, .encodeCommand 0x00C003FC#32 [], .spin .commandDone none]

/-- Six steps: the call, a poll, the packing, the write, the dispatch, a poll. -/
theorem sending_returns : ∃ t, sending.after 6 = .next t ∧ t.returned = true := by
  let s1 : State := { sending with host.ops := sendingOps, host.calls := [], host.ret := none }
  have h1 : step sending = .next s1 := by rfl
  obtain ⟨r, h2⟩ := step_spin_met (s := s1) (c := .hostNotBusy) (left := none)
    (rest := [.encodeCommand 0x00C003FC#32 [], .spin .commandDone none]) test_layout_wf rfl rfl rfl rfl rfl rfl
  let s2 : State := { s1 with
    agenda := []
    host.ops := [.encodeCommand 0x00C003FC#32 [], .spin .commandDone none]
    host.rdata := r
    draws := 1 }
  let s3 : State := { s2 with host.ops := [.access (writeTxn (.cmd 0x00C003FC#32) 0#32), .spin .commandDone none] }
  have h3 : step s2 = .next s3 := by
    have hn : Layout.default.acycle 0x00C003FC#32 = 0 := by decide
    rw [step_of_op (s := s2) rfl rfl rfl rfl]
    show settle s2.dropTurn (encodeStep _ _ (State.setOps [.spin .commandDone none] s2.dropTurn)) = _
    rw [encodeStep, show (State.setOps [.spin .commandDone none] s2.dropTurn).par.layout.acycle 0x00C003FC#32 = 0 from hn]
    rfl
  let s4 : State := { s3 with
    host.ops := [.spin .commandDone none], blk := s3.blk.latch 0x00C003FC#32 0#32 }
  have h4 : step s3 = .next s4 := by
    have hd : decode Layout.default (writeTxn (.cmd 0x00C003FC#32) 0#32) = .ok (.nfcCmdA0 0x00C003FC#32 0#32) := by
      decide
    have hb : Layout.default.cmdBitsOk 0x00C003FC#32 = true := by decide
    refine step_access (s := s3) rfl rfl rfl rfl hd ?_
    rw [exec, execNfcCmdA0, accept,
      show (State.setOps [.spin .commandDone none] s3.dropTurn).par.layout.cmdBitsOk 0x00C003FC#32 = true from hb]
    rfl
  let b5 : Block := { s4.blk with
    trace := s4.blk.trace ++ [.dispatched 0x00C003FC#32 (s4.blk.commandBytes Layout.default)]
    cmdDone := true
    phase := .idle }
  have hb5 : s4.blk.dispatch Layout.default = b5 := by
    have hf : Layout.default.cwDataen.bit 0x00C003FC#32 = false := by decide
    rw [Block.dispatch, show Layout.default.cwDataen.bit s4.blk.curCmd = false from hf]
    rfl
  let s5 : State := { s4 with blk := b5 }
  have h5 : step s4 = .next s5 := (show step s4 = .next { s4 with blk := s4.blk.dispatch Layout.default } from rfl).trans
    (by rw [hb5])
  obtain ⟨q, h6⟩ := step_spin_met (s := s5) (c := .commandDone) (left := none) (rest := []) test_layout_wf rfl rfl rfl rfl
    rfl rfl
  have h := after_zero { s5 with
    agenda := [], host.ops := [], host.rdata := q, draws := 2, blk := s5.blk.clearEvents }
  exact ⟨_, (after_succ_next_iff 5 _ _).2 ⟨s1, h1, (after_succ_next_iff 4 _ _).2 ⟨s2, h2,
    (after_succ_next_iff 3 _ _).2 ⟨s3, h3, (after_succ_next_iff 2 _ _).2 ⟨s4, h4,
      (after_succ_next_iff 1 _ _).2 ⟨s5, h5, (after_succ_next_iff 0 _ _).2 ⟨_, h6, h⟩⟩⟩⟩⟩⟩, rfl⟩

theorem witness_SendCommandDispatchesExactlyItsCommand :
    sending.par.layout.Wf ∧ (sending.blk.refused = none ∧ sending.blk.clockOn = true ∧ sending.blk.phase = .idle ∧
      sending.blk.cmdDone = false ∧ sending.blk.fault.isEmpty = true ∧ sending.host.outcome = none ∧
      sending.host.ops = [] ∧ sending.host.calls = [.sendCommand 0x00C003FC#32 []] ∧
      sending.par.layout.legalCommand 0x00C003FC#32 = true ∧
      sending.par.layout.acycle 0x00C003FC#32 ≤ ([] : List Byte).length) ∧
      ∃ t, sending.after 6 = .next t ∧ t.returned = true := ⟨test_layout_wf, by decide, sending_returns⟩

theorem witness_SendCommandReturnsWhenTheSequencerIsFair :
    let s := calling ready [.sendCommand 0x02ECC000#32 [1#8, 2#8, 3#8, 4#8, 5#8]] []
    (s.par.layout.Wf ∧ s.par.behaviour.Wf s.par.layout) ∧ s.blk.refused = none ∧ s.blk.clockOn = true ∧
      s.blk.phase = .idle ∧ s.agenda = [] ∧ s.host.outcome = none ∧ s.host.ops = [] ∧
      s.host.calls = [.sendCommand 0x02ECC000#32 [1#8, 2#8, 3#8, 4#8, 5#8]] ∧
      s.par.layout.legalCommand 0x02ECC000#32 = true ∧ s.par.layout.acycle 0x02ECC000#32 ≤ 5 :=
  ⟨⟨test_layout_wf, test_behaviour_wf⟩, by decide⟩

theorem witness_SendCommandStopsBeforeWritingABadCount :
    let s := inside ready [.encodeCommand 0x00F4C000#32 []] [.host]
    let short := inside ready [.encodeCommand 0x02ECC000#32 [1#8, 2#8, 3#8, 4#8]] [.host]
    (s.blk.refused = none ∧ s.host.outcome = none ∧ s.host.ops = .encodeCommand 0x00F4C000#32 [] :: [] ∧
      s.agenda = .host :: [] ∧ 5 < s.par.layout.acycle 0x00F4C000#32) ∧
    (short.blk.refused = none ∧ short.host.outcome = none ∧ short.par.layout.acycle 0x02ECC000#32 ≤ 5 ∧
      [1#8, 2#8, 3#8, 4#8].length < short.par.layout.acycle 0x02ECC000#32) := by decide

theorem witness_ExtraAddressIsWrittenOnlyForFiveCycles :
    let five := inside ready [.encodeCommand 0x02ECC000#32 [1#8, 2#8, 3#8, 4#8, 5#8]] [.host]
    let four := inside ready [.encodeCommand 0x02E4C000#32 [1#8, 2#8, 3#8, 4#8]] [.host]
    (five.blk.refused = none ∧ five.host.outcome = none ∧
      five.host.ops = .encodeCommand 0x02ECC000#32 [1#8, 2#8, 3#8, 4#8, 5#8] :: [] ∧ five.agenda = .host :: [] ∧
      five.par.layout.acycle 0x02ECC000#32 = 5) ∧
    (four.blk.refused = none ∧ four.host.outcome = none ∧
      four.host.ops = .encodeCommand 0x02E4C000#32 [1#8, 2#8, 3#8, 4#8] :: [] ∧ four.agenda = .host :: [] ∧
      four.par.layout.acycle 0x02E4C000#32 = 4) := by decide

theorem witness_NandTimingPresetWritesItsChipSelect :
    let s := calling off [.configureNandTiming 8#32] []
    s.blk.refused = none ∧ s.blk.phase = .idle ∧ s.agenda = [] ∧ s.host.outcome = none ∧ s.host.ops = [] ∧
      s.host.calls = [.configureNandTiming 8#32] ∧ s.par.board.nandCs < s.par.board.nCs ∧
      s.t.length = s.par.board.nCs ∧ s.par.board.mode.Wf := ⟨rfl, rfl, rfl, rfl, rfl, rfl, by decide, rfl, test_mode_wf⟩

theorem witness_NorTimingPresetWritesItsChipSelect :
    let s := calling off [.configureNorTiming 0 16#32] []
    s.blk.refused = none ∧ s.blk.phase = .idle ∧ s.agenda = [] ∧ s.host.outcome = none ∧ s.host.ops = [] ∧
      s.host.calls = [.configureNorTiming 0 16#32] ∧ 0 < s.par.board.nCs ∧ s.t.length = s.par.board.nCs ∧
      s.par.board.mode.Wf := ⟨rfl, rfl, rfl, rfl, rfl, rfl, by decide, rfl, test_mode_wf⟩

/-- P1. -/
theorem witness_BootSequenceReachesTheCleanEntry :
    let s := calling off [.configureNandTiming 8#32, .resetSequencer, .configureSequencer 2048#32 64#32 true false,
      .access (readTxn (.reg off.par.layout.offSr))] []
    (s.par.layout.Wf ∧ s.par.behaviour.Wf s.par.layout) ∧ s.unmarked = true ∧ s.blk.phase = .idle ∧ s.agenda = [] ∧
      s.par.board.nandCs < s.par.board.nCs ∧ s.host.outcome = none ∧ s.host.ops = [] ∧ (true && false) = false ∧
      cfgword s.par 2048#32 64#32 true false = some 0x0F7F2202#32 :=
  ⟨⟨test_layout_wf, test_behaviour_wf⟩, by decide⟩

end Sys2Proof.Tests
end

section
/-! The family of 10_state.md. What a step does to the sequencer's phase, the event flags and the clock is said once,
in `step_blockStep`; each obligation reads it off. -/

namespace Sys2Proof.Machine

/-- The phase and the five event flags of `c` are those of `b`, and the clock has not been turned off. -/
structure Block.SamePhaseAndFlags (b c : Block) : Prop where
  phase : c.phase = b.phase
  cmdDone : c.cmdDone = b.cmdDone
  xfrDone : c.xfrDone = b.xfrDone
  rbFall : c.rbFall = b.rbFall
  rbRise : c.rbRise = b.rbRise
  rbEdge0 : c.rbEdge0 = b.rbEdge0
  clockOn : b.clockOn = true → c.clockOn = true

theorem Block.SamePhaseAndFlags.of_eq {b c : Block} (h : c = b) : b.SamePhaseAndFlags c := by
  subst h
  exact ⟨rfl, rfl, rfl, rfl, rfl, rfl, id⟩

theorem CsWritten.blk_eq {cs : Nat} {upd : CsRegs → CsRegs} {s t : State} (h : CsWritten cs upd s t) :
    t.blk = s.blk := by
  obtain ⟨-, rfl⟩ := h
  rfl

/-- What a transaction does to the block. -/
inductive TxnEffect (i : Instr) (b c : Block) : Prop where
  /-- a status read -/
  | cleared (read : i = .srR) (out : c = b.clearEvents)
  /-- a command accepted into the free slot -/
  | latched (n : Nat) (w a : Word) (write : i = command n w a) (free : b.phase = .idle) (out : c = b.latch w a)
  /-- any other, an overlapping command included -/
  | kept (same : b.SamePhaseAndFlags c)

theorem Accepted.txnEffect {n : Nat} {w a : Word} {s t : State} (h : Accepted n w a s t) :
    TxnEffect (command n w a) s.blk t.blk := by
  obtain ⟨-, ⟨-, rfl⟩ | ⟨free, -, rfl⟩⟩ := h
  · exact .kept ⟨rfl, rfl, rfl, rfl, rfl, rfl, id⟩
  · exact .latched n w a rfl free rfl

theorem reservedCount_samePhaseAndFlags (s : State) : s.blk.SamePhaseAndFlags
    (if s.blk.busy then (s.raise .badCycleCount).raise .overlap else s.raise .badCycleCount).blk := by
  split <;> exact ⟨rfl, rfl, rfl, rfl, rfl, rfl, id⟩

theorem exec_txnEffect {i : Instr} {s t : State} (h : exec i s = .next t) : TxnEffect i s.blk t.blk := by
  obtain ⟨-, h⟩ := (exec_next_iff i s t).1 h
  cases i with
  | cfgW v =>
    obtain ⟨-, -, rfl⟩ := h
    exact .kept ⟨rfl, rfl, rfl, rfl, rfl, rfl, id⟩
  | cfgR =>
    cases h
    exact .kept (.of_eq rfl)
  | idrW m =>
    cases h
    exact .kept ⟨rfl, rfl, rfl, rfl, rfl, rfl, id⟩
  | ctrlW v =>
    obtain ⟨-, -, rfl⟩ := h
    exact .kept ⟨rfl, rfl, rfl, rfl, rfl, rfl, id⟩
  | addrW v =>
    obtain ⟨-, -, rfl⟩ := h
    exact .kept ⟨rfl, rfl, rfl, rfl, rfl, rfl, id⟩
  | nfcCmdA0 w a => exact Accepted.txnEffect (n := 0) h
  | nfcCmdA1 w a => exact Accepted.txnEffect (n := 1) h
  | nfcCmdA2 w a => exact Accepted.txnEffect (n := 2) h
  | nfcCmdA3 w a => exact Accepted.txnEffect (n := 3) h
  | nfcCmdA4 w a => exact Accepted.txnEffect (n := 4) h
  | nfcCmdA5 w a => exact Accepted.txnEffect (n := 5) h
  | nfcCmdRsv6 w a =>
    cases h
    exact .kept (reservedCount_samePhaseAndFlags s)
  | nfcCmdRsv7 w a =>
    cases h
    exact .kept (reservedCount_samePhaseAndFlags s)
  | srR => exact .cleared rfl (congrArg State.blk h)
  | hstatR o =>
    cases h
    exact .kept (.of_eq rfl)
  | eccsrR =>
    cases h
    exact .kept (.of_eq rfl)
  | csSetupW cs v => exact .kept (.of_eq (CsWritten.blk_eq h))
  | csPulseW cs v => exact .kept (.of_eq (CsWritten.blk_eq h))
  | csCycleW cs v => exact .kept (.of_eq (CsWritten.blk_eq h))
  | csTimingsW cs v => exact .kept (.of_eq (CsWritten.blk_eq h))
  | csModeW cs v => exact .kept (.of_eq (CsWritten.blk_eq h))

/-- The pin already has the level: no edge. -/
theorem envRb_of_level {l : Bool} {s : State} (h : s.blk.rbLevel = l) : envRb l s = s :=
  if_pos h.symm

/-- An edge of the pin performs each assignment or not; with edge detection enabled it performs all three
(43_status_poller.md R176). -/
theorem envRb_of_edge {l : Bool} {s : State} (h : s.blk.rbLevel = !l) :
    ∃ fall rise edge0, (envRb l s).blk = s.blk.pinEdge s.par.behaviour.rbEdge0Polarity l fall rise edge0 ∧
      (s.par.layout.cfgRbedge.bit s.blk.cfg = true → fall = true ∧ rise = true ∧ edge0 = true) := by
  have hl : ¬ l = s.blk.rbLevel := by simp [h]
  unfold envRb
  rw [if_neg hl]
  split
  · exact ⟨true, true, true, rfl, fun _ => ⟨rfl, rfl, rfl⟩⟩
  · exact ⟨_, _, _, rfl, fun hd => absurd hd ‹_›⟩

theorem isEdge0_iff (p : Edge) (l : Bool) : isEdge0 p l = true ↔ p = if l then .rising else .falling := by
  cases p <;> cases l <;> decide

/-- What a step does to the sequencer's phase, the event flags and the clock of the block, `b` being the block after
it. -/
inductive BlockStep (s : State) (b : Block) : Prop where
  /-- a step that touches none of them but the clock, which it may turn on -/
  | kept (same : s.blk.SamePhaseAndFlags b)
  /-- a status read -/
  | cleared (next : s.nextInstr = some .srR) (out : b = s.blk.clearEvents)
  /-- a command accepted into the free slot -/
  | latched (n : Nat) (w a : Word) (next : s.nextInstr = some (command n w a)) (free : s.blk.phase = .idle)
      (out : b = s.blk.latch w a)
  /-- `SEQ.DISPATCH` -/
  | dispatched (turn : s.nextTurn = some .seqDispatch) (enabled : s.blk.phase = .issue)
      (out : b = s.blk.dispatch s.par.layout)
  /-- `SEQ.XFER` -/
  | transferred (turn : s.nextTurn = some .seqXfer) (enabled : s.blk.phase = .data) (out : b = s.blk.transfer)
  /-- an edge of the ready/busy pin -/
  | edge (l fall rise edge0 : Bool) (turn : s.nextTurn = some (.envRb l)) (change : s.blk.rbLevel = !l)
      (out : b = s.blk.pinEdge s.par.behaviour.rbEdge0Polarity l fall rise edge0)

/-- The inversion of `step` at the block. -/
theorem step_blockStep {s t : State} (h : step s = .next t) : BlockStep s t.blk := by
  obtain ⟨-, hk⟩ := step_next h
  cases hk with
  | marked r turn out =>
    cases out
    exact .kept ⟨rfl, rfl, rfl, rfl, rfl, rfl, id⟩
  | dispatch turn enabled out => exact .dispatched turn enabled (congrArg State.blk out)
  | transfer turn enabled out => exact .transferred turn enabled (congrArg State.blk out)
  | pin l turn out =>
    cases out
    by_cases hl : s.blk.rbLevel = l
    · have he : envRb l s.dropTurn = s.dropTurn := envRb_of_level hl
      exact .kept (.of_eq (by rw [he]; rfl))
    · have hl' : s.blk.rbLevel = !l := Bool.eq_not.2 hl
      obtain ⟨fall, rise, edge0, he, -⟩ := envRb_of_edge (s := s.dropTurn) hl'
      exact .edge l fall rise edge0 turn hl' he
  | ecc b turn out =>
    cases out
    exact .kept ⟨rfl, rfl, rfl, rfl, rfl, rfl, id⟩
  | internal g turn idle out =>
    cases out
    exact .kept (.of_eq rfl)
  | clock g turn idle out =>
    cases out
    exact .kept ⟨rfl, rfl, rfl, rfl, rfl, rfl, fun _ => rfl⟩
  | txn i rest u g turn next wf run out =>
    cases out
    cases exec_txnEffect run with
    | cleared read out => exact .cleared (read ▸ next) out
    | latched n w a write free out => exact .latched n w a (write ▸ next) free out
    | kept same => exact .kept same

/-- A turn `SEQ.DISPATCH` that does not get stuck is the dispatch step. -/
theorem step_blk_of_dispatchTurn {s t : State} (h : step s = .next t) (turn : s.nextTurn = some .seqDispatch) :
    t.blk = s.blk.dispatch s.par.layout := by
  rw [step_of_turn (step_next h).1 turn, takeTurn, seqDispatch] at h
  split at h <;> cases h
  rfl

/-- A turn `SEQ.XFER` that does not get stuck is the transfer step. -/
theorem step_blk_of_transferTurn {s t : State} (h : step s = .next t) (turn : s.nextTurn = some .seqXfer) :
    t.blk = s.blk.transfer := by
  rw [step_of_turn (step_next h).1 turn, takeTurn, seqXfer] at h
  split at h <;> cases h
  rfl

theorem step_blk_of_pinTurn {s t : State} {l : Bool} (h : step s = .next t) (turn : s.nextTurn = some (.envRb l)) :
    t.blk = (envRb l s.dropTurn).blk := by
  rw [step_of_turn (step_next h).1 turn] at h
  cases h
  rfl

/-- What it means that an instruction is next: the host's turn, and an operation at the head of its routine whose
transaction decodes to it. -/
theorem nextInstr_some {s : State} {i : Instr} (h : s.nextInstr = some i) :
    s.nextTurn = some .host ∧ s.host.outcome = none ∧ ∃ op rest x, s.host.ops = op :: rest ∧
      op.txn s.par = some x ∧ decode s.par.layout x = .ok i := by
  unfold State.nextInstr at h
  split at h
  · rename_i hh
    split at h
    · cases h
    · rename_i op rest hops
      obtain ⟨x, hx, hd⟩ := Option.bind_eq_some_iff.1 h
      refine ⟨hh.1, hh.2, op, rest, x, hops, hx, ?_⟩
      cases hdx : decode s.par.layout x with
      | ok j =>
        rw [hdx] at hd
        cases hd
        rfl
      | error r =>
        rw [hdx] at hd
        cases hd
  · cases h

/-- An operation whose transaction is carried out is carried out; beyond the transaction it changes the host only. -/
theorem hostOp_of_exec {op : HostOp} {x : Txn} {i : Instr} {s u : State} (hx : op.txn s.par = some x)
    (hd : decode s.par.layout x = .ok i) (hu : exec i s = .next u) :
    ∃ g, hostOp op s = .next { u with host := g } := by
  have hrun : runTxn x s = .next u := (runTxn_of_decode hd).trans hu
  cases op with
  | enablePeripheral id => cases hx
  | access y =>
    cases hx
    exact ⟨u.host, hrun⟩
  | mem m =>
    refine ⟨u.host, ?_⟩
    have hm : m.txn s.par = some x := hx
    simp only [hostOp, runMem, hm, hrun]
  | spin c left =>
    cases hx
    simp only [hostOp, spinStep, hrun, andThen]
    split
    · exact ⟨u.host, rfl⟩
    · obtain ⟨g, hg⟩ := spinOn_frame c left u
      exact ⟨g, by rw [hg]⟩
  | query q =>
    cases hx
    simp only [hostOp, queryStep, hrun, andThen]
    exact ⟨_, rfl⟩
  | encodeCommand w bytes => cases hx

/-- A step whose next instruction is carried out does what the instruction does, and beyond it changes the
host only. -/
theorem step_of_nextInstr {s : State} {i : Instr} (hm : s.blk.refused = none) (hi : s.nextInstr = some i) :
    ∃ rest, ∀ u, exec i (s.dropTurn.setOps rest) = .next u → ∃ g, step s = .next { u with host := g } := by
  obtain ⟨turn, hout, op, rest, x, hops, hx, hd⟩ := nextInstr_some hi
  refine ⟨rest, fun u hu => ?_⟩
  obtain ⟨g, hg⟩ := hostOp_of_exec (s := s.dropTurn.setOps rest) hx hd hu
  refine ⟨g, ?_⟩
  rw [step_of_op hm turn hout hops, hg]
  rfl

/-- With the clock on a status read is carried out, and clears the event flags (43_status_poller.md R170). -/
theorem step_blk_of_statusRead {s t : State} (h : step s = .next t) (hi : s.nextInstr = some .srR)
    (hc : s.blk.clockOn = true) : t.blk = s.blk.clearEvents := by
  obtain ⟨rest, hrun⟩ := step_of_nextInstr (step_next h).1 hi
  obtain ⟨g, hg⟩ := hrun _ ((exec_next_iff .srR _ _).2 ⟨hc, rfl⟩)
  rw [hg] at h
  cases h
  rfl

theorem step_keeps_clockOn {s t : State} (h : step s = .next t) (hc : s.blk.clockOn = true) :
    t.blk.clockOn = true := by
  cases step_blockStep h with
  | kept same => exact same.clockOn hc
  | cleared next out => simp [out, hc]
  | latched n w a next free out => simp [out, hc]
  | dispatched turn enabled out => simp [out, hc]
  | transferred turn enabled out => simp [out, hc]
  | edge l fall rise edge0 turn change out => simp [out, hc]

theorem some_command_mem (n : Nat) (w a : Word) :
    some (command n w a) ∈ [some (.nfcCmdA0 w a), some (.nfcCmdA1 w a), some (.nfcCmdA2 w a), some (.nfcCmdA3 w a),
      some (.nfcCmdA4 w a), some (.nfcCmdA5 w a)] := by
  unfold command
  split <;> simp

/-- Settles O36: each way a step can change the block either leaves the phase alone or is one of the three
transitions. -/
theorem phaseMovesOnlyAlongItsCycle : Obligations.PhaseMovesOnlyAlongItsCycle := by
  intro s t h
  cases step_blockStep h with
  | kept same => exact .inl same.phase
  | cleared next out => exact .inl (by simp [out])
  | latched n w a next free out =>
    refine .inr (.inl ⟨free, by simp [out], w, a, ?_, by simp [out], by simp [out]⟩)
    rw [next]
    exact some_command_mem n w a
  | dispatched turn enabled out => exact .inr (.inr (.inl ⟨enabled, turn, by simp [out]⟩))
  | transferred turn enabled out => exact .inr (.inr (.inr ⟨enabled, turn, by simp [out]⟩))
  | edge l fall rise edge0 turn change out => exact .inl (by simp [out])

/-- Settles O13: the clock is turned on by the gate alone and off by nothing, and every refusal without it is the
first check of its transaction. -/
theorem nothingRunsBeforeTheClock : Obligations.NothingRunsBeforeTheClock := fun s =>
  ⟨by simp [State.enablePeripheral], fun _ h hc => step_keeps_clockOn h hc,
    fun hc => ⟨fun i => exec_off i s hc, fun x => runTxn_off x s hc⟩⟩

/-- Settles O37: of the ways a step can change the block, only the dispatch step and the status read touch
`cmdDone`. -/
theorem commandDoneChangesOnlyByDispatchAndStatusRead :
    Obligations.CommandDoneChangesOnlyByDispatchAndStatusRead := by
  intro s t h
  refine ⟨fun turn => by simp [step_blk_of_dispatchTurn h turn],
    fun hi hc => by simp [step_blk_of_statusRead h hi hc], fun noDispatch noRead => ?_⟩
  cases step_blockStep h with
  | kept same => exact same.cmdDone
  | cleared next out => exact absurd next noRead
  | latched n w a next free out => simp [out]
  | dispatched turn enabled out => exact absurd turn noDispatch
  | transferred turn enabled out => simp [out]
  | edge l fall rise edge0 turn change out => simp [out]

/-- Settles O38: of the ways a step can change the block, only the transfer step and the status read touch
`xfrDone`. -/
theorem transferDoneChangesOnlyByTransferAndStatusRead :
    Obligations.TransferDoneChangesOnlyByTransferAndStatusRead := by
  intro s t h
  refine ⟨fun turn => by simp [step_blk_of_transferTurn h turn],
    fun hi hc => by simp [step_blk_of_statusRead h hi hc], fun noTransfer noRead => ?_⟩
  cases step_blockStep h with
  | kept same => exact same.xfrDone
  | cleared next out => exact absurd next noRead
  | latched n w a next free out => simp [out]
  | dispatched turn enabled out => simp [out]
  | transferred turn enabled out => exact absurd turn noTransfer
  | edge l fall rise edge0 turn change out => simp [out]

/-- With edge detection enabled an edge of the pin sets the flags it names (10_state.md R35, R36, R37). -/
theorem step_detected_edge {s t : State} {l : Bool} (h : step s = .next t) (turn : s.nextTurn = some (.envRb l))
    (change : s.blk.rbLevel = !l) (detect : s.par.layout.cfgRbedge.bit s.blk.cfg = true) :
    (l = false → t.blk.rbFall = true) ∧ (l = true → t.blk.rbRise = true) ∧
      (s.par.behaviour.rbEdge0Polarity = (if l then .rising else .falling) → t.blk.rbEdge0 = true) := by
  obtain ⟨fall, rise, edge0, he, hd⟩ := envRb_of_edge (s := s.dropTurn) change
  obtain ⟨rfl, rfl, rfl⟩ := hd detect
  rw [step_blk_of_pinTurn h turn, he]
  refine ⟨fun hl => by simp [hl], fun hl => by simp [hl], fun hp => ?_⟩
  simp [(isEdge0_iff _ l).2 hp]

/-- An edge of the pin changes a flag only by setting it, and only the flags the edge names (10_state.md R35, R36,
R37). -/
theorem changed_by_pinEdge {b c : Block} {p : Edge} {l fall rise edge0 : Bool}
    (h : c = b.pinEdge p l fall rise edge0) :
    (c.rbFall ≠ b.rbFall → c.rbFall = true ∧ l = false) ∧ (c.rbRise ≠ b.rbRise → c.rbRise = true ∧ l = true) ∧
      (c.rbEdge0 ≠ b.rbEdge0 → c.rbEdge0 = true ∧ p = if l then .rising else .falling) := by
  rw [h, ← isEdge0_iff]
  refine ⟨?_, ?_, ?_⟩
  · cases hb : b.rbFall <;> simp +contextual [hb]
  · cases hb : b.rbRise <;> simp +contextual [hb]
  · cases hb : b.rbEdge0 <;> simp +contextual [hb]

/-- Settles O39: only the status read and the edges of the pin touch a ready/busy flag. -/
theorem readyBusyFlagsChangeOnlyByEdgesAndStatusRead :
    Obligations.ReadyBusyFlagsChangeOnlyByEdgesAndStatusRead := by
  intro s t h
  refine ⟨fun hi hc => by simp [step_blk_of_statusRead h hi hc], fun l turn change detect =>
    step_detected_edge h turn change detect, fun noRead => ?_⟩
  cases step_blockStep h with
  | kept same => simp [same.rbFall, same.rbRise, same.rbEdge0]
  | cleared next out => exact absurd next noRead
  | latched n w a next free out => simp [out]
  | dispatched turn enabled out => simp [out]
  | transferred turn enabled out => simp [out]
  | edge l fall rise edge0 turn change out =>
    obtain ⟨hfall, hrise, hedge0⟩ := changed_by_pinEdge out
    refine ⟨fun hne => ?_, fun hne => ?_, fun hne => ?_⟩
    · obtain ⟨hset, rfl⟩ := hfall hne
      exact ⟨hset, turn, change⟩
    · obtain ⟨hset, rfl⟩ := hrise hne
      exact ⟨hset, turn, change⟩
    · obtain ⟨hset, hp⟩ := hedge0 hne
      exact ⟨hset, l, turn, change, hp⟩

end Sys2Proof.Machine
end

section
/-! The family of 40_bus_timing.md. The five chip-select writes are one operation, `writeCs`, with the register named by
its update: what it does past the clock is said once, and each register's write is an instance. -/

namespace Sys2Proof.Machine

/-- The five chip-select writes, which differ in the register they name only. -/
theorem exec_eq_writeCs_of_mem {i : Instr} {cs : Nat} {v : Word}
    (h : i ∈ [Instr.csSetupW cs v, .csPulseW cs v, .csCycleW cs v, .csTimingsW cs v, .csModeW cs v]) :
    ∃ upd, ∀ s, exec i s = writeCs cs upd s := by
  simp only [List.mem_cons, List.not_mem_nil, or_false] at h
  obtain rfl | rfl | rfl | rfl | rfl := h <;> exact ⟨_, fun _ => rfl⟩

/-- With the clock on, a chip select out of range is refused (40_bus_timing.md R111). -/
theorem writeCs_of_nCs_le {cs : Nat} {s : State} (upd : CsRegs → CsRegs) (on : s.blk.clockOn = true)
    (range : s.par.board.nCs ≤ cs) : writeCs cs upd s = .refused .chipSelectRange := by
  rw [writeCs, clocked_on _ _ on, if_pos range]

/-- An update of a chip select that has its registers replaces them and nothing else. -/
theorem State.updateCs_eq_set {cs : Nat} {s : State} (upd : CsRegs → CsRegs) (h : cs < s.t.length) :
    s.updateCs cs upd = { s with t := s.t.set cs (upd s.t[cs]) } := by
  rw [State.updateCs, List.modify_eq_set_get upd h, List.get_eq_getElem]

/-- With the clock on, a write of a chip select in range stores its updated registers (40_bus_timing.md R111). -/
theorem writeCs_of_lt_nCs {cs : Nat} {s : State} (upd : CsRegs → CsRegs) (on : s.blk.clockOn = true)
    (range : cs < s.par.board.nCs) (h : cs < s.t.length) :
    writeCs cs upd s = .next { s with t := s.t.set cs (upd s.t[cs]) } :=
  (writeCs_next_iff cs upd s _).2 ⟨on, range, (State.updateCs_eq_set upd h).symm⟩

/-- Settles O27: the clock is checked by every transaction, the range and the store by `writeCs`, of which the five
writes are instances. -/
theorem chipSelectWriteStoresOneRegister : Obligations.ChipSelectWriteStoresOneRegister := by
  intro s cs v
  refine ⟨fun off i _ => exec_off i s off, fun on range i hi => ?_, fun on range chips => ?_⟩
  · obtain ⟨upd, hupd⟩ := exec_eq_writeCs_of_mem hi
    rw [hupd, writeCs_of_nCs_le upd on range]
  · have h : cs < s.t.length := chips ▸ range
    have stored := fun upd => writeCs_of_lt_nCs upd on range h
    exact ⟨s.t[cs], List.getElem?_eq_getElem h, stored _, stored _, stored _, stored _, stored _⟩

end Sys2Proof.Machine
end

section
/-! The family of 41_sequencer_config.md. The words `CFG.W` admits are said once in the terms of the rule
(`Params.cfgLegal_iff`), `cfgword` is shown to make such words only, and a call of a routine is one lemma for entering
it and one for each of its transactions. -/

namespace Sys2Proof

theorem Layout.getLsbD_cfgDefined (L : Layout) {i : Nat} (hi : i < 32) :
    L.cfgDefined.getLsbD i = true ↔ ∃ f ∈ L.cfgFields, f.lo ≤ i ∧ i < f.lo + f.width := by
  simp only [Layout.cfgDefined, getLsbD_maskOf, List.any_eq_true, Field.getLsbD_mask, decide_eq_true hi, Bool.and_true,
    Bool.and_eq_true, decide_eq_true_eq]

/-- The check of `CFG.W` against the mask of the fields finds a bit outside every field (10_state.md R28). -/
theorem Layout.reservedBitSet_iff (L : Layout) (v : Word) : L.reservedBitSet v ↔ v &&& ~~~ L.cfgDefined ≠ 0#32 := by
  rw [Ne, and_not_eq_zero_iff]
  push Not
  constructor
  · rintro ⟨i, hv, outside⟩
    have hi : i < 32 := BitVec.lt_of_getLsbD hv
    refine ⟨i, hi, hv, fun hd => ?_⟩
    obtain ⟨f, hf, inside⟩ := (L.getLsbD_cfgDefined hi).1 hd
    exact outside f hf inside
  · rintro ⟨i, hi, hv, hd⟩
    exact ⟨i, hv, fun f hf inside => hd ((L.getLsbD_cfgDefined hi).2 ⟨f, hf, inside⟩)⟩

theorem Layout.bothSpareFlags_iff (L : Layout) (v : Word) :
    L.bothSpareFlags v ↔ (L.cfgRspare.bit v && L.cfgWspare.bit v) = true :=
  (Bool.and_eq_true_iff ..).symm

theorem Behaviour.isPageCode_iff (b : Behaviour) (c : Word) :
    b.isPageCode c = true ↔ ∃ size ∈ b.supportedPageSizes, b.pageCode.lookup size = some c := by
  simp only [Behaviour.isPageCode, List.any_eq_true, beq_iff_eq]

theorem Params.pageCodeKnown_iff (p : Params) (v : Word) :
    p.pageCodeKnown v ↔ p.behaviour.isPageCode (p.layout.cfgPagesize.get v) = true :=
  (p.behaviour.isPageCode_iff _).symm

/-- The words `CFG.W` admits, in the terms of the rule (41_sequencer_config.md R120). -/
theorem Params.cfgLegal_iff (p : Params) (v : Word) :
    p.cfgLegal v = true ↔ ¬ p.layout.reservedBitSet v ∧ ¬ p.layout.bothSpareFlags v ∧ p.pageCodeKnown v := by
  rw [p.layout.reservedBitSet_iff, not_not, p.layout.bothSpareFlags_iff, p.pageCodeKnown_iff, Params.cfgLegal,
    Bool.and_eq_true, Bool.and_eq_true, beq_iff_eq, Bool.not_eq_true', Bool.not_eq_true, and_assoc]

/-- Writing a field of a list leaves no bit outside the list's fields. -/
theorem Field.set_inside_maskOf {fs : List Field} {f : Field} {w : Word} (v : Word) (hf : f ∈ fs)
    (hw : w &&& ~~~ maskOf fs = 0#32) : f.set w v &&& ~~~ maskOf fs = 0#32 := by
  rw [and_not_eq_zero_iff] at hw ⊢
  intro i hi hset
  rw [Field.getLsbD_set] at hset
  split at hset
  · rename_i inside
    rw [getLsbD_maskOf, List.any_eq_true]
    exact ⟨f, hf, by simp [Field.getLsbD_mask, inside]⟩
  · exact hw i hi hset

/-- The page code and the spare flags have no bit in common (00_scope.md R16). -/
theorem Layout.Wf.spareFlags_disjoint {L : Layout} (h : L.Wf) :
    Field.Disjoint L.cfgPagesize L.cfgWspare ∧ Field.Disjoint L.cfgPagesize L.cfgRspare ∧
      Field.Disjoint L.cfgWspare L.cfgRspare := by
  obtain ⟨page, rest⟩ := List.pairwise_cons.1 h.cfgDisjoint
  obtain ⟨wspare, -⟩ := List.pairwise_cons.1 rest
  exact ⟨page _ (by simp), page _ (by simp), wspare _ (by simp)⟩

end Sys2Proof

namespace Sys2Proof.Machine

theorem cfgwordOf_inside (p : Params) (code f : Word) (readSpare writeSpare : Bool) :
    cfgwordOf p code f readSpare writeSpare &&& ~~~ p.layout.cfgDefined = 0#32 := by
  unfold cfgwordOf Field.setBit Layout.cfgDefined
  repeat' apply Field.set_inside_maskOf _ (by simp [Layout.cfgFields])
  exact BitVec.zero_and

theorem cfgRspare_bit_cfgwordOf {p : Params} (hL : p.layout.Wf) (code f : Word) (readSpare writeSpare : Bool) :
    p.layout.cfgRspare.bit (cfgwordOf p code f readSpare writeSpare) = readSpare := by
  obtain ⟨-, hpr, hwr⟩ := hL.spareFlags_disjoint
  have one := hL.flagsOneBit p.layout.cfgRspare (by simp [Layout.flagFields])
  rw [cfgwordOf, Field.bit_set_other _ _ _ _ hpr.symm one, Field.bit_setBit_other _ _ _ _ hwr.symm one,
    Field.bit_setBit_self _ _ _ one (hL.cfgInside _ (by simp [Layout.cfgFields]))]

theorem cfgWspare_bit_cfgwordOf {p : Params} (hL : p.layout.Wf) (code f : Word) (readSpare writeSpare : Bool) :
    p.layout.cfgWspare.bit (cfgwordOf p code f readSpare writeSpare) = writeSpare := by
  obtain ⟨hpw, -, -⟩ := hL.spareFlags_disjoint
  have one := hL.flagsOneBit p.layout.cfgWspare (by simp [Layout.flagFields])
  rw [cfgwordOf, Field.bit_set_other _ _ _ _ hpw.symm one,
    Field.bit_setBit_self _ _ _ one (hL.cfgInside _ (by simp [Layout.cfgFields]))]

theorem cfgPagesize_get_cfgwordOf {p : Params} {code : Word} (hL : p.layout.Wf)
    (hcode : p.layout.cfgPagesize.fits code = true) (f : Word) (readSpare writeSpare : Bool) :
    p.layout.cfgPagesize.get (cfgwordOf p code f readSpare writeSpare) = code :=
  Field.get_set_self _ _ _ (hL.cfgInside _ (by simp [Layout.cfgFields])) hcode

/-- Where the configuration word is defined, the size is supported and its code fits its field (30_encoding.md R94). -/
theorem cfgword_eq_some {p : Params} {pageSize spareSize v : Word} {readSpare writeSpare : Bool}
    (hB : p.behaviour.Wf p.layout) (h : cfgword p pageSize spareSize readSpare writeSpare = some v) :
    ∃ code, pageSize ∈ p.behaviour.supportedPageSizes ∧ p.behaviour.pageCode.lookup pageSize = some code ∧
      p.layout.cfgPagesize.fits code = true ∧ v = cfgwordOf p code (spareField spareSize) readSpare writeSpare := by
  unfold cfgword at h
  split at h
  · cases h
  · rename_i code hcode
    split at h
    · cases h
      rw [Behaviour.codeOf, Option.ite_none_right_eq_some] at hcode
      obtain ⟨supported, lookup⟩ := hcode
      obtain ⟨c, hc, fits⟩ := hB.codesExist pageSize supported
      obtain rfl : c = code := Option.some.inj (hc.symm.trans lookup)
      exact ⟨c, supported, lookup, fits, rfl⟩
    · cases h

/-- The word `configure_sequencer` writes is one `CFG.W` admits (41_sequencer_config.md R120, R128). -/
theorem cfgLegal_of_cfgword {p : Params} {pageSize spareSize v : Word} {readSpare writeSpare : Bool}
    (hL : p.layout.Wf) (hB : p.behaviour.Wf p.layout) (notBoth : (readSpare && writeSpare) = false)
    (h : cfgword p pageSize spareSize readSpare writeSpare = some v) : p.cfgLegal v = true := by
  obtain ⟨code, supported, lookup, fits, rfl⟩ := cfgword_eq_some hB h
  rw [p.cfgLegal_iff, p.layout.reservedBitSet_iff, p.layout.bothSpareFlags_iff]
  refine ⟨not_not.2 (cfgwordOf_inside ..), ?_, pageSize, supported, ?_⟩
  · rw [cfgRspare_bit_cfgwordOf hL, cfgWspare_bit_cfgwordOf hL, notBoth]
    exact Bool.false_ne_true
  · rw [cfgPagesize_get_cfgwordOf hL fits, lookup]

theorem Block.not_busy_of_idle {b : Block} (h : b.phase = .idle) : ¬ b.busy = true :=
  fun busy => b.busy_iff.1 busy h

/- `CFG.W` and `CTRL.W`, one equation per check -/

theorem execCfgW_of_busy {s : State} (v : Word) (on : s.blk.clockOn = true) (busy : s.blk.phase ≠ .idle) :
    execCfgW v s = .refused .configWhileBusy := by
  rw [execCfgW, clocked_on _ _ on, if_pos ((Block.busy_iff _).2 busy)]

section
variable {s : State} {v : Word} (on : s.blk.clockOn = true) (idle : s.blk.phase = .idle)
include on idle

theorem execCfgW_of_reservedBitSet (reserved : s.par.layout.reservedBitSet v) :
    execCfgW v s = .refused .reservedBits := by
  rw [execCfgW, clocked_on _ _ on, if_neg (Block.not_busy_of_idle idle),
    if_pos ((s.par.layout.reservedBitSet_iff v).1 reserved)]

theorem execCfgW_of_bothSpareFlags (free : ¬ s.par.layout.reservedBitSet v) (both : s.par.layout.bothSpareFlags v) :
    execCfgW v s = .refused .bothSpareFlags := by
  rw [execCfgW, clocked_on _ _ on, if_neg (Block.not_busy_of_idle idle),
    if_neg (mt (s.par.layout.reservedBitSet_iff v).2 free), if_pos ((s.par.layout.bothSpareFlags_iff v).1 both)]

theorem execCfgW_of_not_pageCodeKnown (free : ¬ s.par.layout.reservedBitSet v)
    (notBoth : ¬ s.par.layout.bothSpareFlags v) (unknown : ¬ s.par.pageCodeKnown v) :
    execCfgW v s = .refused .badPageCode := by
  have hcode := mt (s.par.pageCodeKnown_iff v).2 unknown
  rw [execCfgW, clocked_on _ _ on, if_neg (Block.not_busy_of_idle idle),
    if_neg (mt (s.par.layout.reservedBitSet_iff v).2 free), if_neg (mt (s.par.layout.bothSpareFlags_iff v).2 notBoth),
    if_pos (by simpa using hcode)]

theorem execCfgW_of_cfgLegal (legal : s.par.cfgLegal v = true) : execCfgW v s = .next { s with blk.cfg := v } :=
  (execCfgW_next_iff _ _ _).2 ⟨on, idle, legal, rfl⟩

end

/-- Settles O14: the clock is checked by every transaction, and each later check of `CFG.W` has its equation. -/
theorem configWriteStoresOnlyALegalWord : Obligations.ConfigWriteStoresOnlyALegalWord := fun s v =>
  ⟨exec_off _ s, execCfgW_of_busy v, fun on idle =>
    ⟨execCfgW_of_reservedBitSet on idle, execCfgW_of_bothSpareFlags on idle, execCfgW_of_not_pageCodeKnown on idle,
      fun free notBoth known => execCfgW_of_cfgLegal on idle ((s.par.cfgLegal_iff v).2 ⟨free, notBoth, known⟩)⟩⟩

/-- `CFG.R` answers the configuration register (41_sequencer_config.md R121). -/
theorem execCfgR_of_clockOn {s : State} (on : s.blk.clockOn = true) :
    exec .cfgR s = .next { s with host.rdata := s.blk.cfg } :=
  clocked_on _ _ on

/-- Settles O16: a `CFG.W` that is carried out leaves its word in the register and the clock on, so a `CFG.R` after it
answers that word. -/
theorem configReadReturnsTheStoredWord : Obligations.ConfigReadReturnsTheStoredWord := by
  refine fun s => ⟨exec_off _ s, fun on => ⟨execCfgR_of_clockOn on, fun v t h => ?_⟩⟩
  obtain ⟨-, -, -, rfl⟩ := (execCfgW_next_iff v s t).1 h
  exact ⟨_, execCfgR_of_clockOn on, rfl⟩

theorem execCtrlW_of_ne_zero {s : State} {v : Word} (on : s.blk.clockOn = true) (hv : v ≠ 0#32) :
    execCtrlW v s = .refused .controlNonZero := by
  rw [execCtrlW, clocked_on _ _ on, if_pos hv]

theorem execCtrlW_zero_of_busy {s : State} (on : s.blk.clockOn = true) (busy : s.blk.phase ≠ .idle) :
    execCtrlW 0#32 s = .refused .configWhileBusy := by
  rw [execCtrlW, clocked_on _ _ on, if_neg (not_not.2 rfl), if_pos ((Block.busy_iff _).2 busy)]

theorem execCtrlW_zero_of_idle {s : State} (on : s.blk.clockOn = true) (idle : s.blk.phase = .idle) :
    execCtrlW 0#32 s = .next { s with blk.ctrl := 0#32 } :=
  (exec_next_iff (.ctrlW 0#32) s _).2 ⟨on, rfl, idle, rfl⟩

/-- Settles O18: the clock is checked by every transaction, and each later check of `CTRL.W` has its equation. -/
theorem controlWriteClearsOnlyWhenIdle : Obligations.ControlWriteClearsOnlyWhenIdle := by
  refine fun s v => ⟨exec_off _ s, execCtrlW_of_ne_zero, fun on hv busy => ?_, fun on hv idle => ?_⟩
  · rw [hv]
    exact execCtrlW_zero_of_busy on busy
  · rw [hv]
    exact execCtrlW_zero_of_idle on idle

/- The host routines -/

/-- With every source masked the interrupt line is 0 (10_state.md R47). -/
theorem irq_of_imr_zero (L : Layout) {b : Block} (h : b.imr = 0#32) : irq L b = false := by
  simp [irq, h]

/-- Settles O45: the call, then `IDR.W` of all ones, then `CTRL.W` of zero. -/
theorem resetSequencerZeroesMaskAndControl : Obligations.ResetSequencerZeroesMaskAndControl := by
  intro s rest calls hL hm on idle ho hops hcalls ha
  have enter := step_enter hm (nextTurn_cons ha) ho hops hcalls rfl
  rw [ha] at enter
  refine ⟨_, after_step enter (after_step (step_writeIdr hL hm on rfl ho rfl)
    (after_step (step_writeCtrl hL hm on idle rfl ho rfl) (after_zero _))), ?_, ?_⟩
  · exact irq_of_imr_zero _ (by simp)
  · simp [hops]

/-- A call that fails before its first transaction halts the host (60_exceptions.md R203). -/
theorem step_enter_halt {s : State} {c : Call} {rest : List Call} {o : HostOutcome} (hm : s.blk.refused = none)
    (ht : s.nextTurn = some .host) (ho : s.host.outcome = none) (hops : s.host.ops = [])
    (hcalls : s.host.calls = c :: rest) (he : expand s.par c = .halt o) :
    step s = .next { s with agenda := s.agenda.tail, host.calls := rest, host.outcome := some o } := by
  have he' : expand (s.dropTurn.setCalls rest).par c = .halt o := he
  rw [step_of_call hm ht ho hops hcalls, enterCall, he']
  simp [settle, State.haltHost, hops]

theorem configureExpansion_of_both {p : Params} {pageSize spareSize : Word} {readSpare writeSpare : Bool}
    (both : (readSpare && writeSpare) = true) :
    configureExpansion p pageSize spareSize readSpare writeSpare = .halt .invariantViolation :=
  if_pos both

theorem configureExpansion_of_unsupported {p : Params} {pageSize spareSize : Word} {readSpare writeSpare : Bool}
    (notBoth : (readSpare && writeSpare) = false) (unsupported : pageSize ∉ p.behaviour.supportedPageSizes) :
    configureExpansion p pageSize spareSize readSpare writeSpare = .halt .unsupportedConfiguration := by
  rw [configureExpansion, notBoth, if_neg Bool.false_ne_true, if_pos unsupported]

theorem configureExpansion_of_cfgword {p : Params} {pageSize spareSize v : Word} {readSpare writeSpare : Bool}
    (hB : p.behaviour.Wf p.layout) (notBoth : (readSpare && writeSpare) = false)
    (h : cfgword p pageSize spareSize readSpare writeSpare = some v) :
    configureExpansion p pageSize spareSize readSpare writeSpare =
      .ops [.access (writeTxn (.reg p.layout.offCfg) v)] := by
  obtain ⟨_, supported, -⟩ := cfgword_eq_some hB h
  rw [configureExpansion, notBoth, if_neg Bool.false_ne_true, if_neg (not_not.2 supported), h]

/-- Settles O46: each check has its expansion of the call; past both, the word to write is a legal one, so its `CFG.W`
is carried out. -/
theorem configureSequencerChecksThenWrites : Obligations.ConfigureSequencerChecksThenWrites := by
  intro s rest pageSize spareSize readSpare writeSpare calls hL hB hm on idle ho hops hcalls ha
  refine ⟨fun both => ?_, fun notBoth unsupported => ?_, fun notBoth v hv => ?_⟩
  · rw [step_enter_halt hm (nextTurn_cons ha) ho hops hcalls (configureExpansion_of_both both), ha]
    rfl
  · rw [step_enter_halt hm (nextTurn_cons ha) ho hops hcalls
      (configureExpansion_of_unsupported notBoth unsupported), ha]
    rfl
  · have enter := step_enter hm (nextTurn_cons ha) ho hops hcalls (configureExpansion_of_cfgword hB notBoth hv)
    rw [ha] at enter
    rw [after_step enter (after_step (step_writeCfg hL hm on idle (cfgLegal_of_cfgword hL hB notBoth hv) rfl ho rfl)
      (after_zero _))]
    simp [hops]

/-- The host's next operation is a predicate whose read is carried out. -/
theorem step_query {s u : State} {q : Query} {i : Instr} {rest : List HostOp} (hm : s.blk.refused = none)
    (ht : s.nextTurn = some .host) (ho : s.host.outcome = none) (hops : s.host.ops = .query q :: rest)
    (hd : decode s.par.layout (q.txn s.par.layout) = .ok i) (hu : exec i (s.dropTurn.setOps rest) = .next u) :
    step s = .next { u with host.ret := some (q.holds u.par.layout u.host.rdata) } := by
  have hrun : runTxn (q.txn s.par.layout) (s.dropTurn.setOps rest) = .next u :=
    (runTxn_of_decode (s := s.dropTurn.setOps rest) hd).trans hu
  rw [step_of_op hm ht ho hops, hostOp, queryStep, State.setOps_par, State.dropTurn_par, hrun]
  rfl

/-- A call that is one predicate on the configuration register returns its bit after two turns of the host
(41_sequencer_config.md R129, R130). -/
theorem after_configQuery {s : State} {rest : List Turn} {calls : List Call} {c : Call} {q : Query}
    (hL : s.par.layout.Wf) (hm : s.blk.refused = none) (on : s.blk.clockOn = true) (ho : s.host.outcome = none)
    (hops : s.host.ops = []) (hcalls : s.host.calls = c :: calls) (ha : s.agenda = .host :: .host :: rest)
    (he : expand s.par c = .ops [.query q]) (hq : q.txn s.par.layout = readTxn (.reg s.par.layout.offCfg)) :
    s.after 2 = .next { s with
      agenda := rest
      host.calls := calls
      host.ret := some (q.holds s.par.layout s.blk.cfg)
      host.rdata := s.blk.cfg } := by
  have enter := step_enter hm (nextTurn_cons ha) ho hops hcalls he
  rw [ha] at enter
  have hd : decode s.par.layout (q.txn s.par.layout) = .ok .cfgR := hq ▸ decode_readCfg hL
  rw [after_step enter (after_step (step_query hm rfl ho rfl hd (execCfgR_of_clockOn on)) (after_zero _))]
  simp [hops]

/-- Settles O48: both calls are one predicate on the configuration register. -/
theorem sparePredicatesReadTheirBit : Obligations.SparePredicatesReadTheirBit := by
  intro s rest calls c hL hm on ho hops hcalls ha
  refine ⟨?_, ?_⟩
  · rintro rfl
    exact after_configQuery hL hm on ho hops hcalls ha rfl rfl
  · rintro rfl
    exact after_configQuery hL hm on ho hops hcalls ha rfl rfl

end Sys2Proof.Machine
end

section
/-! The family of 42_command_encoder.md. `lanesOk` is one condition on the bits above the count (`lanesOk_iff`); the
checks of `ADDR.W` and the marks of a reserved count have one equation each; the two sequencer turns cite the step
lemmas of the model. -/

namespace Sys2Proof.Machine

/- Packed address words -/

/-- `lanes_ok` in one formula: from lane 4 up a word has no bit (42_command_encoder.md R150). -/
theorem lanesOk_iff (n : Nat) (a : Word) : lanesOk n a = true ↔ ∀ i, 8 * n ≤ i → a.getLsbD i = false := by
  rw [← ushiftRight_eq_zero_iff]
  match n with
  | 0 => simp [lanesOk]
  | 1 => simp [lanesOk]
  | 2 => simp [lanesOk]
  | 3 => simp [lanesOk]
  | n + 4 => exact iff_of_true rfl (BitVec.ushiftRight_eq_zero (by omega))

theorem getLsbD_lane_of_ge {k i : Nat} (x : Byte) (h : 8 * (k + 1) ≤ i) : (lane k x).getLsbD i = false := by
  rw [getLsbD_lane, BitVec.getLsbD_of_ge x _ (by omega), Bool.and_false, Bool.and_false]

/-- The bytes of `pack` go into the lanes up to the count and no other (30_encoding.md R93). -/
theorem lanesOk_of_pack {n : Nat} {b : List Byte} {e : Option Byte} {a : Word} (h : pack n b = some (e, a)) :
    lanesOk n a = true := by
  rw [lanesOk_iff]
  intro i hi
  unfold pack at h
  split at h <;> cases h
  case h_1 => exact BitVec.getLsbD_zero
  case h_2 => exact getLsbD_lane_of_ge _ hi
  case h_3 | h_4 =>
    simp only [BitVec.getLsbD_or, Bool.or_eq_false_iff]
    and_intros <;> exact getLsbD_lane_of_ge _ (by omega)
  case h_5 | h_6 => exact BitVec.getLsbD_of_ge _ _ (by omega)

/-- Settles O6: `lanesOk` is read bit by bit, and the bytes of `pack` stay in the lanes up to the count. -/
theorem packedWordsUseNoHigherLane : Obligations.PackedWordsUseNoHigherLane :=
  ⟨fun n a _ => lanesOk_iff n a, fun _ _ _ _ => lanesOk_of_pack⟩

/- `ADDR.W` -/

section
variable {s : State} {v : Word} (on : s.blk.clockOn = true)
include on

theorem execAddrW_of_high_bit (high : ∃ i, 8 ≤ i ∧ v.getLsbD i = true) : execAddrW v s = .refused .reservedBits := by
  have hv : v >>> 8 ≠ 0#32 := by
    obtain ⟨i, hi, hbit⟩ := high
    intro hz
    rw [(ushiftRight_eq_zero_iff v 8).1 hz i hi] at hbit
    cases hbit
  rw [execAddrW, clocked_on _ _ on, if_pos hv]

theorem execAddrW_of_busy (byte : ∀ i, 8 ≤ i → v.getLsbD i = false) (busy : s.blk.phase ≠ .idle) :
    execAddrW v s = .refused .configWhileBusy := by
  have hv : v >>> 8 = 0#32 := (ushiftRight_eq_zero_iff v 8).2 byte
  rw [execAddrW, clocked_on _ _ on, if_neg (not_not.2 hv), if_pos ((Block.busy_iff _).2 busy)]

theorem execAddrW_of_idle (byte : ∀ i, 8 ≤ i → v.getLsbD i = false) (idle : s.blk.phase = .idle) :
    execAddrW v s = .next { s with blk.addr0 := v.setWidth 8 } :=
  (exec_next_iff (.addrW v) s _).2 ⟨on, (ushiftRight_eq_zero_iff v 8).2 byte, idle, rfl⟩

end

/-- A word with no bit above bit 7 is its low byte. -/
theorem zeroExtend_setWidth_of_byte {v : Word} (byte : ∀ i, 8 ≤ i → v.getLsbD i = false) :
    (v.setWidth 8).zeroExtend 32 = v := by
  apply BitVec.eq_of_getLsbD_eq
  intro i hi
  rw [BitVec.getLsbD_setWidth, BitVec.getLsbD_setWidth, decide_eq_true hi, Bool.true_and]
  by_cases h : i < 8
  · rw [decide_eq_true h, Bool.true_and]
  · rw [byte i (by omega), Bool.and_false]

theorem Accepted.addr0_eq {n : Nat} {w a : Word} {s t : State} (h : Accepted n w a s t) :
    t.blk.addr0 = s.blk.addr0 := by
  obtain ⟨-, ⟨-, rfl⟩ | ⟨-, -, rfl⟩⟩ := h <;> rfl

theorem reservedCount_addr0 (s : State) :
    (if s.blk.busy then (s.raise .badCycleCount).raise .overlap else s.raise .badCycleCount).blk.addr0 =
      s.blk.addr0 := by
  split <;> rfl

/-- Of the 21 transactions `ADDR.W` alone writes the extra-address register (42_command_encoder.md R140). -/
theorem exec_addr0 {i : Instr} {s t : State} (h : exec i s = .next t) :
    (∃ v, i = .addrW v) ∨ t.blk.addr0 = s.blk.addr0 := by
  obtain ⟨-, h⟩ := (exec_next_iff i s t).1 h
  cases i with
  | addrW v => exact .inl ⟨v, rfl⟩
  | cfgW v =>
    obtain ⟨-, -, rfl⟩ := h
    exact .inr rfl
  | ctrlW v =>
    obtain ⟨-, -, rfl⟩ := h
    exact .inr rfl
  | nfcCmdA0 w a | nfcCmdA1 w a | nfcCmdA2 w a | nfcCmdA3 w a | nfcCmdA4 w a | nfcCmdA5 w a =>
    exact .inr (Accepted.addr0_eq h)
  | nfcCmdRsv6 w a | nfcCmdRsv7 w a =>
    cases h
    exact .inr (reservedCount_addr0 s)
  | csSetupW cs v | csPulseW cs v | csCycleW cs v | csTimingsW cs v | csModeW cs v =>
    exact .inr (congrArg Block.addr0 (CsWritten.blk_eq h))
  | cfgR | idrW m | srR | hstatR o | eccsrR =>
    cases h
    exact .inr rfl

/-- A step that changes the extra-address register is an `ADDR.W` (42_command_encoder.md R140). -/
theorem nextInstr_of_addr0_ne {s t : State} (h : step s = .next t) (changed : t.blk.addr0 ≠ s.blk.addr0) :
    ∃ v, s.nextInstr = some (.addrW v) := by
  obtain ⟨-, hk⟩ := step_next h
  cases hk with
  | txn i rest u g turn next wf run out =>
    cases out
    obtain ⟨v, rfl⟩ | same := exec_addr0 run
    · exact ⟨v, next⟩
    · exact absurd same changed
  | pin l turn out =>
    cases out
    obtain ⟨_, _, _, _, he⟩ := envRb_frame l s.dropTurn
    rw [he] at changed
    exact absurd rfl changed
  | marked _ _ out | dispatch _ _ out | transfer _ _ out | ecc _ _ out | internal _ _ _ out | clock _ _ _ out =>
    cases out
    exact absurd rfl changed

/-- Only the fifth address cycle is the extra byte (42_command_encoder.md R149). -/
theorem cycles_eq_of_ne_five {n : Nat} (hn : n ≠ 5) (e e' : Byte) (a : Word) : cycles n e a = cycles n e' a := by
  unfold cycles
  split
  case h_5 => exact absurd rfl hn
  all_goals rfl

/-- Settles O19: each check of `ADDR.W` has its equation; that the byte persists is the frame of every step. -/
theorem extraAddressWriteStoresOneByte : Obligations.ExtraAddressWriteStoresOneByte := fun s v =>
  ⟨exec_off _ s, execAddrW_of_high_bit, execAddrW_of_busy,
    fun on byte idle => ⟨_, execAddrW_of_idle on byte idle, rfl, zeroExtend_setWidth_of_byte byte⟩,
    fun _ _ => nextInstr_of_addr0_ne, fun _ e e' a hn => cycles_eq_of_ne_five (by omega) e e' a⟩

/- Reserved cycle counts -/

theorem reservedCount_of_idle {s : State} (on : s.blk.clockOn = true) (idle : s.blk.phase = .idle) :
    reservedCount s = .next { s with blk.fault := { s.blk.fault with badCycleCount := true } } := by
  rw [reservedCount, clocked_on _ _ on, if_neg (Block.not_busy_of_idle idle)]
  rfl

theorem reservedCount_of_busy {s : State} (on : s.blk.clockOn = true) (busy : s.blk.phase ≠ .idle) :
    reservedCount s = .next { s with blk.fault := ⟨true, true⟩ } := by
  rw [reservedCount, clocked_on _ _ on, if_pos ((Block.busy_iff _).2 busy)]
  rfl

/-- A write of window (c) is the row of its cycle count (30_encoding.md R87). -/
theorem runTxn_writeCmd {s : State} {w a : Word} {i : Instr} (bits : s.par.layout.cmdBitsOk w = true)
    (row : commandOf (s.par.layout.acycle w) w a = .ok i) : runTxn (writeTxn (.cmd w) a) s = exec i s :=
  runTxn_of_decode ((decode_writeCmd _ w a bits).trans row)

/-- Settles O22: both reserved rows are `reservedCount`, with one equation for the free slot and one for the occupied
one. -/
theorem reservedCountsRecordBadCycleCount : Obligations.ReservedCountsRecordBadCycleCount := fun s w a =>
  ⟨fun off => ⟨exec_off _ s off, exec_off _ s off⟩,
    fun on idle => ⟨reservedCount_of_idle on idle, reservedCount_of_idle on idle⟩,
    fun on busy => ⟨reservedCount_of_busy on busy, reservedCount_of_busy on busy⟩,
    fun bits => ⟨fun six => runTxn_writeCmd bits (by rw [six]; rfl),
      fun seven => runTxn_writeCmd bits (by rw [seven]; rfl)⟩⟩

/- The turns of the sequencer -/

theorem step_dispatch_stuck {s : State} (hm : s.blk.refused = none) (ht : s.nextTurn = some .seqDispatch)
    (hp : s.blk.phase ≠ .issue) : step s = .fault .dispatchNotEnabled := by
  have hd : s.dropTurn.blk.phase ≠ .issue := hp
  rw [step_of_turn hm ht, takeTurn, seqDispatch, if_neg hd]
  rfl

theorem step_transfer_stuck {s : State} (hm : s.blk.refused = none) (ht : s.nextTurn = some .seqXfer)
    (hp : s.blk.phase ≠ .data) : step s = .fault .xferNotEnabled := by
  have hd : s.dropTurn.blk.phase ≠ .data := hp
  rw [step_of_turn hm ht, takeTurn, seqXfer, if_neg hd]
  rfl

/-- Settles O31: in phase Issue the turn is the dispatch step, in another it is stuck. -/
theorem dispatchIssuesTheWholeCommand : Obligations.DispatchIssuesTheWholeCommand := by
  intro s rest hm ha
  have turn := nextTurn_cons ha
  refine ⟨fun hp => ?_, step_dispatch_stuck hm turn⟩
  rw [step_dispatch hm turn hp, ha]
  rfl

/-- Settles O32: in phase Data the turn is the transfer step, in another it is stuck. -/
theorem transferEndsTheDataPhase : Obligations.TransferEndsTheDataPhase := by
  intro s rest hm ha
  have turn := nextTurn_cons ha
  refine ⟨fun hp => ?_, step_transfer_stuck hm turn⟩
  rw [step_transfer hm turn hp, ha]
  rfl

end Sys2Proof.Machine
end

section
/-! The family of 43_status_poller.md. The two status reads without a side effect are one state update each, and what
the word they answer shows is `hostStatusWord_bits` and `eccStatusWord_bits`; a turn of the environment is its effect,
with one equation per case of the pin's. -/

namespace Sys2Proof.Machine

/- The status reads without a side effect -/

theorem exec_hstatR_of_clockOn {s : State} (offset : Word) (on : s.blk.clockOn = true) :
    exec (.hstatR offset) s =
      .next { s with host.rdata := hostStatusWord s.par.layout s.blk s.freeWord, draws := s.draws + 1 } :=
  (exec_next_iff (.hstatR offset) s _).2 ⟨on, rfl⟩

theorem exec_eccsrR_of_clockOn {s : State} (on : s.blk.clockOn = true) :
    exec .eccsrR s =
      .next { s with host.rdata := eccStatusWord s.par.layout s.blk s.freeWord, draws := s.draws + 1 } :=
  (exec_next_iff .eccsrR s _).2 ⟨on, rfl⟩

/-- Settles O25: the word answered shows `busy` at its bit and the draw elsewhere, and `busy` is the occupied slot. -/
theorem hostStatusReadShowsTheOccupiedSlot : Obligations.HostStatusReadShowsTheOccupiedSlot := by
  refine fun s offset hL => ⟨exec_off _ s, fun on => ⟨_, exec_hstatR_of_clockOn offset on, ?_⟩⟩
  obtain ⟨flag, elsewhere⟩ := hostStatusWord_bits hL s.blk s.freeWord
  refine ⟨?_, elsewhere, rfl⟩
  rw [flag]
  exact s.blk.busy_iff

/-- Settles O26: the word answered shows the busy input at its bit and the draw elsewhere. -/
theorem eccStatusReadShowsTheBusyInput : Obligations.EccStatusReadShowsTheBusyInput := by
  refine fun s hL => ⟨exec_off _ s, fun on => ⟨_, exec_eccsrR_of_clockOn on, ?_⟩⟩
  obtain ⟨flag, elsewhere⟩ := eccStatusWord_bits hL s.blk s.freeWord
  exact ⟨flag, elsewhere, rfl⟩

/- The turns of the environment -/

theorem step_pinTurn {s : State} {l : Bool} (hm : s.blk.refused = none) (ht : s.nextTurn = some (.envRb l)) :
    step s = .next (envRb l s.dropTurn) :=
  step_of_turn hm ht

theorem step_eccTurn {s : State} {b : Bool} (hm : s.blk.refused = none) (ht : s.nextTurn = some (.envEcc b)) :
    step s = .next (envEcc b s.dropTurn) :=
  step_of_turn hm ht

theorem dropTurn_of_cons {s : State} {turn : Turn} {rest : List Turn} (h : s.agenda = turn :: rest) :
    s.dropTurn = { s with agenda := rest } := by
  rw [State.dropTurn, h, List.tail_cons]

section
variable {l : Bool} {s : State} (change : l ≠ s.blk.rbLevel)
include change

/-- With edge detection an edge performs each of the three assignments. -/
theorem envRb_of_detected (detect : s.par.layout.cfgRbedge.bit s.blk.cfg = true) :
    envRb l s = { s with
      blk.rbFall := s.blk.rbFall || !l
      blk.rbRise := s.blk.rbRise || l
      blk.rbEdge0 := s.blk.rbEdge0 || isEdge0 s.par.behaviour.rbEdge0Polarity l
      blk.rbLevel := l } := by
  rw [envRb, if_neg change, if_pos detect]
  simp only [Block.pinEdge, Bool.and_true]

/-- Without edge detection each assignment of an edge has its own draw. -/
theorem envRb_of_undetected (blind : s.par.layout.cfgRbedge.bit s.blk.cfg = false) :
    envRb l s = { s with
      blk := s.blk.pinEdge s.par.behaviour.rbEdge0Polarity l (Config.drawBit s.draws) (Config.drawBit (s.draws + 1))
        (Config.drawBit (s.draws + 2))
      draws := s.draws + 3 } := by
  rw [envRb, if_neg change, blind, if_neg Bool.false_ne_true]
  rfl

end

/-- The edge to the level `l` sets `rb_edge0` under the polarity rising where `l` is 1, under falling where it is 0
(10_state.md R37). -/
theorem isEdge0_eq_ite (p : Edge) (l : Bool) : isEdge0 p l = if p = .rising then l else !l := by
  cases p <;> rfl

/-- Settles O33: each of the three cases of the pin's turn has its equation, and the polarity is `isEdge0_eq_ite`. -/
theorem pinEdgeSetsItsFlags : Obligations.PinEdgeSetsItsFlags := by
  intro s l rest hm ha
  rw [step_pinTurn hm (nextTurn_cons ha), dropTurn_of_cons ha, ← isEdge0_eq_ite]
  refine ⟨fun same => ?_, fun change detect => ?_, fun change blind => ?_⟩
  · exact congrArg _ (envRb_of_level same.symm)
  · exact congrArg _ (envRb_of_detected change detect)
  · exact ⟨_, congrArg _ (envRb_of_undetected change blind), rfl, rfl, rfl, rfl⟩

/-- Settles O34: the turn is its effect. -/
theorem eccInputTakesAnyValue : Obligations.EccInputTakesAnyValue := by
  intro s b rest hm ha
  rw [step_eccTurn hm (nextTurn_cons ha), dropTurn_of_cons ha]
  rfl

end Sys2Proof.Machine
end

section
/-! The family of 60_exceptions.md. An overlapping command has one equation, whatever its count and its lanes; a write
of window (c) with a count up to five is the command of that count. -/

namespace Sys2Proof.Machine

theorem accept_of_busy {s : State} {w : Word} (n : Nat) (a : Word) (on : s.blk.clockOn = true)
    (bits : s.par.layout.cmdBitsOk w = true) (busy : s.blk.phase ≠ .idle) :
    accept n w a s = .next { s with blk.fault := { s.blk.fault with overlap := true } } :=
  (accept_next_iff n w a s _).2 ⟨on, bits, .inl ⟨busy, rfl⟩⟩

theorem commandOf_of_le_five {n : Nat} (hn : n ≤ 5) (w a : Word) : commandOf n w a = .ok (command n w a) := by
  match n, hn with
  | 0, _ => rfl
  | 1, _ => rfl
  | 2, _ => rfl
  | 3, _ => rfl
  | 4, _ => rfl
  | 5, _ => rfl

/-- A write of window (c) whose count is not reserved is `accept` at that count (42_command_encoder.md R141). -/
theorem runTxn_writeCmd_eq_accept {s : State} {w : Word} (a : Word) (bits : s.par.layout.cmdBitsOk w = true)
    (count : s.par.layout.acycle w ≤ 5) :
    runTxn (writeTxn (.cmd w) a) s = accept (s.par.layout.acycle w) w a s :=
  (runTxn_writeCmd bits (commandOf_of_le_five count w a)).trans (exec_command _ count w a s)

/-- Settles O21: the six commands are `accept`, which overlaps at every count; the two reserved rows and the writes that
decode to them are O22. -/
theorem overlapIsRecordedAndNothingElse : Obligations.OverlapIsRecordedAndNothingElse := by
  intro s w a on busy bits t u
  have overlap (n : Nat) : accept n w a s = .next t := accept_of_busy n a on bits busy
  obtain ⟨-, -, reserved, written⟩ := reservedCountsRecordBadCycleCount s w a
  obtain ⟨rsv6, rsv7⟩ := reserved on busy
  obtain ⟨six, seven⟩ := written bits
  refine ⟨⟨overlap 0, overlap 1, overlap 2, overlap 3, overlap 4, overlap 5, rsv6, rsv7⟩, fun count => ?_, ?_⟩
  · exact (runTxn_writeCmd_eq_accept a bits count).trans (overlap _)
  · rintro (h | h)
    · exact (six h).trans rsv6
    · exact (seven h).trans rsv7

end Sys2Proof.Machine
end

section
/-! The transactions one by one, and what no run undoes. The frame of the 21 transactions (O28) is proved by one case
split along the instructions; that history, marks, mask and legality of the configuration are kept is one relation
between two states of a run (`State.Later`). -/

namespace Sys2Proof

/-- Under a well-formed layout the fields of the status register are one bit wide and inside the word. -/
theorem Layout.Wf.srField {L : Layout} (h : L.Wf) {f : Field} (hf : f ∈ L.srFields) :
    f.width = 1 ∧ f.lo + f.width ≤ 32 := by
  refine ⟨h.flagsOneBit f ?_, h.srInside f hf⟩
  simp only [Layout.srFields, Layout.eventFields, List.mem_cons, List.not_mem_nil, or_false] at hf
  simp only [Layout.flagFields, List.mem_cons]
  tauto

theorem and_ne_zero_iff (w m : Word) : w &&& m ≠ 0#32 ↔ ∃ i, w.getLsbD i = true ∧ m.getLsbD i = true := by
  constructor
  · contrapose!
    intro h
    apply BitVec.eq_of_getLsbD_eq
    intro i _
    rw [BitVec.getLsbD_and, BitVec.getLsbD_zero, Bool.and_eq_false_imp]
    exact fun hw => Bool.eq_false_iff.2 (h i hw)
  · rintro ⟨i, hw, hm⟩ h
    have bit := congrArg (fun x : Word => x.getLsbD i) h
    simp only [BitVec.getLsbD_and, hw, hm, BitVec.getLsbD_zero] at bit
    cases bit

end Sys2Proof

namespace Sys2Proof.Machine

/- The frame of the transactions -/

/-- Settles O28: past the clock each transaction is its effect, a state update that names the registers it writes. -/
theorem eachRegisterIsWrittenByItsOwnTransaction : Obligations.EachRegisterIsWrittenByItsOwnTransaction := by
  intro i s t h
  obtain ⟨-, h⟩ := (exec_next_iff i s t).1 h
  cases i with
  | cfgR | idrW m | srR | hstatR o | eccsrR =>
    cases h
    simp
  | cfgW v | ctrlW v | addrW v =>
    obtain ⟨-, -, rfl⟩ := h
    simp
  | nfcCmdA0 w a | nfcCmdA1 w a | nfcCmdA2 w a | nfcCmdA3 w a | nfcCmdA4 w a | nfcCmdA5 w a =>
    obtain ⟨-, ⟨-, rfl⟩ | ⟨-, -, rfl⟩⟩ := h <;> simp
  | nfcCmdRsv6 w a | nfcCmdRsv7 w a =>
    cases h
    split <;> simp
  | csSetupW cs v | csPulseW cs v | csCycleW cs v | csTimingsW cs v | csModeW cs v =>
    obtain ⟨-, rfl⟩ := h
    simp

/-- A transaction that changes the configuration register stores a legal word (41_sequencer_config.md R120). -/
theorem exec_cfg {i : Instr} {s t : State} (h : exec i s = .next t) :
    t.blk.cfg = s.blk.cfg ∨ s.par.cfgLegal t.blk.cfg = true := by
  obtain ⟨-, -, cfg, -⟩ := eachRegisterIsWrittenByItsOwnTransaction i s t h
  refine or_iff_not_imp_left.2 fun changed => ?_
  obtain ⟨v, rfl⟩ := cfg changed
  obtain ⟨-, -, legal, rfl⟩ := (execCfgW_next_iff v s t).1 h
  exact legal

/-- No transaction sets a bit of the interrupt mask (10_state.md R30). -/
theorem exec_imr {i : Instr} {s t : State} (h : exec i s = .next t) (k : Nat) (hk : t.blk.imr.getLsbD k = true) :
    s.blk.imr.getLsbD k = true := by
  obtain ⟨-, -, -, -, imr, -⟩ := eachRegisterIsWrittenByItsOwnTransaction i s t h
  by_cases changed : t.blk.imr = s.blk.imr
  · rwa [← changed]
  · obtain ⟨m, rfl⟩ := imr changed
    obtain ⟨-, rfl⟩ := (exec_next_iff _ s t).1 h
    exact (Bool.and_eq_true_iff.1 ((getLsbD_and_not ..).symm.trans hk)).1

/-- Every reason of `f` is one of `g`. -/
structure FaultSet.Within (f g : FaultSet) : Prop where
  overlap : f.overlap = true → g.overlap = true
  badCycleCount : f.badCycleCount = true → g.badCycleCount = true

theorem FaultSet.Within.of_eq {f g : FaultSet} (h : g = f) : f.Within g := by
  subst h
  exact ⟨id, id⟩

theorem State.raise_fault_within (r : FaultReason) (s : State) : s.blk.fault.Within (s.raise r).blk.fault := by
  cases r
  · exact ⟨fun _ => rfl, id⟩
  · exact ⟨id, fun _ => rfl⟩

theorem FaultSet.Within.trans {f g h : FaultSet} (hfg : f.Within g) (hgh : g.Within h) : f.Within h :=
  ⟨hgh.overlap ∘ hfg.overlap, hgh.badCycleCount ∘ hfg.badCycleCount⟩

theorem Accepted.fault_within {n : Nat} {w a : Word} {s t : State} (h : Accepted n w a s t) :
    s.blk.fault.Within t.blk.fault := by
  obtain ⟨-, ⟨-, rfl⟩ | ⟨-, -, rfl⟩⟩ := h
  · exact State.raise_fault_within _ s
  · exact .of_eq rfl

/-- No transaction removes a fault reason (10_state.md R45). -/
theorem exec_fault_within {i : Instr} {s t : State} (h : exec i s = .next t) : s.blk.fault.Within t.blk.fault := by
  obtain ⟨-, -, -, -, -, -, -, -, fault, -⟩ := eachRegisterIsWrittenByItsOwnTransaction i s t h
  obtain ⟨-, effect⟩ := (exec_next_iff i s t).1 h
  by_cases changed : t.blk.fault = s.blk.fault
  · exact .of_eq changed
  · obtain ⟨w, a, hi⟩ := fault changed
    simp only [List.mem_cons, List.not_mem_nil, or_false] at hi
    obtain rfl | rfl | rfl | rfl | rfl | rfl | rfl | rfl := hi
    case inr.inr.inr.inr.inr.inr.inl | inr.inr.inr.inr.inr.inr.inr =>
      cases effect
      split
      · exact (State.raise_fault_within _ s).trans (State.raise_fault_within _ _)
      · exact State.raise_fault_within _ s
    all_goals exact Accepted.fault_within effect

/- What no run undoes -/

/-- What holds of every state `t` of a run from `s`: nothing is taken from history, fault set and clock, the
configuration record is the same, no mask bit has been set, and a legal configuration register is still legal. -/
structure State.Later (s t : State) : Prop where
  par : t.par = s.par
  trace : s.blk.trace <+: t.blk.trace
  fault : s.blk.fault.Within t.blk.fault
  clockOn : s.blk.clockOn = true → t.blk.clockOn = true
  imr : ∀ k, t.blk.imr.getLsbD k = true → s.blk.imr.getLsbD k = true
  cfg : t.blk.cfg = s.blk.cfg ∨ s.par.cfgLegal t.blk.cfg = true

theorem State.Later.refl (s : State) : s.Later s :=
  ⟨rfl, List.prefix_rfl, .of_eq rfl, id, fun _ => id, .inl rfl⟩

theorem State.Later.trans {s t u : State} (hst : s.Later t) (htu : t.Later u) : s.Later u where
  par := htu.par.trans hst.par
  trace := hst.trace.trans htu.trace
  fault := hst.fault.trans htu.fault
  clockOn := htu.clockOn ∘ hst.clockOn
  imr k := hst.imr k ∘ htu.imr k
  cfg := by
    rcases htu.cfg with same | legal
    · rw [same]
      exact hst.cfg
    · exact .inr (hst.par ▸ legal)

theorem exec_later {i : Instr} {s t : State} (h : exec i s = .next t) : s.Later t := by
  obtain ⟨⟨par, -⟩, ⟨trace, -, -, clockOn, -⟩, -⟩ := eachRegisterIsWrittenByItsOwnTransaction i s t h
  exact ⟨par, by rw [trace], exec_fault_within h, by rw [clockOn]; exact id, exec_imr h, exec_cfg h⟩

theorem step_later {s t : State} (h : step s = .next t) : s.Later t := by
  obtain ⟨-, hk⟩ := step_next h
  cases hk with
  | dispatch _ _ out | transfer _ _ out =>
    cases out
    exact ⟨rfl, List.prefix_append _ _, .of_eq rfl, id, fun _ => id, .inl rfl⟩
  | pin l turn out =>
    obtain ⟨_, _, _, _, he⟩ := envRb_frame l s.dropTurn
    cases out.trans he
    exact ⟨rfl, List.prefix_rfl, .of_eq rfl, id, fun _ => id, .inl rfl⟩
  | marked _ _ out | ecc _ _ out | internal _ _ _ out =>
    cases out
    exact ⟨rfl, List.prefix_rfl, .of_eq rfl, id, fun _ => id, .inl rfl⟩
  | clock _ _ _ out =>
    cases out
    exact ⟨rfl, List.prefix_rfl, .of_eq rfl, fun _ => rfl, fun _ => id, .inl rfl⟩
  | txn i rest u g turn next wf run out =>
    obtain ⟨par, trace, fault, clockOn, imr, cfg⟩ := exec_later run
    cases out
    exact ⟨par, trace, fault, clockOn, imr, cfg⟩

theorem after_later {s t : State} {k : Nat} (h : s.after k = .next t) : s.Later t :=
  after_induction (P := s.Later) (fun _ _ hu step => hu.trans (step_later step)) k s t (.refl s) h

/-- Settles O40: every step keeps `State.Later`. -/
theorem historyAndMarksAreNeverUndone : Obligations.HistoryAndMarksAreNeverUndone := by
  intro s t k h
  have later := after_later h
  exact ⟨later.trace, later.fault.overlap, later.fault.badCycleCount, later.clockOn, later.par⟩

/-- Settles O44: a word written into the configuration register is a legal one, and a legal word has not both flags. -/
theorem configurationStaysLegal : Obligations.ConfigurationStaysLegal := by
  intro s t k legal h
  have later := after_later h
  have legal' : t.par.cfgLegal t.blk.cfg = true := by
    rw [later.par]
    rcases later.cfg with same | written
    · rw [same]
      exact legal
    · exact written
  obtain ⟨-, notBoth, -⟩ := (t.par.cfgLegal_iff _).1 legal'
  exact ⟨legal', notBoth⟩

/- The interrupt line -/

/-- The interrupt line is 1 exactly when a set event flag stands at a bit of the mask (10_state.md R47). -/
theorem irq_iff_event {L : Layout} (hL : L.Wf) (b : Block) :
    irq L b = true ↔ ∃ f ∈ L.eventFields, f.bit (statusWord L b 0#32) = true ∧ f.bit b.imr = true := by
  have one {f : Field} (hf : f ∈ L.eventFields) := hL.srField (List.mem_cons_of_mem _ hf)
  rw [irq, bne_iff_ne, and_ne_zero_iff]
  simp only [events, Layout.srEvents, BitVec.getLsbD_and, getLsbD_maskOf]
  constructor
  · rintro ⟨i, hev, himr⟩
    obtain ⟨hs, hm⟩ := Bool.and_eq_true_iff.1 hev
    obtain ⟨f, hf, hfi⟩ := List.any_eq_true.1 hm
    obtain ⟨hw, -⟩ := one hf
    rw [Field.getLsbD_mask] at hfi
    simp only [Bool.and_eq_true, decide_eq_true_eq] at hfi
    obtain rfl : i = f.lo := by omega
    exact ⟨f, hf, hs, himr⟩
  · rintro ⟨f, hf, hs, hm⟩
    obtain ⟨hw, hin⟩ := one hf
    have hlo : f.lo < 32 := by omega
    refine ⟨f.lo, ?_, hm⟩
    rw [Bool.and_eq_true, List.any_eq_true]
    exact ⟨hs, f, hf, by simp [Field.getLsbD_mask, hlo, hw]⟩

/-- Settles O41: no step sets a mask bit, and the line is `irq_iff_event` read flag by flag. -/
theorem interruptLineStaysLowOnceMasked : Obligations.InterruptLineStaysLowOnceMasked := by
  intro s t k h
  have later := after_later h
  refine ⟨later.imr, fun masked => irq_of_imr_zero _ ?_, fun hL => ?_⟩
  · apply BitVec.eq_of_getLsbD_eq
    intro i _
    rw [BitVec.getLsbD_zero, Bool.eq_false_iff]
    intro set
    have := later.imr i set
    rw [masked, BitVec.getLsbD_zero] at this
    cases this
  · obtain ⟨rise, fall, -, xfr, cmd, edge0, -⟩ := statusWord_bits hL t.blk 0#32
    rw [irq_iff_event hL]
    simp only [Layout.eventFields, List.mem_cons, List.not_mem_nil, or_false, exists_eq_or_imp, exists_eq_left, rise, fall,
      xfr, cmd, edge0]
    tauto

/- The bus cycles of a device -/

/-- Only the sequencer's turns add to the trace (10_state.md R44). -/
theorem step_trace_of_not_dispatchTurn {s t : State} (h : step s = .next t) (turn : s.nextTurn ≠ some .seqDispatch) :
    t.blk.trace = s.blk.trace ∨ t.blk.trace = s.blk.trace ++ [.dataDone s.blk.curCmd] := by
  obtain ⟨-, hk⟩ := step_next h
  cases hk with
  | dispatch dispatchTurn => exact absurd dispatchTurn turn
  | transfer _ _ out =>
    cases out
    exact .inr rfl
  | pin l _ out =>
    obtain ⟨_, _, _, _, he⟩ := envRb_frame l s.dropTurn
    cases out.trans he
    exact .inl rfl
  | marked _ _ out | ecc _ _ out | internal _ _ _ out | clock _ _ _ out =>
    cases out
    exact .inl rfl
  | txn i rest u g _ _ _ run out =>
    obtain ⟨-, ⟨trace, -⟩, -⟩ := eachRegisterIsWrittenByItsOwnTransaction _ _ _ run
    cases out
    exact .inl trace

/-- Settles O35: a dispatch adds its one event, whose cycles go to the chip select it names; the one other event, the end
of a data phase, has no cycles. -/
theorem dispatchReachesOnlyTheNamedChipSelect : Obligations.DispatchReachesOnlyTheNamedChipSelect := by
  intro s t cs h
  refine ⟨fun turn named => ?_, fun other => ?_⟩
  · rw [step_blk_of_dispatchTurn h turn, Block.dispatch_trace, received_append, received_singleton,
      Event.busOn_dispatched]
    exact congrArg _ (if_pos named)
  · by_cases turn : s.nextTurn = some .seqDispatch
    · have unnamed : ¬ chipSelect s.par.layout s.blk.curCmd = cs := fun named => other ⟨turn, named⟩
      rw [step_blk_of_dispatchTurn h turn, Block.dispatch_trace, received_append, received_singleton,
        Event.busOn_dispatched, if_neg unnamed, List.append_nil]
    · rcases step_trace_of_not_dispatchTurn h turn with same | done
      · rw [same]
      · rw [done, received_append, received_singleton, Event.busOn_dataDone, List.append_nil]

end Sys2Proof.Machine
end

section
/-! What every step keeps: the invariant `Inv`. A step that leaves slot and trace alone keeps it by `Inv.of_frame`; the
steps that do not are an accepted command, the dispatch and the end of a data phase. -/

namespace Sys2Proof.Machine

/-- `t` differs from `s` in nothing `Inv` speaks of, but that completion flags may have been cleared and, while the slot
is free, its latches and the extra-address register rewritten. -/
structure State.SameSlotAndTrace (s t : State) : Prop where
  par : t.par = s.par
  phase : t.blk.phase = s.blk.phase
  slot : s.blk.phase ≠ .idle → t.blk.curCmd = s.blk.curCmd ∧ t.blk.curAddr = s.blk.curAddr ∧
    t.blk.curAddr0 = s.blk.curAddr0 ∧ t.blk.addr0 = s.blk.addr0
  trace : t.blk.trace = s.blk.trace
  cmdDone : t.blk.cmdDone = true → s.blk.cmdDone = true
  xfrDone : t.blk.xfrDone = true → s.blk.xfrDone = true
  chips : t.t.length = s.t.length

theorem Inv.of_frame {s t : State} (hs : Inv s) (h : s.SameSlotAndTrace t) : Inv t where
  slot busy := by
    rw [h.phase] at busy
    obtain ⟨cmd, addr, addr0, reg⟩ := h.slot busy
    rw [h.par, cmd, addr, addr0, reg]
    exact hs.slot busy
  data inData := by
    rw [h.phase] at inData
    obtain ⟨cmd, addr, addr0, -⟩ := h.slot (by simp [inData])
    rw [Block.commandBytes, h.par, h.trace, cmd, addr, addr0]
    exact hs.data inData
  dispatched := by
    rw [h.par, h.trace]
    exact hs.dispatched
  transferred := by
    rw [h.par, h.trace]
    exact hs.transferred
  signalled := by
    rw [h.trace]
    exact ⟨hs.signalled.1 ∘ h.cmdDone, hs.signalled.2 ∘ h.xfrDone⟩
  chips := by
    rw [h.chips, h.par]
    exact hs.chips

/-- What `Inv` asks of the slot, when a command is accepted into it. -/
theorem Inv.of_latch {s : State} {n : Nat} {w a : Word} (hs : Inv s) (hn : n ≤ 5)
    (hw : s.par.layout.isCommand n w = true) (lanes : lanesOk n a = true) : Inv { s with blk := s.blk.latch w a } where
  slot _ := by
    obtain ⟨bits, count⟩ := Bool.and_eq_true_iff.1 hw
    rw [beq_iff_eq] at count
    refine ⟨?_, ?_, rfl⟩
    · simp only [Layout.legalCommand, Block.latch_curCmd, bits, count, decide_eq_true hn, Bool.and_self]
    · rw [Block.latch_curCmd, count]
      exact lanes
  data inData := nomatch inData
  dispatched := hs.dispatched
  transferred := hs.transferred
  signalled := hs.signalled
  chips := hs.chips

theorem Accepted.inv {n : Nat} {w a : Word} {s t : State} (h : Accepted n w a s t) (hs : Inv s) (hn : n ≤ 5)
    (hw : s.par.layout.isCommand n w = true) : Inv t := by
  obtain ⟨-, ⟨-, rfl⟩ | ⟨-, lanes, rfl⟩⟩ := h
  · exact hs.of_frame ⟨rfl, rfl, fun _ => ⟨rfl, rfl, rfl, rfl⟩, rfl, id, id, rfl⟩
  · exact hs.of_latch hn hw lanes

/-- Every transaction that decodes keeps the invariant. -/
theorem exec_inv {i : Instr} {s t : State} (hs : Inv s) (hw : i.wf s.par.layout = true) (h : exec i s = .next t) :
    Inv t := by
  obtain ⟨-, h⟩ := (exec_next_iff i s t).1 h
  cases i with
  | nfcCmdA0 w a => exact Accepted.inv h hs (by omega) hw
  | nfcCmdA1 w a => exact Accepted.inv h hs (by omega) hw
  | nfcCmdA2 w a => exact Accepted.inv h hs (by omega) hw
  | nfcCmdA3 w a => exact Accepted.inv h hs (by omega) hw
  | nfcCmdA4 w a => exact Accepted.inv h hs (by omega) hw
  | nfcCmdA5 w a => exact Accepted.inv h hs (by omega) hw
  | addrW v =>
    obtain ⟨-, idle, rfl⟩ := h
    exact hs.of_frame ⟨rfl, rfl, fun busy => absurd idle busy, rfl, id, id, rfl⟩
  | srR =>
    cases h
    exact hs.of_frame ⟨rfl, rfl, fun _ => ⟨rfl, rfl, rfl, rfl⟩, rfl, nofun, nofun, rfl⟩
  | cfgW v | ctrlW v =>
    obtain ⟨-, -, rfl⟩ := h
    exact hs.of_frame ⟨rfl, rfl, fun _ => ⟨rfl, rfl, rfl, rfl⟩, rfl, id, id, rfl⟩
  | cfgR | idrW m | hstatR o | eccsrR =>
    cases h
    exact hs.of_frame ⟨rfl, rfl, fun _ => ⟨rfl, rfl, rfl, rfl⟩, rfl, id, id, rfl⟩
  | nfcCmdRsv6 w a | nfcCmdRsv7 w a =>
    cases h
    split <;> exact hs.of_frame ⟨rfl, rfl, fun _ => ⟨rfl, rfl, rfl, rfl⟩, rfl, id, id, rfl⟩
  | csSetupW cs v | csPulseW cs v | csCycleW cs v | csTimingsW cs v | csModeW cs v =>
    obtain ⟨-, rfl⟩ := h
    exact hs.of_frame ⟨rfl, rfl, fun _ => ⟨rfl, rfl, rfl, rfl⟩, rfl, id, id, List.length_modify ..⟩

/-- `cycles` sends as many bytes as the command counts (42_command_encoder.md R149). -/
theorem length_cycles {n : Nat} (hn : n ≤ 5) (e : Byte) (a : Word) : (cycles n e a).length = n := by
  match n, hn with
  | 0, _ | 1, _ | 2, _ | 3, _ | 4, _ | 5, _ => rfl

/-- A dispatch goes on to a data phase only for a command that has one (42_command_encoder.md R152). -/
theorem dataen_of_dispatch {L : Layout} {b : Block} (h : (b.dispatch L).phase = .data) :
    L.cwDataen.bit b.curCmd = true := by
  by_contra noData
  rw [Block.dispatch_phase, if_neg noData] at h
  cases h

/-- The dispatch step keeps the invariant. -/
theorem Inv.of_dispatch {s : State} (hs : Inv s) (enabled : s.blk.phase = .issue) :
    Inv { s.dropTurn with blk := s.blk.dispatch s.par.layout } := by
  have slot := hs.slot (by simp [enabled])
  refine ⟨fun _ => slot, fun inData => ?_, fun w bytes hw => ?_, fun w hw => ?_, ⟨fun _ => ?_, fun done => ?_⟩, hs.chips⟩
  · exact ⟨dataen_of_dispatch inData, List.getLast?_concat⟩
  · rcases List.mem_append.1 hw with old | new
    · exact hs.dispatched w bytes old
    · cases List.mem_singleton.1 new
      have count := (Bool.and_eq_true_iff.1 slot.1).2
      exact ⟨slot.1, length_cycles (of_decide_eq_true count) _ _⟩
  · rcases List.mem_append.1 hw with old | new
    · obtain ⟨hd, bytes, mem⟩ := hs.transferred w old
      exact ⟨hd, bytes, List.mem_append_left _ mem⟩
    · cases List.mem_singleton.1 new
  · exact ⟨_, _, List.mem_append_right _ (List.mem_singleton_self _)⟩
  · obtain ⟨w, mem⟩ := hs.signalled.2 done
    exact ⟨w, List.mem_append_left _ mem⟩

/-- The end of a data phase keeps the invariant. -/
theorem Inv.of_transfer {s : State} (hs : Inv s) (enabled : s.blk.phase = .data) :
    Inv { s.dropTurn with blk := s.blk.transfer } := by
  obtain ⟨dataen, last⟩ := hs.data enabled
  refine ⟨fun busy => absurd rfl busy, nofun, fun w bytes hw => ?_, fun w hw => ?_, ⟨fun done => ?_, fun _ => ?_⟩, hs.chips⟩
  · rcases List.mem_append.1 hw with old | new
    · exact hs.dispatched w bytes old
    · cases List.mem_singleton.1 new
  · rcases List.mem_append.1 hw with old | new
    · obtain ⟨hd, bytes, mem⟩ := hs.transferred w old
      exact ⟨hd, bytes, List.mem_append_left _ mem⟩
    · cases List.mem_singleton.1 new
      exact ⟨dataen, _, List.mem_append_left _ (List.mem_of_getLast? last)⟩
  · obtain ⟨w, bytes, mem⟩ := hs.signalled.1 done
    exact ⟨w, bytes, List.mem_append_left _ mem⟩
  · exact ⟨_, List.mem_append_right _ (List.mem_singleton_self _)⟩

/-- Settles O42: the three steps that touch slot or trace, and the frame for every other. -/
theorem invariantIsKeptByEveryStep : Obligations.InvariantIsKeptByEveryStep := by
  intro s t hs h
  obtain ⟨-, hk⟩ := step_next h
  cases hk with
  | dispatch turn enabled out =>
    cases out
    exact hs.of_dispatch enabled
  | transfer turn enabled out =>
    cases out
    exact hs.of_transfer enabled
  | pin l turn out =>
    obtain ⟨_, _, _, _, he⟩ := envRb_frame l s.dropTurn
    cases out.trans he
    exact hs.of_frame ⟨rfl, rfl, fun _ => ⟨rfl, rfl, rfl, rfl⟩, rfl, id, id, rfl⟩
  | marked _ _ out | ecc _ _ out | internal _ _ _ out | clock _ _ _ out =>
    cases out
    exact hs.of_frame ⟨rfl, rfl, fun _ => ⟨rfl, rfl, rfl, rfl⟩, rfl, id, id, rfl⟩
  | txn i rest u g turn next wf run out =>
    have hs' : Inv (s.dropTurn.setOps rest) := hs.of_frame ⟨rfl, rfl, fun _ => ⟨rfl, rfl, rfl, rfl⟩, rfl, id, id, rfl⟩
    cases out
    exact (exec_inv hs' wf run).of_frame ⟨rfl, rfl, fun _ => ⟨rfl, rfl, rfl, rfl⟩, rfl, id, id, rfl⟩

/-- Settles O43: after reset the slot is free, the trace empty and no completion flag set, so each clause but the last
is about nothing; the chip selects are counted by `resetWith`. -/
theorem invariantHoldsAtReset : Obligations.InvariantHoldsAtReset := by
  refine fun p => ⟨?_, rfl, rfl, rfl, rfl, rfl⟩
  exact ⟨fun busy => absurd rfl busy, nofun, nofun, nofun, ⟨nofun, nofun⟩, List.length_replicate⟩

/- One step of the host, and the end of a marked run -/

/-- Settles O29: the host's turn is the operation at the head of its routine, settled; a transaction that decodes is its
instruction. -/
theorem stepRunsTheDecodedTransaction : Obligations.StepRunsTheDecodedTransaction := by
  intro s t x rest i hm turn ho hops hd
  have run : step s = settle s.dropTurn (exec i (s.dropTurn.setOps rest)) := by
    rw [step_of_op hm turn ho hops, hostOp, runTxn_of_decode (s := s.dropTurn.setOps rest) hd]
  have same : s.dropTurn.setOps rest = { s with agenda := s.agenda.tail, host.ops := rest } := rfl
  rw [same] at run
  refine ⟨fun next => ?_, fun r refused => ?_, exec_ne_fault i _⟩
  · rw [run, next]
    rfl
  · rw [run, refused]
    rfl

/-- Settles O30: a step starts unmarked by `step_next`, and a marked state answers its reason. -/
theorem markedRunOnlyRefuses : Obligations.MarkedRunOnlyRefuses := by
  refine fun s t k h => ⟨(step_next h).1, fun r marked => ?_⟩
  have stop : step t = .refused r := by
    simp only [step, machineStep, marked]
  rw [after_succ, stop]
  rfl

end Sys2Proof.Machine
end

section
/-! Encodings and addresses. `decode` and `encode` are inverse to each other window by window (O1, O2); that an access is
aligned is a fact about its address modulo 4, carried through the three windows (O4); an address in a window is its base
plus an offset (O12). -/

namespace Sys2Proof

/- Encode and decode -/

/-- A command word of the row with count `n` is decoded by that count (30_encoding.md R87). -/
theorem decode_command {L : Layout} {n : Nat} {w : Word} (a : Word) (h : L.isCommand n w = true) :
    decode L (writeTxn (.cmd w) a) = commandOf n w a := by
  obtain ⟨bits, count⟩ := Bool.and_eq_true_iff.1 h
  rw [decode_writeCmd L w a bits, beq_iff_eq.1 count]

/-- A read at an offset of the host status word is decoded as one (30_encoding.md R82). -/
theorem decode_hstat {L : Layout} {o : Word} (h : L.hstatAt o = true) : decode L (readTxn (.cmd o)) = .ok (.hstatR o) := by
  rw [readTxn, decode_eq]
  exact if_pos h

/-- Settles O1: each row by the lemma on its format. -/
theorem encodeThenDecodeReturnsInstruction : Obligations.EncodeThenDecodeReturnsInstruction := by
  intro L hL i hi
  cases i with
  | cfgW v => exact decode_writeCfg hL v
  | cfgR => exact decode_readCfg hL
  | idrW m => exact decode_writeIdr hL m
  | ctrlW v => exact decode_writeCtrl hL v
  | addrW v => exact decode_writeAddr hL v
  | nfcCmdA0 w a | nfcCmdA1 w a | nfcCmdA2 w a | nfcCmdA3 w a | nfcCmdA4 w a | nfcCmdA5 w a | nfcCmdRsv6 w a
  | nfcCmdRsv7 w a => exact decode_command a hi
  | srR => exact decode_readSr hL
  | hstatR o => exact decode_hstat hi
  | eccsrR => exact decode_readEccsr hL
  | csSetupW cs v | csPulseW cs v | csCycleW cs v | csTimingsW cs v | csModeW cs v => exact decode_writeCs L cs _ v

theorem encode_of_decodeCs {L : Layout} {index : Nat} {r : CsReg} {d : Dir} {i : Instr}
    (h : decodeCs index r d = .ok i) : encode L i = ⟨.cs index r, d, 4⟩ := by
  cases d with
  | read => cases h
  | write v => cases r <;> cases h <;> rfl

theorem encode_of_decodeReg {L : Layout} {o : Word} {d : Dir} {i : Instr} (h : decodeReg L o d = .ok i) :
    encode L i = ⟨.reg o, d, 4⟩ := by
  cases d with
  | read =>
    simp only [decodeReg] at h
    split_ifs at h with hcfg hsr hecc hlisted <;> cases h
    · rw [hcfg]; rfl
    · rw [hsr]; rfl
    · rw [hecc]; rfl
  | write v =>
    simp only [decodeReg] at h
    split_ifs at h with hcfg hctrl hidr haddr hlisted <;> cases h
    · rw [hcfg]; rfl
    · rw [hctrl]; rfl
    · rw [hidr]; rfl
    · rw [haddr]; rfl

theorem encode_of_commandOf {L : Layout} {n : Nat} {w a : Word} {i : Instr} (h : commandOf n w a = .ok i) :
    encode L i = writeTxn (.cmd w) a := by
  unfold commandOf at h
  split at h <;> cases h <;> rfl

theorem encode_of_decodeCmd {L : Layout} {o : Word} {d : Dir} {i : Instr} (h : decodeCmd L o d = .ok i) :
    encode L i = ⟨.cmd o, d, 4⟩ := by
  cases d with
  | read =>
    simp only [decodeCmd] at h
    split_ifs at h
    cases h
    rfl
  | write a =>
    simp only [decodeCmd] at h
    split_ifs at h
    exact encode_of_commandOf h

theorem decode_size {L : Layout} {x : Txn} {i : Instr} (h : decode L x = .ok i) : x.size = 4 := by
  by_contra hs
  rw [decode, if_pos hs] at h
  cases h

/-- Settles O2: width first, then window by window. -/
theorem decodeThenEncodeReturnsTransaction : Obligations.DecodeThenEncodeReturnsTransaction := by
  rintro L ⟨target, dir, size⟩ i h
  obtain rfl : size = 4 := decode_size h
  rw [decode_eq] at h
  cases target with
  | cs index r => exact encode_of_decodeCs h
  | csGap o => cases h
  | reg o =>
    simp only at h
    split_ifs at h
    exact encode_of_decodeReg h
  | cmd o => exact encode_of_decodeCmd h

/-- Settles O3: seven words, by evaluation of the decoder on them. -/
theorem wordsOfTheSpecDecodeToTheirRows : Obligations.WordsOfTheSpecDecodeToTheirRows := by
  unfold Obligations.WordsOfTheSpecDecodeToTheirRows
  decide

/- Aligned words -/

/-- A word is a multiple of 4 when its two low bits are zero (20_memory.md R67). -/
theorem and_three_eq_zero_iff (x : Word) : x &&& 3#32 = 0#32 ↔ x.toNat % 4 = 0 := by
  rw [← BitVec.toNat_inj, BitVec.toNat_and]
  exact Eq.congr_left (Nat.and_two_pow_sub_one_eq_mod x.toNat 2)

theorem aligned_of_sub {x b : Word} (hb : b &&& 3#32 = 0#32) (h : (x - b) &&& 3#32 = 0#32) : x &&& 3#32 = 0#32 := by
  rw [and_three_eq_zero_iff] at *
  bv_omega

theorem hstatAt_cmdBitsOk {L : Layout} {o : Word} (h : L.hstatAt o = true) : L.cmdBitsOk o = true :=
  (Bool.and_eq_true_iff.1 h).1

/-- What decodes in window (c) is a command word or an offset of the host status word, which are aligned alike. -/
theorem decodeCmd_cmdBitsOk {L : Layout} {o : Word} {d : Dir} {i : Instr} (h : decodeCmd L o d = .ok i) :
    L.cmdBitsOk o = true := by
  cases d with
  | read =>
    simp only [decodeCmd] at h
    split_ifs at h with hstat
    exact hstatAt_cmdBitsOk hstat
  | write a =>
    simp only [decodeCmd] at h
    split_ifs at h with bits
    exact bits

/-- What decodes is aligned (20_memory.md R67). -/
theorem decode_aligned {L : Layout} {x : Txn} {i : Instr} (h : decode L x = .ok i) : x.target.misaligned = false := by
  obtain ⟨target, dir, size⟩ := x
  obtain rfl : size = 4 := decode_size h
  rw [decode_eq] at h
  cases target with
  | cs index r => rfl
  | csGap o => cases h
  | reg o =>
    simp only at h
    split_ifs at h with odd
    exact bne_eq_false_iff_eq.2 (not_not.1 odd)
  | cmd o => exact bne_eq_false_iff_eq.2 (L.cmdBitsOk_aligned o (decodeCmd_cmdBitsOk h))

/- The registers of window (a) -/

theorem CsOffsets.find_mem {o : CsOffsets} {x : Word} {r : CsReg} (h : o.find x = some r) : x ∈ o.toList := by
  unfold CsOffsets.find at h
  split_ifs at h <;> simp [CsOffsets.toList, *]

/-- The offset of a register of window (a) is one of the list's; a gap stands for its own offset. -/
theorem csTarget_cases (x : Word) (os : List CsOffsets) :
    ∀ k, (∃ i r, csTarget x k os = .cs i r ∧ x ∈ os.flatMap CsOffsets.toList) ∨ csTarget x k os = .csGap x := by
  induction os with
  | nil => exact fun k => .inr rfl
  | cons o os ih =>
    intro k
    rw [List.flatMap_cons, csTarget]
    cases hf : o.find x with
    | some r => exact .inl ⟨k, r, rfl, List.mem_append_left _ (CsOffsets.find_mem hf)⟩
    | none =>
      rcases ih (k + 1) with ⟨i, r, he, hx⟩ | gap
      · exact .inl ⟨i, r, he, List.mem_append_right _ hx⟩
      · exact .inr gap

/-- The bits of window (c) reach above the two lowest: its fields are there (00_scope.md R16). -/
theorem Layout.Wf.two_le_window {L : Layout} (h : L.Wf) : 2 ≤ L.cmdWindowBits := by
  have := h.cwInside L.cwCmd1 (by simp [Layout.cwFields])
  omega

theorem lowMask_and_three {n : Nat} (h : 2 ≤ n) : lowMask n &&& 3#32 = 3#32 := by
  have low : (3#32 : Word) = lowMask 2 := rfl
  apply BitVec.eq_of_getLsbD_eq
  intro i _
  rw [low, BitVec.getLsbD_and, getLsbD_lowMask, getLsbD_lowMask, Bool.eq_iff_iff]
  simp only [Bool.and_eq_true, decide_eq_true_eq]
  omega

/-- An address whose offset is aligned is aligned: the windows start at a multiple of 4, and so do the registers of
window (a) (20_memory.md R67, notes/assumptions/23.md, 28.md). -/
theorem aligned_of_route {p : Params} {a : Word} {t : Target} (hp : p.Wf) (hr : route p a = some t)
    (ht : t.misaligned = false) : a &&& 3#32 = 0#32 := by
  unfold route at hr
  split_ifs at hr <;> cases hr
  · have h : (a &&& lowMask p.layout.cmdWindowBits) &&& 3#32 = 0#32 := bne_eq_false_iff_eq.1 ht
    rwa [BitVec.and_assoc, lowMask_and_three hp.layout.two_le_window] at h
  · exact aligned_of_sub hp.board.regAligned (bne_eq_false_iff_eq.1 ht)
  · refine aligned_of_sub hp.board.csBaseAligned ?_
    rcases csTarget_cases (a - p.board.csBase) p.board.csOffsets 0 with ⟨_, _, -, mem⟩ | gap
    · exact hp.board.csAligned _ mem
    · rw [gap] at ht
      exact bne_eq_false_iff_eq.1 ht

end Sys2Proof

namespace Sys2Proof.Machine

theorem runTxn_refused_of_error {x : Txn} {s : State} (h : ∀ i, decode s.par.layout x ≠ .ok i) :
    ∃ r, runTxn x s = .refused r := by
  unfold runTxn
  split
  · exact absurd ‹_› (h _)
  · rcases clocked_cases s (.refused (refusalOf ‹_›)) with hc | hc <;> exact ⟨_, hc⟩

theorem runTxn_refused_of_narrow_or_misaligned {x : Txn} (s : State) (h : x.size ≠ 4 ∨ x.target.misaligned = true) :
    ∃ r, runTxn x s = .refused r := by
  refine runTxn_refused_of_error fun i hi => ?_
  rcases h with narrow | odd
  · exact narrow (decode_size hi)
  · rw [decode_aligned hi] at odd
    cases odd

/-- Settles O4: what decodes is 4 bytes wide and aligned, and an aligned offset is an aligned address. -/
theorem narrowOrMisalignedAccessIsRefused : Obligations.NarrowOrMisalignedAccessIsRefused := by
  refine fun s x m => ⟨runTxn_refused_of_narrow_or_misaligned s, fun i hi => ⟨decode_size hi, decode_aligned hi⟩,
    fun hp bad => ?_⟩
  unfold runMem
  cases hm : m.txn s.par with
  | none => exact ⟨_, rfl⟩
  | some y =>
    obtain ⟨t, hr, rfl⟩ := Option.map_eq_some_iff.1 hm
    refine runTxn_refused_of_narrow_or_misaligned s (bad.imp id fun odd => ?_)
    by_contra ht
    exact odd (aligned_of_route hp hr (Bool.eq_false_iff.2 ht))

end Sys2Proof.Machine
end

section
/-! Routing of absolute addresses: an address is the base of a window plus an offset that does not carry, and the windows
of a well-formed board are apart, so `route` takes the branch of that window. -/

namespace Sys2Proof

theorem inWindow_iff (a base : Word) (len : Nat) :
    inWindow a base len = true ↔ base.toNat ≤ a.toNat ∧ a.toNat < base.toNat + len := by
  simp [inWindow]

theorem not_inWindow_iff (a base : Word) (len : Nat) :
    ¬ inWindow a base len = true ↔ a.toNat < base.toNat ∨ base.toNat + len ≤ a.toNat := by
  rw [inWindow_iff]
  omega

/-- An offset inside a window that ends within the address space does not carry. -/
theorem toNat_base_add {base x : Word} {len : Nat} (inside : base.toNat + len ≤ 2 ^ 32) (hx : x.toNat < len) :
    (base + x).toNat = base.toNat + x.toNat :=
  BitVec.toNat_add_of_lt (by omega)

theorem add_sub_base (base x : Word) : base + x - base = x := by
  rw [BitVec.add_comm, BitVec.add_sub_cancel]

theorem toNat_and_lowMask {n : Nat} (hn : n ≤ 32) (x : Word) : (x &&& lowMask n).toNat = x.toNat % 2 ^ n := by
  have hlt : 2 ^ n - 1 < 2 ^ 32 := by
    have : 2 ^ n ≤ 2 ^ 32 := Nat.pow_le_pow_right (by omega) hn
    have : 0 < 2 ^ n := Nat.two_pow_pos n
    omega
  rw [BitVec.toNat_and, lowMask, BitVec.toNat_ofNat, Nat.mod_eq_of_lt hlt, Nat.and_two_pow_sub_one_eq_mod]

/-- A command word is an offset of window (c) (20_memory.md R62). -/
theorem cmdBitsOk_lt {L : Layout} {w : Word} (h : L.cmdBitsOk w = true) : w.toNat < 2 ^ L.cmdWindowBits := by
  refine Nat.lt_pow_two_of_testBit _ fun i hi => ?_
  by_contra set
  have bit : w.getLsbD i = true := Bool.of_not_eq_false set
  have := (L.cmdBitsOk_iff w).1 h i (BitVec.lt_of_getLsbD bit) bit
  omega

section
variable {p : Params} (hp : p.Wf)
include hp

theorem route_regWindow {x : Word} (hx : x.toNat < p.board.regLen) : route p (p.board.regBase + x) = some (.reg x) := by
  have ha := toNat_base_add hp.board.regInside hx
  have apart := hp.board.regApartCmd
  have outside : ¬ inWindow (p.board.regBase + x) p.board.cmdBase (2 ^ p.layout.cmdWindowBits) = true := by
    rw [not_inWindow_iff]
    omega
  have inside : inWindow (p.board.regBase + x) p.board.regBase p.board.regLen = true := by
    rw [inWindow_iff]
    omega
  rw [route, if_neg outside, if_pos inside, add_sub_base]

theorem route_cmdWindow {x : Word} (hx : x.toNat < 2 ^ p.layout.cmdWindowBits) :
    route p (p.board.cmdBase + x) = some (.cmd x) := by
  have ha := toNat_base_add hp.board.cmdInside hx
  have inside : inWindow (p.board.cmdBase + x) p.board.cmdBase (2 ^ p.layout.cmdWindowBits) = true := by
    rw [inWindow_iff]
    omega
  have base : p.board.cmdBase.toNat % 2 ^ p.layout.cmdWindowBits = 0 := by
    rw [← toNat_and_lowMask hp.layout.window, hp.board.cmdAligned]
    rfl
  have offset : (p.board.cmdBase + x) &&& lowMask p.layout.cmdWindowBits = x := by
    apply BitVec.eq_of_toNat_eq
    rw [toNat_and_lowMask hp.layout.window, ha, Nat.add_mod, base, Nat.zero_add, Nat.mod_mod, Nat.mod_eq_of_lt hx]
  rw [route, if_pos inside, offset]

theorem route_csWindow {x : Word} (hx : x.toNat < p.board.csLen) :
    route p (p.board.csBase + x) = some (csTarget x 0 p.board.csOffsets) := by
  have ha := toNat_base_add hp.board.csInside hx
  have apartCmd := hp.board.csApartCmd
  have apartReg := hp.board.csApartReg
  have outsideCmd : ¬ inWindow (p.board.csBase + x) p.board.cmdBase (2 ^ p.layout.cmdWindowBits) = true := by
    rw [not_inWindow_iff]
    omega
  have outsideReg : ¬ inWindow (p.board.csBase + x) p.board.regBase p.board.regLen = true := by
    rw [not_inWindow_iff]
    omega
  have inside : inWindow (p.board.csBase + x) p.board.csBase p.board.csLen = true := by
    rw [inWindow_iff]
    omega
  rw [route, if_neg outsideCmd, if_neg outsideReg, if_pos inside, add_sub_base]

end

theorem CsOffsets.find_eq_none {o : CsOffsets} {x : Word}
    (h : x ≠ o.setup ∧ x ≠ o.pulse ∧ x ≠ o.cycle ∧ x ≠ o.timings ∧ x ≠ o.mode) : o.find x = none := by
  obtain ⟨h1, h2, h3, h4, h5⟩ := h
  rw [find, if_neg h1, if_neg h2, if_neg h3, if_neg h4, if_neg h5]

theorem CsOffsets.find_eq_none_of_not_mem {o : CsOffsets} {x : Word} (h : x ∉ o.toList) : o.find x = none :=
  find_eq_none (by simpa [toList] using h)

/-- Each of the five registers is found at its own offset. -/
theorem CsOffsets.find_own {o : CsOffsets} (h : o.toList.Nodup) :
    o.find o.setup = some .setup ∧ o.find o.pulse = some .pulse ∧ o.find o.cycle = some .cycle ∧
      o.find o.timings = some .timings ∧ o.find o.mode = some .mode := by
  simp only [toList, List.nodup_cons, List.mem_cons, List.not_mem_nil, or_false, not_or] at h
  obtain ⟨⟨sp, sc, st, sm⟩, ⟨pc, pt, pm⟩, ⟨ct, cm⟩, tm, -⟩ := h
  simp [find, Ne.symm sp, Ne.symm sc, Ne.symm st, Ne.symm sm, Ne.symm pc, Ne.symm pt, Ne.symm pm, Ne.symm ct,
    Ne.symm cm, Ne.symm tm]

/-- No two registers share an offset, so the search finds the chip select the offset belongs to. -/
theorem csTarget_of_find {o : CsOffsets} {x : Word} {r : CsReg} (hx : o.find x = some r) (os : List CsOffsets) :
    ∀ j k, (os.flatMap CsOffsets.toList).Nodup → os[k]? = some o → csTarget x j os = .cs (j + k) r := by
  induction os with
  | nil => exact fun j k _ hk => nomatch hk
  | cons o' os ih =>
    intro j k distinct hk
    rw [List.flatMap_cons, List.nodup_append'] at distinct
    obtain ⟨-, tail, disjoint⟩ := distinct
    rw [csTarget]
    cases k with
    | zero =>
      obtain rfl : o' = o := by simpa using hk
      rw [hx]
      rfl
    | succ k =>
      have hk' : os[k]? = some o := hk
      have later : x ∈ os.flatMap CsOffsets.toList :=
        List.mem_flatMap.2 ⟨o, List.mem_of_getElem? hk', CsOffsets.find_mem hx⟩
      rw [CsOffsets.find_eq_none_of_not_mem fun here => disjoint here later]
      simp only [ih (j + 1) k tail hk']
      rw [Nat.add_right_comm, Nat.add_assoc]

theorem csTarget_of_gap {x : Word} (os : List CsOffsets) :
    ∀ j, (∀ o ∈ os, x ≠ o.setup ∧ x ≠ o.pulse ∧ x ≠ o.cycle ∧ x ≠ o.timings ∧ x ≠ o.mode) → csTarget x j os = .csGap x := by
  induction os with
  | nil => exact fun _ _ => rfl
  | cons o os ih =>
    intro j h
    rw [csTarget, CsOffsets.find_eq_none (h o List.mem_cons_self)]
    exact ih (j + 1) fun o' ho' => h o' (List.mem_cons_of_mem _ ho')

/-- The address of each of the five registers of a chip select resolves to it (20_memory.md R63). -/
theorem route_csRegister {p : Params} (hp : p.Wf) {cs : Nat} {o : CsOffsets} {x : Word} {r : CsReg}
    (hcs : p.board.csOffsets[cs]? = some o) (hx : o.find x = some r) :
    route p (p.board.csBase + x) = some (.cs cs r) := by
  have mem : x ∈ p.board.csOffsets.flatMap CsOffsets.toList :=
    List.mem_flatMap.2 ⟨o, List.mem_of_getElem? hcs, CsOffsets.find_mem hx⟩
  have holds := hp.board.csHolds x mem
  rw [route_csWindow hp (by omega), csTarget_of_find hx _ 0 cs hp.board.csDistinct hcs, Nat.zero_add]

/-- Settles O12: one lemma for each window, and the search through the registers of window (a). -/
theorem addressesResolveToTheirWindow : Obligations.AddressesResolveToTheirWindow := by
  refine fun p hp => ⟨fun o ho => ?_, fun _ => route_regWindow hp, fun _ => cmdBitsOk_lt,
    fun x hx => ⟨toNat_base_add hp.board.cmdInside hx, route_cmdWindow hp hx⟩, fun cs o hcs => ?_, fun x hx gap => ?_,
    fun a reg cmd cs => ?_⟩
  · have := hp.board.regHolds o ho
    omega
  · have distinct : o.toList.Nodup := (List.nodup_flatMap.1 hp.board.csDistinct).1 o (List.mem_of_getElem? hcs)
    obtain ⟨setup, pulse, cycle, timings, mode⟩ := CsOffsets.find_own distinct
    exact ⟨route_csRegister hp hcs setup, route_csRegister hp hcs pulse, route_csRegister hp hcs cycle,
      route_csRegister hp hcs timings, route_csRegister hp hcs mode⟩
  · rw [route_csWindow hp hx, csTarget_of_gap _ 0 gap]
  · rw [route, if_neg ((not_inWindow_iff ..).2 cmd), if_neg ((not_inWindow_iff ..).2 reg),
      if_neg ((not_inWindow_iff ..).2 cs)]

end Sys2Proof
end

section
/-! Operand forms. The packed address word and its bytes are inverse to each other (O5, O7); a command word and a
configuration word hold the fields put into them (O8, O9, O10), each read back through the writes of the fields disjoint
from it. -/

namespace Sys2Proof.Machine

/- Packed address words -/

/-- The bytes of the lanes of a packed word, the lanes above the count being zero. -/
theorem cycles_lanes (e b0 b1 b2 b3 : Byte) :
    cycles 1 e (lane 0 b0) = [b0] ∧ cycles 2 e (lane 0 b0 ||| lane 1 b1) = [b0, b1] ∧
      cycles 3 e (lane 0 b0 ||| lane 1 b1 ||| lane 2 b2) = [b0, b1, b2] ∧
      cycles 4 e (lane 0 b0 ||| lane 1 b1 ||| lane 2 b2 ||| lane 3 b3) = [b0, b1, b2, b3] ∧
      cycles 5 e (lane 0 b0 ||| lane 1 b1 ||| lane 2 b2 ||| lane 3 b3) = [e, b0, b1, b2, b3] := by
  have one := laneByte_lanes b0 0#8 0#8 0#8
  have two := laneByte_lanes b0 b1 0#8 0#8
  have three := laneByte_lanes b0 b1 b2 0#8
  have four := laneByte_lanes b0 b1 b2 b3
  simp only [lane_zero, BitVec.or_zero] at one two three
  simp only [cycles, one, two, three, four, and_self]

/-- A packed word sends the bytes it was packed from (42_command_encoder.md R149). -/
theorem cycles_of_pack {n : Nat} {b : List Byte} {e : Option Byte} {a : Word} (e₀ : Byte)
    (h : pack n b = some (e, a)) : cycles n (e.getD e₀) a = b.take n := by
  unfold pack at h
  split at h <;> cases h
  case h_1 => rfl
  case h_2 b0 _ =>
    obtain ⟨one, -⟩ := cycles_lanes e₀ b0 0#8 0#8 0#8
    exact one
  case h_3 b0 b1 _ =>
    obtain ⟨-, two, -⟩ := cycles_lanes e₀ b0 b1 0#8 0#8
    exact two
  case h_4 b0 b1 b2 _ =>
    obtain ⟨-, -, three, -⟩ := cycles_lanes e₀ b0 b1 b2 0#8
    exact three
  case h_5 b0 b1 b2 b3 _ =>
    obtain ⟨-, -, -, four, -⟩ := cycles_lanes e₀ b0 b1 b2 b3
    exact four
  case h_6 b0 b1 b2 b3 b4 _ =>
    obtain ⟨-, -, -, -, five⟩ := cycles_lanes b0 b1 b2 b3 b4
    exact five

/-- Five cycles, and no fewer, take a byte for the extra-address register: the first (30_encoding.md R93). -/
theorem extra_of_pack {n : Nat} {b : List Byte} {e : Option Byte} {a : Word} (h : pack n b = some (e, a)) :
    e = if n = 5 then b.head? else none := by
  unfold pack at h
  split at h <;> cases h <;> rfl

/-- `pack` is defined for a legal count and enough bytes (30_encoding.md R93). -/
theorem exists_pack_eq_some {n : Nat} {b : List Byte} (hn : n ≤ 5) (hb : n ≤ b.length) : ∃ e a, pack n b = some (e, a) := by
  match n, b, hn, hb with
  | 0, _, _, _ | 1, _ :: _, _, _ | 2, _ :: _ :: _, _, _ | 3, _ :: _ :: _ :: _, _, _ | 4, _ :: _ :: _ :: _ :: _, _, _
  | 5, _ :: _ :: _ :: _ :: _ :: _, _, _ => exact ⟨_, _, rfl⟩

theorem le_length_of_pack {n : Nat} {b : List Byte} {r : Option Byte × Word} (h : pack n b = some r) : n ≤ b.length := by
  unfold pack at h
  split at h <;> cases h <;> simp

/-- Settles O5: the lanes in order by evaluation, the round trip by `cycles_of_pack`. -/
theorem packThenCyclesReturnsTheBytes : Obligations.PackThenCyclesReturnsTheBytes := by
  refine ⟨fun e a => ⟨rfl, rfl, fun k hk => ?_, fun n hn => ?_⟩, fun n b e₀ hn hb => ?_⟩
  · match k, hk with
    | 0, _ | 1, _ | 2, _ | 3, _ => rfl
  · match n, hn with
    | 0, _ | 1, _ | 2, _ | 3, _ => rfl
  · obtain ⟨e, a, h⟩ := exists_pack_eq_some hn hb.ge
    refine ⟨e, a, h, ?_, ?_⟩
    · rw [cycles_of_pack e₀ h, ← hb, List.take_length]
    · rw [extra_of_pack h]
      split
      · obtain ⟨b0, bs, rfl⟩ := List.exists_cons_of_length_eq_add_one (hb.trans ‹n = 5›)
        exact iff_of_true rfl ‹_›
      · exact iff_of_false Bool.false_ne_true ‹_›

/-- The lanes at and above the count are zero (42_command_encoder.md R150). -/
theorem laneByte_of_lanesOk {n k : Nat} {a : Word} (h : lanesOk n a = true) (hk : n ≤ k) : laneByte k a = 0#8 :=
  laneByte_eq_zero k a fun i hi => (lanesOk_iff n a).1 h i (by omega)

/-- Settles O7: a word is its four lanes, and those above the count are zero. -/
theorem cyclesThenPackReturnsTheWord : Obligations.CyclesThenPackReturnsTheWord := by
  intro n e a hn h
  have zero : ∀ k, n ≤ k → laneByte k a = 0#8 := fun k => laneByte_of_lanesOk h
  have lanes := lanes_laneByte a
  match n, hn, zero with
  | 0, _, zero | 1, _, zero | 2, _, zero | 3, _, zero =>
    simp only [zero, Nat.le_refl, Nat.reduceLeDiff, lane_zero, BitVec.or_zero] at lanes
    simp [pack, cycles, lanes]
  | 4, _, _ | 5, _, _ => simp [pack, cycles, lanes]

end Sys2Proof.Machine
end

section
/-! Words assembled from fields. The command word, the configuration word and the mode words are each a row of field
writes into zero (`Field.setAll`): a row of disjoint fields that hold their values reads them all back, and has no one
outside its fields. -/

namespace Sys2Proof

/-- The word `w` with each field of a row written, first to last. -/
def Field.setAll (row : List (Field × Word)) (w : Word) : Word := row.foldl (fun w fv => fv.1.set w fv.2) w

theorem Field.get_setAll_other {f : Field} {row : List (Field × Word)} (h : ∀ fv ∈ row, Field.Disjoint f fv.1) :
    ∀ w, f.get (Field.setAll row w) = f.get w := by
  induction row with
  | nil => exact fun _ => rfl
  | cons fv row ih =>
    intro w
    rw [setAll, List.foldl_cons]
    exact (ih (fun x hx => h x (List.mem_cons_of_mem _ hx)) _).trans (f.get_set_other _ _ _ (h fv List.mem_cons_self))

/-- A row of disjoint fields inside the word reads back each value that fits its field. -/
theorem Field.get_setAll {row : List (Field × Word)} (disjoint : (row.map Prod.fst).Pairwise Field.Disjoint)
    (inside : ∀ f ∈ row.map Prod.fst, f.lo + f.width ≤ 32) {f : Field} {v : Word} (mem : (f, v) ∈ row)
    (fits : f.fits v = true) : ∀ w, f.get (Field.setAll row w) = v := by
  induction row with
  | nil => cases mem
  | cons fv row ih =>
    intro w
    rw [List.map_cons, List.pairwise_cons] at disjoint
    rw [List.map_cons, List.forall_mem_cons] at inside
    rw [setAll, List.foldl_cons]
    rcases List.mem_cons.1 mem with rfl | later
    · exact (get_setAll_other (fun x hx => disjoint.1 _ (List.mem_map_of_mem hx)) _).trans
        (f.get_set_self w v inside.1 fits)
    · exact ih disjoint.2 inside.2 later _

/-- Each one of a row written into `w` is one of `w` or lies in a field of the row. -/
theorem Field.getLsbD_setAll {row : List (Field × Word)} {i : Nat} :
    ∀ w, (Field.setAll row w).getLsbD i = true →
      w.getLsbD i = true ∨ ∃ f ∈ row.map Prod.fst, f.lo ≤ i ∧ i < f.lo + f.width := by
  induction row with
  | nil => exact fun _ h => .inl h
  | cons fv row ih =>
    intro w h
    rw [setAll, List.foldl_cons] at h
    rcases ih _ h with now | ⟨f, hf, at_i⟩
    · rw [Field.getLsbD_set] at now
      split at now
      · rename_i at_i
        exact .inr ⟨fv.1, List.mem_cons_self, at_i.1, at_i.2.1⟩
      · exact .inl now
    · exact .inr ⟨f, List.mem_cons_of_mem _ hf, at_i⟩

theorem Field.getLsbD_setAll_zero {row : List (Field × Word)} {i : Nat}
    (h : (Field.setAll row 0#32).getLsbD i = true) : ∃ f ∈ row.map Prod.fst, f.lo ≤ i ∧ i < f.lo + f.width := by
  rcases getLsbD_setAll _ h with zero | inside
  · rw [BitVec.getLsbD_zero] at zero
    cases zero
  · exact inside

/-- The value a flag is written with. -/
def flagWord (b : Bool) : Word := if b then 1#32 else 0#32

theorem Field.fits_flagWord {f : Field} (hf : f.width = 1) (b : Bool) : f.fits (flagWord b) = true := by
  rw [Field.fits_iff, hf]
  intro i hi
  have hi0 : i ≠ 0 := by omega
  cases b <;> simp [flagWord, BitVec.getLsbD_one, hi0]

/-- A one-bit field that holds a flag's value is the flag. -/
theorem Field.bit_of_get_flagWord {f : Field} {w : Word} {b : Bool} (hf : f.width = 1) (h : f.get w = flagWord b) :
    f.bit w = b := by
  have low := congrArg (fun x : Word => x.getLsbD 0) h
  rw [Field.getLsbD_get, hf] at low
  cases b <;> simpa [flagWord, Field.bit] using low

theorem Field.fits_zeroExtend {f : Field} (hf : f.width = 8) (x : Byte) : f.fits (x.zeroExtend 32) = true := by
  rw [Field.fits_iff, hf]
  intro i hi
  rw [BitVec.zeroExtend, BitVec.getLsbD_setWidth, BitVec.getLsbD_of_ge x i hi, Bool.and_false]

theorem setWidth_zeroExtend (x : Byte) : (x.zeroExtend 32).setWidth 8 = x := by
  rw [BitVec.zeroExtend, BitVec.setWidth_setWidth_of_le x (by omega), BitVec.setWidth_eq]

end Sys2Proof

namespace Sys2Proof.Machine

/- The command word -/

/-- The fields of a command word with their values (30_encoding.md R95). -/
def commandRow (L : Layout) (cmd1 cmd2 : Byte) (vcmd2 : Bool) (n cs : Word) (dataen nfcwr : Bool) :
    List (Field × Word) :=
  [(L.cwCmd1, cmd1.zeroExtend 32), (L.cwCmd2, cmd2.zeroExtend 32), (L.cwVcmd2, flagWord vcmd2), (L.cwAcycle, n),
    (L.cwCsid, cs), (L.cwDataen, flagWord dataen), (L.cwNfcwr, flagWord nfcwr)]

theorem commandWord_eq_setAll (L : Layout) (cmd1 cmd2 : Byte) (vcmd2 : Bool) (n cs : Word) (dataen nfcwr : Bool) :
    commandWord L cmd1 cmd2 vcmd2 n cs dataen nfcwr =
      Field.setAll (commandRow L cmd1 cmd2 vcmd2 n cs dataen nfcwr) 0#32 := rfl

/-- Settles O8: the command word is a row of the seven fields, which are disjoint and inside the command window. -/
theorem commandWordHoldsItsFields : Obligations.CommandWordHoldsItsFields := by
  intro L cmd1 cmd2 vcmd2 dataen nfcwr n cs hL fitsCount fitsCs
  have inside : ∀ f ∈ L.cwFields, f.lo + f.width ≤ 32 := fun f hf => (hL.cwInside f hf).2.trans hL.window
  have read {f : Field} {v : Word} := Field.get_setAll (row := commandRow L cmd1 cmd2 vcmd2 n cs dataen nfcwr) (f := f)
    (v := v) (w := 0#32) hL.cwDisjoint inside
  have ones {i : Nat} := Field.getLsbD_setAll_zero (row := commandRow L cmd1 cmd2 vcmd2 n cs dataen nfcwr) (i := i)
  have oneBit {f : Field} (hf : f ∈ L.flagFields) := hL.flagsOneBit f hf
  have flag {f : Field} {b : Bool} (hf : f ∈ L.flagFields)
      (mem : (f, flagWord b) ∈ commandRow L cmd1 cmd2 vcmd2 n cs dataen nfcwr) :=
    Field.bit_of_get_flagWord (oneBit hf) (read mem (Field.fits_flagWord (oneBit hf) b))
  simp only [commandWord_eq_setAll]
  refine ⟨?_, ?_, ?_, ?_, ?_, ?_, ?_, ?_, fun i => ones⟩
  · rw [Layout.cmdBitsOk_iff]
    intro i _ one
    obtain ⟨f, hf, hlo, hhi⟩ := ones one
    have := hL.cwInside f hf
    omega
  · exact congrArg BitVec.toNat (read (by simp [commandRow]) fitsCount)
  · exact read (by simp [commandRow]) fitsCs
  · exact read (by simp [commandRow]) (Field.fits_zeroExtend hL.cmd1Byte cmd1)
  · exact read (by simp [commandRow]) (Field.fits_zeroExtend hL.cmd2Byte cmd2)
  · exact flag (by simp [Layout.flagFields]) (by simp [commandRow])
  · exact flag (by simp [Layout.flagFields]) (by simp [commandRow])
  · exact flag (by simp [Layout.flagFields]) (by simp [commandRow])

/-- Settles O9: the cycles are read from the fields of the word, and its chip select is one of them. -/
theorem busCyclesOfACommand : Obligations.BusCyclesOfACommand := by
  intro L cmd1 cmd2 vcmd2 dataen nfcwr n cs bytes hL fitsCount fitsCs
  obtain ⟨-, -, csid, first, second, valid, -⟩ :=
    commandWordHoldsItsFields L cmd1 cmd2 vcmd2 dataen nfcwr n cs hL fitsCount fitsCs
  have cycles : bus L (commandWord L cmd1 cmd2 vcmd2 n cs dataen nfcwr) bytes =
      .cmdCycle cmd1 :: (bytes.map .addrCycle ++ if vcmd2 then [.cmdCycle cmd2] else []) := by
    rw [bus, first, second, valid, setWidth_zeroExtend, setWidth_zeroExtend, List.append_assoc, List.singleton_append]
  refine ⟨cycles, fun k => ?_⟩
  rw [received_singleton, Event.busOn_dispatched, chipSelect, csid, cycles]
  exact if_congr eq_comm rfl rfl

/- The configuration word -/

/-- The fields of a configuration word with their values (30_encoding.md R94). -/
def configRow (p : Params) (code f : Word) (readSpare writeSpare : Bool) : List (Field × Word) :=
  [(p.layout.cfgSparesize, f), (p.layout.cfgDtocyc, 15#32), (p.layout.cfgDtomul, p.behaviour.dtomulX1048576),
    (p.layout.cfgRbedge, flagWord true), (p.layout.cfgRspare, flagWord readSpare),
    (p.layout.cfgWspare, flagWord writeSpare), (p.layout.cfgPagesize, code)]

theorem cfgwordOf_eq_setAll (p : Params) (code f : Word) (readSpare writeSpare : Bool) :
    cfgwordOf p code f readSpare writeSpare = Field.setAll (configRow p code f readSpare writeSpare) 0#32 := rfl

/-- The word is written in another order than the register's fields are listed. -/
theorem configRow_perm (p : Params) (code f : Word) (readSpare writeSpare : Bool) :
    ((configRow p code f readSpare writeSpare).map Prod.fst).Perm p.layout.cfgFields :=
  (List.Perm.cons _ (List.Perm.swap ..)).trans (List.reverse_perm p.layout.cfgFields)

theorem fits_of_cfgword {p : Params} {pageSize spareSize v : Word} {readSpare writeSpare : Bool}
    (h : cfgword p pageSize spareSize readSpare writeSpare = some v) :
    p.layout.cfgSparesize.fits (spareField spareSize) = true := by
  unfold cfgword at h
  split at h
  · cases h
  · split at h
    · assumption
    · cases h

theorem fits_fifteen {f : Field} (h : 4 ≤ f.width) : f.fits 15#32 = true := by
  rw [Field.fits_iff]
  intro i hi
  have low : (15#32 : Word) = lowMask 4 := rfl
  rw [low, getLsbD_lowMask, decide_eq_false (by omega : ¬ i < 4), Bool.false_and]

/-- Settles O10: the configuration word is a row of the seven fields, each of a width its value fits. -/
theorem configurationWordHoldsItsFields : Obligations.ConfigurationWordHoldsItsFields := by
  intro p pageSize spareSize v readSpare writeSpare hL hB h
  obtain ⟨code, supported, lookup, fitsCode, hv⟩ := cfgword_eq_some hB h
  have read {f : Field} {x : Word} (mem : (f, x) ∈ configRow p code (spareField spareSize) readSpare writeSpare)
      (fits : f.fits x = true) : f.get v = x := by
    rw [hv, cfgwordOf_eq_setAll]
    have same := configRow_perm p code (spareField spareSize) readSpare writeSpare
    exact Field.get_setAll ((same.pairwise_iff Field.Disjoint.symm).2 hL.cfgDisjoint)
      (fun g hg => hL.cfgInside g (same.mem_iff.1 hg)) mem fits _
  have cycles := read (by simp [configRow]) (fits_fifteen hL.dtocycWide)
  have multiplier := read (by simp [configRow]) hB.dtomulFits
  have edge := hL.flagsOneBit p.layout.cfgRbedge (by simp [Layout.flagFields])
  refine ⟨cycles, multiplier, ?_, ?_, ?_, read (by simp [configRow]) (fits_of_cfgword h), ?_, ?_,
    fun notBoth => cfgLegal_of_cfgword hL hB notBoth h⟩
  · exact Field.bit_of_get_flagWord edge (read (by simp [configRow]) (Field.fits_flagWord edge true))
  · rw [hv, cfgRspare_bit_cfgwordOf hL]
  · rw [hv, cfgWspare_bit_cfgwordOf hL]
  · rw [read (by simp [configRow]) fitsCode, Behaviour.codeOf, if_pos supported, lookup]
  · rw [timeoutCycles, if_pos multiplier, cycles]
    rfl

/-- Settles O11: for a non-zero count the subtraction does not wrap, and the shift divides by 4. -/
theorem spareFieldRoundsUpToFourBytes : Obligations.SpareFieldRoundsUpToFourBytes := by
  refine ⟨fun n hn => ?_, by decide⟩
  have pos : n.toNat ≠ 0 := fun h => hn (BitVec.eq_of_toNat_eq h)
  have sub : (n - 1#32).toNat = n.toNat - 1 := by bv_omega
  rw [spareArea, spareField, BitVec.toNat_ushiftRight, sub, Nat.shiftRight_eq_div_pow]
  omega

/- The default layout -/

theorem default_bothSpareFlags_iff (v : Word) :
    Layout.default.bothSpareFlags v ↔ v &&& 0x00000300#32 = 0x00000300#32 := by
  have bits : Layout.default.bothSpareFlags v ↔ v.getLsbD 9 = true ∧ v.getLsbD 8 = true := Iff.rfl
  rw [bits]
  constructor
  · rintro ⟨h9, h8⟩
    apply BitVec.eq_of_getLsbD_eq
    intro i hi
    rw [BitVec.getLsbD_and]
    interval_cases i <;> simp [h8, h9]
  · intro h
    have bit (i : Nat) : (v.getLsbD i && (0x300#32).getLsbD i) = (0x300#32).getLsbD i := by
      rw [← BitVec.getLsbD_and, h]
    exact ⟨by simpa using bit 9, by simpa using bit 8⟩

theorem default_isPageCode_iff (c : Word) : Behaviour.default.isPageCode c = true ↔ c.toNat ≤ 4 := by
  have codes : Behaviour.default.isPageCode c = true ↔ 0#32 = c ∨ 1#32 = c ∨ 2#32 = c ∨ 3#32 = c ∨ 4#32 = c := by
    simp [Behaviour.isPageCode, Behaviour.default, List.lookup]
  rw [codes]
  bv_omega

/-- The words `CFG.W` admits under the defaults, bit by bit (30_encoding.md R98; notes/assumptions/20.md). -/
theorem default_cfgLegal_iff {p : Params} (hL : p.layout = Layout.default) (hB : p.behaviour = Behaviour.default)
    (v : Word) : p.cfgLegal v = true ↔
      v &&& 0x8080DCF8#32 = 0#32 ∧ v &&& 0x00000300#32 ≠ 0x00000300#32 ∧ (v &&& 7#32).toNat ≤ 4 := by
  have reserved : ~~~ Layout.default.cfgDefined = 0x8080DCF8#32 := by decide
  have code : Layout.default.cfgPagesize.get v = v &&& 7#32 := by
    rw [Field.get, show Layout.default.cfgPagesize.lo = 0 from rfl, BitVec.ushiftRight_zero]
    rfl
  rw [p.cfgLegal_iff, p.layout.reservedBitSet_iff, not_not, p.pageCodeKnown_iff, hL, hB, reserved, code,
    default_bothSpareFlags_iff, default_isPageCode_iff]

/-- A transaction that answers no next state is refused: it answers no fault. -/
theorem exec_refused_of_ne_next {i : Instr} {s : State} (h : ∀ t, exec i s ≠ .next t) : ∃ r, exec i s = .refused r := by
  cases he : exec i s with
  | next t => exact absurd he (h t)
  | fault f => exact absurd he (exec_ne_fault i s f)
  | refused r => exact ⟨r, rfl⟩

/-- Settles O15: `CFG.W` stores the words the rule admits, which the default layout gives bit by bit. -/
theorem legalConfigurationWordsByDefault : Obligations.LegalConfigurationWordsByDefault := by
  intro s v hL hB
  have legal := default_cfgLegal_iff hL hB v
  refine ⟨legal, fun on idle => ⟨fun h => execCfgW_of_cfgLegal on idle (legal.2 h), fun h => ?_⟩⟩
  refine exec_refused_of_ne_next fun t ht => ?_
  obtain ⟨-, -, admitted, -⟩ := (execCfgW_next_iff v s t).1 ht
  exact h (legal.1 admitted)

end Sys2Proof.Machine
end

section
/-! The command-decoded writes, the status read and the interrupt-disable write: one equation per check of `accept`, and
the status word bit by bit (`statusWord_bits`). -/

namespace Sys2Proof.Machine

/- The six commands -/

section
variable {s : State} {w : Word} (n : Nat) (a : Word) (on : s.blk.clockOn = true)
include on

theorem accept_of_bad_bits (bits : s.par.layout.cmdBitsOk w = false) : accept n w a s = .refused .reservedBits := by
  rw [accept, clocked_on _ _ on, bits]
  rfl

variable (bits : s.par.layout.cmdBitsOk w = true) (idle : s.blk.phase = .idle)
include bits idle

theorem accept_of_used_lane (lanes : lanesOk n a = false) : accept n w a s = .refused .unusedLaneNonZero := by
  rw [accept, clocked_on _ _ on, bits, if_neg (by simp), if_neg (Block.not_busy_of_idle idle), lanes]
  rfl

theorem accept_of_idle (lanes : lanesOk n a = true) : accept n w a s = .next { s with blk := s.blk.latch w a } :=
  (accept_next_iff n w a s _).2 ⟨on, bits, .inr ⟨idle, lanes, rfl⟩⟩

end

/-- A lane above the count is used exactly when `lanes_ok` fails (42_command_encoder.md R150). -/
theorem lanesOk_eq_false_iff (n : Nat) (a : Word) : lanesOk n a = false ↔ ∃ k, 8 * n ≤ k ∧ a.getLsbD k = true := by
  rw [← Bool.not_eq_true, lanesOk_iff]
  push Not
  simp only [Bool.not_eq_false]

/-- The forbidden bits of a command word under the default layout (30_encoding.md R83; notes/assumptions/20.md). -/
theorem default_cmdBitsOk_iff (w : Word) : Layout.default.cmdBitsOk w = true ↔ w &&& 0xF8000003#32 = 0#32 := by
  have forbidden : ~~~ Layout.default.cmdAllowed = 0xF8000003#32 := by decide
  rw [Layout.cmdBitsOk, forbidden, beq_iff_eq]

/-- The six rows are `accept` at their count. -/
theorem exec_eq_accept_of_mem {p : Nat × Instr} {w a : Word}
    (h : p ∈ [(0, Instr.nfcCmdA0 w a), (1, .nfcCmdA1 w a), (2, .nfcCmdA2 w a), (3, .nfcCmdA3 w a), (4, .nfcCmdA4 w a),
      (5, .nfcCmdA5 w a)]) : p.1 ≤ 5 ∧ ∀ s, exec p.2 s = accept p.1 w a s := by
  simp only [List.mem_cons, List.not_mem_nil, or_false] at h
  obtain rfl | rfl | rfl | rfl | rfl | rfl := h <;> exact ⟨by simp, fun _ => rfl⟩

/-- Settles O20: the clock is checked by every transaction, and each later check of `accept` has its equation. -/
theorem commandIsAcceptedOnlyIntoAFreeSlot : Obligations.CommandIsAcceptedOnlyIntoAFreeSlot := by
  intro s w a p hp
  obtain ⟨hn, run⟩ := exec_eq_accept_of_mem hp
  simp only [← lanesOk_eq_false_iff, Bool.not_eq_false]
  refine ⟨exec_off _ s, ?_⟩
  rw [run s]
  refine ⟨accept_of_bad_bits _ a, accept_of_busy _ a, accept_of_used_lane _ a, accept_of_idle _ a, fun hL => ?_,
    fun bits count => ?_⟩
  · rw [hL]
    exact default_cmdBitsOk_iff w
  · rw [runTxn_writeCmd_eq_accept a bits (count ▸ hn), count]

/- The status read -/

theorem exec_srR_of_clockOn {s : State} (on : s.blk.clockOn = true) :
    exec .srR s = .next { s with
      blk := s.blk.clearEvents, host.rdata := statusWord s.par.layout s.blk s.freeWord, draws := s.draws + 1 } :=
  clocked_on _ _ on

/-- Settles O23: the word answered is `statusWord`, bit by bit `statusWord_bits`. -/
theorem statusReadSamplesThenClearsTheEvents : Obligations.StatusReadSamplesThenClearsTheEvents := by
  refine fun s hL => ⟨exec_off _ s, fun on => ⟨_, exec_srR_of_clockOn on, ?_⟩⟩
  obtain ⟨rise, fall, busy, xfr, cmd, edge0, elsewhere⟩ := statusWord_bits hL s.blk s.freeWord
  refine ⟨rise, fall, ?_, xfr, cmd, edge0, elsewhere, rfl⟩
  rw [busy]
  exact s.blk.busy_iff

/-- Settles O24: the second read samples the block the first one left, whose event flags are clear. -/
theorem secondStatusReadReturnsNoEvent : Obligations.SecondStatusReadReturnsNoEvent := by
  intro s t u hL ht hu
  obtain ⟨on, rfl⟩ := (exec_next_iff .srR s t).1 ht
  obtain ⟨-, rfl⟩ := (exec_next_iff .srR _ u).1 hu
  obtain ⟨-, -, busy, -⟩ := statusWord_bits hL s.blk s.freeWord
  obtain ⟨rise, fall, busy', xfr, cmd, edge0, -⟩ := statusWord_bits hL s.blk.clearEvents (Config.draw (s.draws + 1))
  refine ⟨?_, busy'.trans busy.symm, rfl⟩
  simp only [Layout.eventFields, List.forall_mem_cons, List.not_mem_nil, false_imp_iff, implies_true, and_true]
  exact ⟨rise, fall, xfr, cmd, edge0⟩

/- The interrupt-disable write -/

/-- Settles O17: the new mask is the old one without the bits of `m`. -/
theorem interruptDisableClearsTheSelectedSources : Obligations.InterruptDisableClearsTheSelectedSources := by
  refine fun s m => ⟨exec_off _ s, fun on => ⟨_, clocked_on _ _ on, rfl, fun i => getLsbD_and_not .., fun all => ?_⟩⟩
  rw [all]
  exact BitVec.and_zero

end Sys2Proof.Machine
end

section
/-! The host routines, call by call: what a call expands to, and each of its turns by the step lemma of its operation. A
poll is decided by the block's own condition (`step_spin`). -/

namespace Sys2Proof.Machine

/- `configure_sequencer` with a spare size that does not fit -/

/-- A call that is refused before its first transaction marks the state of its turn (notes/assumptions/6.md). -/
theorem step_enter_refuse {s : State} {c : Call} {rest : List Call} {r : Refusal} (hm : s.blk.refused = none)
    (ht : s.nextTurn = some .host) (ho : s.host.outcome = none) (hops : s.host.ops = [])
    (hcalls : s.host.calls = c :: rest) (he : expand s.par c = .refuse r) :
    step s = .next { s with agenda := s.agenda.tail, blk.refused := some r } := by
  have he' : expand (s.dropTurn.setCalls rest).par c = .refuse r := he
  rw [step_of_call hm ht ho hops hcalls, enterCall, he']
  rfl

theorem cfgword_of_not_fits {p : Params} {pageSize spareSize : Word} {readSpare writeSpare : Bool}
    (h : ¬ p.layout.cfgSparesize.fits (spareField spareSize) = true) :
    cfgword p pageSize spareSize readSpare writeSpare = none := by
  unfold cfgword
  split
  · rfl
  · exact if_neg h

theorem configureExpansion_of_not_fits {p : Params} {pageSize spareSize : Word} {readSpare writeSpare : Bool}
    (notBoth : (readSpare && writeSpare) = false) (supported : pageSize ∈ p.behaviour.supportedPageSizes)
    (h : ¬ p.layout.cfgSparesize.fits (spareField spareSize) = true) :
    configureExpansion p pageSize spareSize readSpare writeSpare = .refuse .spareSizeRange := by
  rw [configureExpansion, notBoth, if_neg Bool.false_ne_true, if_neg (not_not.2 supported), cfgword_of_not_fits h]

/-- Settles O47: a one above the field's width is that the spare field does not fit. -/
theorem configureSequencerRefusesASpareSizeThatDoesNotFit :
    Obligations.ConfigureSequencerRefusesASpareSizeThatDoesNotFit := by
  intro s rest pageSize spareSize readSpare writeSpare calls hm ho hops hcalls ha notBoth supported ⟨i, hi, one⟩
  have unfit : ¬ s.par.layout.cfgSparesize.fits (spareField spareSize) = true := fun fits =>
    Bool.eq_false_iff.1 ((Field.fits_iff ..).1 fits i hi) one
  rw [step_enter_refuse hm (nextTurn_cons ha) ho hops hcalls (configureExpansion_of_not_fits notBoth supported unfit), ha]
  rfl

/- `is_sequencer_busy` -/

/-- Settles O49: the call is one predicate on the status register, whose read clears the event flags. -/
theorem isSequencerBusyReadsAndClears : Obligations.IsSequencerBusyReadsAndClears := by
  intro s rest calls hL hm on ho hops hcalls ha
  have enter := step_enter hm (nextTurn_cons ha) ho hops hcalls rfl
  rw [ha] at enter
  obtain ⟨-, -, busy, -⟩ := statusWord_bits hL s.blk s.freeWord
  refine ⟨_, after_step enter (after_step (step_query hm rfl ho rfl (decode_readSr hL) (exec_srR_of_clockOn on))
    (after_zero _)), congrArg some busy, ?_, rfl, rfl, rfl⟩
  simp [State.returned, ho]

/- The waits -/

/-- Settles O50: the two outcomes of a poll of an unbounded wait. -/
theorem pollEndsTheWaitExactlyOnItsCondition : Obligations.PollEndsTheWaitExactlyOnItsCondition := by
  intro s c ops rest hL hm on ho hops ha
  cases meets : s.blk.meets c with
  | true =>
    obtain ⟨w, h⟩ := step_spin_met hL hm on (nextTurn_cons ha) ho hops meets
    exact ⟨_, h, rfl, ho, rfl⟩
  | false =>
    obtain ⟨w, h⟩ := step_spin_unmet hL hm on (nextTurn_cons ha) ho hops meets
    exact ⟨_, h, rfl, ho, rfl⟩

/-- A wait call is its loops, each with the configured bound (43_status_poller.md R180 to R185, R188). -/
theorem expand_wait (p : Params) {call : Call} {loops : List SpinCond}
    (h : (call, loops) ∈ [(.waitHostNotBusy, [.hostNotBusy]), (.waitCommandDone, [.commandDone]),
      (.waitTransferDone, [.transferDone]), (.waitReadyBusyPulse, [.rbFall, .rbRise]),
      (.waitReadyBusyEdge0, [.rbEdge0]), (.waitEccEngineReady, [.eccReady])]) :
    expand p call = .ops (loops.map fun c => .spin c p.behaviour.waitBound) ∧
      (call = .waitReadyBusyPulse → loops = [.rbFall, .rbRise]) := by
  simp only [List.mem_cons, List.not_mem_nil, or_false, Prod.mk.injEq] at h
  obtain ⟨rfl, rfl⟩ | ⟨rfl, rfl⟩ | ⟨rfl, rfl⟩ | ⟨rfl, rfl⟩ | ⟨rfl, rfl⟩ | ⟨rfl, rfl⟩ := h <;>
    exact ⟨rfl, by simp⟩

/-- Settles O51: entering the call leaves its loops, and a first poll whose condition holds ends the first of them; the
status read of the falling edge's wait clears the rising edge too. -/
theorem waitCallsRunTheirLoops : Obligations.WaitCallsRunTheirLoops := by
  intro s call loops calls rest hm ho hops hcalls ha hcall
  obtain ⟨he, pulse⟩ := expand_wait s.par hcall
  have enter := step_enter hm (nextTurn_cons ha) ho hops hcalls he
  rw [ha] at enter
  refine ⟨enter, ?_⟩
  rintro hL on c others rfl meets
  obtain ⟨w, poll⟩ := step_spin_met (s := { s with
    agenda := .host :: rest
    host.calls := calls
    host.ops := (c :: others).map fun c => .spin c s.par.behaviour.waitBound
    host.ret := none }) hL hm on rfl ho rfl meets
  refine ⟨_, after_step enter (after_step poll (after_zero _)), ho, rfl, rfl, rfl, rfl, fun isPulse => ?_⟩
  obtain ⟨rfl, -⟩ := List.cons.inj (pulse isPulse)
  rfl

/-- Settles O52: the two outcomes of a poll, and of a false one whether an evaluation is left. -/
theorem boundedWaitTimesOutAfterItsLastEvaluation : Obligations.BoundedWaitTimesOutAfterItsLastEvaluation := by
  intro s c k ops rest hL hm on ho hops ha
  obtain ⟨w, h⟩ := step_spin hL hm on (nextTurn_cons ha) ho hops
  cases meets : s.blk.meets c with
  | true =>
    rw [if_pos meets] at h
    exact ⟨_, h, rfl, fun _ => ⟨ho, rfl⟩, nofun, nofun⟩
  | false =>
    rw [meets, if_neg Bool.false_ne_true, spinOn] at h
    by_cases last : k = 0
    · rw [if_pos (by omega)] at h
      exact ⟨_, h, rfl, nofun, fun _ _ => rfl, fun _ more => absurd last more⟩
    · rw [if_neg (by omega)] at h
      exact ⟨_, h, rfl, nofun, fun _ none => absurd none last, fun _ _ => ⟨ho, rfl⟩⟩

/-- The host waits for the command and nothing will ever set `command_done`: no command in the slot, no turn of the
environment to come. -/
structure State.WaitsForever (s : State) : Prop where
  layout : s.par.layout.Wf
  unmarked : s.blk.refused = none
  clockOn : s.blk.clockOn = true
  idle : s.blk.phase = .idle
  clear : s.blk.cmdDone = false
  agenda : s.agenda = []
  outcome : s.host.outcome = none
  ops : s.host.ops = [.spin .commandDone none]

theorem State.WaitsForever.step {s : State} (h : s.WaitsForever) : ∃ t, step s = .next t ∧ t.WaitsForever := by
  have turn := nextTurn_fair_host h.agenda h.idle (hostEnabled_of_ops h.outcome h.ops)
  obtain ⟨w, poll⟩ := step_spin_unmet h.layout h.unmarked h.clockOn turn h.outcome h.ops h.clear
  exact ⟨_, poll, h.layout, h.unmarked, h.clockOn, h.idle, rfl, congrArg List.tail h.agenda, h.outcome, rfl⟩

theorem State.WaitsForever.after {s : State} (h : s.WaitsForever) (k : Nat) :
    ∃ t, s.after k = .next t ∧ t.WaitsForever := by
  induction k generalizing s with
  | zero => exact ⟨s, after_zero s, h⟩
  | succ k ih =>
    obtain ⟨u, hu, waits⟩ := h.step
    obtain ⟨t, ht, waits'⟩ := ih waits
    exact ⟨t, after_step hu ht, waits'⟩

theorem State.WaitsForever.not_returned {s : State} (h : s.WaitsForever) : s.returned = false := by
  simp [State.returned, h.ops]

/-- Settles O53: after the turn that enters the call every state waits forever. -/
theorem waitCommandDoneWithoutCommandNeverReturns : Obligations.WaitCommandDoneWithoutCommandNeverReturns := by
  intro s k hL unbounded hm on idle clear ha ho hops hcalls
  cases k with
  | zero => exact ⟨s, after_zero s, by simp [State.returned, hcalls], ho⟩
  | succ k =>
    have turn := nextTurn_fair_host ha idle (hostEnabled_of_calls ho hcalls)
    have enter := step_enter hm turn ho hops hcalls rfl
    have waits : State.WaitsForever { s with
        agenda := s.agenda.tail, host.calls := [], host.ops := [spinOp s.par .commandDone], host.ret := none } :=
      ⟨hL, hm, on, idle, clear, congrArg List.tail ha, ho, by rw [spinOp, unbounded]⟩
    obtain ⟨t, ht, waits'⟩ := waits.after k
    exact ⟨t, after_step enter ht, waits'.not_returned, waits'.outcome⟩

/- `send_command` past its wait -/

/-- A count above 5 ends the routine before the packing (60_exceptions.md R203). -/
theorem encodeStep_of_bad_count {w : Word} (bytes : List Byte) {s : State} (bad : 5 < s.par.layout.acycle w) :
    encodeStep w bytes s = .next (s.haltHost .invariantViolation) :=
  if_pos bad

/-- Too few bytes are refused at the packing (42_command_encoder.md R159). -/
theorem encodeStep_of_short {w : Word} {bytes : List Byte} {s : State} (legal : s.par.layout.acycle w ≤ 5)
    (short : bytes.length < s.par.layout.acycle w) : encodeStep w bytes s = .refused .shortAddressBytes := by
  have undefined : pack (s.par.layout.acycle w) bytes = none :=
    Option.eq_none_iff_forall_ne_some.2 fun r h => absurd (le_length_of_pack h) (by omega)
  rw [encodeStep, if_neg (Nat.not_lt.2 legal), undefined]

/-- Settles O56: the count first, then the packing. -/
theorem sendCommandStopsBeforeWritingABadCount : Obligations.SendCommandStopsBeforeWritingABadCount := by
  intro s w bytes ops rest hm ho hops ha
  have run := step_of_op hm (nextTurn_cons ha) ho hops
  rw [dropTurn_of_cons ha, hostOp] at run
  refine ⟨fun bad => ?_, fun legal short => ?_⟩
  · rw [run, encodeStep_of_bad_count (s := State.setOps ops { s with agenda := rest }) bytes bad]
    rfl
  · rw [run, encodeStep_of_short (s := State.setOps ops { s with agenda := rest }) legal short]
    rfl

/-- Settles O57: the packing has a byte for the extra-address register exactly for five cycles. -/
theorem extraAddressIsWrittenOnlyForFiveCycles : Obligations.ExtraAddressIsWrittenOnlyForFiveCycles := by
  intro s w bytes ops rest hm ho hops ha legal enough
  obtain ⟨e, a, packed⟩ := exists_pack_eq_some legal enough
  have run := step_encode hm (nextTurn_cons ha) ho hops legal packed
  rw [ha] at run
  have extra := extra_of_pack packed
  refine ⟨e, a, packed, fun fewer => ?_, fun five => ?_⟩
  · rw [if_neg fewer] at extra
    rw [run, extra]
    rfl
  · rw [if_pos five] at extra
    rw [five] at enough
    obtain ⟨b, bs, rfl⟩ := List.exists_cons_of_length_pos (l := bytes) (by omega)
    refine ⟨b, rfl, ?_⟩
    rw [run, extra]
    rfl

end Sys2Proof.Machine
end

section
/-! The timing presets and the boot sequence. Under the fair continuation the host has every turn while the sequencer is
idle; each routine is run once, from any state that calls it, and the boot sequence is four of them in a row. -/

namespace Sys2Proof.Machine

/-- Under the fair continuation a host that has an operation left has the turn (notes/assumptions/7.md). -/
theorem fairTurn_of_ops {s : State} {op : HostOp} {rest : List HostOp} (ha : s.agenda = []) (idle : s.blk.phase = .idle)
    (ho : s.host.outcome = none) (hops : s.host.ops = op :: rest) : s.nextTurn = some .host :=
  nextTurn_fair_host ha idle (hostEnabled_of_ops ho hops)

/-- A chip select's registers with one of them written (40_bus_timing.md R111). -/
def CsRegs.store (x : CsRegs) (w : CsReg × Word) : CsRegs :=
  match w with
  | (.setup, v) => { x with setup := v }
  | (.pulse, v) => { x with pulse := v }
  | (.cycle, v) => { x with cycle := v }
  | (.timings, v) => { x with timings := v }
  | (.mode, v) => { x with mode := v }

/-- Writes of a chip select that exists, one after the other under the fair continuation. -/
theorem after_csWrites {cs : Nat} {rest : List HostOp} (ws : List (CsReg × Word)) : ∀ {s : State}, s.blk.refused = none →
    s.blk.clockOn = true → s.blk.phase = .idle → s.agenda = [] → s.host.outcome = none → cs < s.par.board.nCs →
    s.host.ops = ws.map (fun w => csWrite cs w.1 w.2) ++ rest →
    s.after ws.length = .next { s with host.ops := rest, t := s.t.modify cs fun x => ws.foldl CsRegs.store x } := by
  induction ws with
  | nil =>
    intro s _ _ _ _ _ _ hops
    obtain rfl : rest = s.host.ops := hops.symm
    have same : (s.t.modify cs fun x => [].foldl CsRegs.store x) = s.t := List.modify_id cs s.t
    rw [same]
    exact after_zero s
  | cons w ws ih =>
    intro s hm on idle ha ho hcs hops
    have write : step s = .next { s with
        host.ops := ws.map (fun w => csWrite cs w.1 w.2) ++ rest, t := s.t.modify cs fun x => x.store w } := by
      obtain ⟨r, v⟩ := w
      rw [step_csWrite hm on (fairTurn_of_ops ha idle ho hops) ho hops hcs, ha]
      cases r <;> rfl
    rw [List.length_cons, after_step write (ih hm on idle ha ho hcs rfl)]
    simp [List.modify_modify_eq, Function.comp_def]

/-- The five writes of a preset. -/
def CsRegs.writes (r : CsRegs) : List (CsReg × Word) :=
  [(.setup, r.setup), (.pulse, r.pulse), (.cycle, r.cycle), (.timings, r.timings), (.mode, r.mode)]

/-- The routine that enables the clock and then writes the five registers of a chip select. -/
def presetOps (id cs : Nat) (r : CsRegs) : List HostOp :=
  .enablePeripheral id :: r.writes.map fun w => csWrite cs w.1 w.2

/-- The registers of the NAND preset (40_bus_timing.md R113). -/
def nandRegs (b : Board) (busWidth : Word) : CsRegs :=
  ⟨b.nandSetup, b.nandPulse, b.nandCycle, b.nandTimings, nandMode b.mode busWidth⟩

/-- The registers of the NOR preset (40_bus_timing.md R114). -/
def norRegs (b : Board) (busWidth : Word) : CsRegs :=
  ⟨b.norSetup, b.norPulse, b.norCycle, 0#32, norMode b.mode busWidth⟩

theorem expand_configureNandTiming (p : Params) (busWidth : Word) :
    expand p (.configureNandTiming busWidth) =
      .ops (presetOps p.board.periphId p.board.nandCs (nandRegs p.board busWidth)) := rfl

theorem expand_configureNorTiming (p : Params) (cs : Nat) (busWidth : Word) :
    expand p (.configureNorTiming cs busWidth) =
      .ops (presetOps p.board.periphId cs (norRegs p.board busWidth)) := rfl

section
variable {s : State} {c : Call} {calls : List Call} {pageSize spareSize v : Word} {readSpare writeSpare : Bool}
  (hm : s.blk.refused = none) (idle : s.blk.phase = .idle)
  (ha : s.agenda = []) (ho : s.host.outcome = none) (hops : s.host.ops = []) (hcalls : s.host.calls = c :: calls)
include hm idle ha ho hops hcalls

theorem fair_enter {l : List HostOp} (he : expand s.par c = .ops l) :
    step s = .next { s with agenda := [], host.calls := calls, host.ops := l, host.ret := none } := by
  have enter := step_enter hm (nextTurn_fair_host ha idle (hostEnabled_of_calls ho hcalls)) ho hops hcalls he
  rwa [ha] at enter

/-- A preset turns the clock on and writes all five registers of its chip select. -/
theorem after_preset {cs : Nat} {r : CsRegs} (hcs : cs < s.par.board.nCs)
    (he : expand s.par c = .ops (presetOps s.par.board.periphId cs r)) :
    s.after 7 = .next { s with
      host.calls := calls, host.ret := none, blk.clockOn := true, t := s.t.modify cs fun _ => r } := by
  refine (after_step (fair_enter hm idle ha ho hops hcalls he)
    (after_step (step_enable hm (fairTurn_of_ops rfl idle ho rfl) ho rfl)
      (after_csWrites (rest := []) r.writes hm rfl idle rfl ho hcs rfl))).trans ?_
  simp [ha, hops, CsRegs.writes, CsRegs.store]

/-- `reset_sequencer` under the fair continuation (41_sequencer_config.md R127). -/
theorem after_resetSequencer (hL : s.par.layout.Wf) (on : s.blk.clockOn = true) (hc : c = .resetSequencer) :
    s.after 3 = .next { s with
      host.calls := calls, host.ret := none, blk.imr := 0#32, blk.ctrl := 0#32 } := by
  subst hc
  rw [after_step (fair_enter hm idle ha ho hops hcalls rfl)
    (after_step (step_writeIdr hL hm on (fairTurn_of_ops rfl idle ho rfl) ho rfl)
    (after_step (step_writeCtrl hL hm on idle (fairTurn_of_ops rfl idle ho rfl) ho rfl) (after_zero _)))]
  simp [ha, hops]

/-- `configure_sequencer` under the fair continuation, where its word is defined (41_sequencer_config.md R128). -/
theorem after_configureSequencer (hL : s.par.layout.Wf) (hB : s.par.behaviour.Wf s.par.layout)
    (on : s.blk.clockOn = true) (hc : c = .configureSequencer pageSize spareSize readSpare writeSpare)
    (notBoth : (readSpare && writeSpare) = false)
    (hv : cfgword s.par pageSize spareSize readSpare writeSpare = some v) :
    s.after 2 = .next { s with host.calls := calls, host.ret := none, blk.cfg := v } := by
  subst hc
  rw [after_step (fair_enter hm idle ha ho hops hcalls (configureExpansion_of_cfgword hB notBoth hv))
    (after_step (step_writeCfg hL hm on idle (cfgLegal_of_cfgword hL hB notBoth hv) (fairTurn_of_ops rfl idle ho rfl)
      ho rfl) (after_zero _))]
  simp [ha, hops]

/-- A status read outside the routines, under the fair continuation. -/
theorem after_statusRead (hL : s.par.layout.Wf) (on : s.blk.clockOn = true)
    (hc : c = .access (readTxn (.reg s.par.layout.offSr))) :
    s.after 2 = .next { s with
      host.calls := calls
      host.ret := none
      host.rdata := statusWord s.par.layout s.blk s.freeWord
      blk := s.blk.clearEvents
      draws := s.draws + 1 } := by
  subst hc
  rw [after_step (fair_enter hm idle ha ho hops hcalls rfl)
    (after_step (step_readSr hL hm on (fairTurn_of_ops rfl idle ho rfl) ho rfl) (after_zero _))]
  simp [ha, hops]
  rfl

end

/- The mode words -/

/-- The fields both presets write into a mode word, with their values (40_bus_timing.md R113, R114). -/
def nandModeRow (m : ModeLayout) (busWidth : Word) : List (Field × Word) :=
  [(m.read, 1#32), (m.write, 1#32), (m.dbw, widthCode m busWidth), (m.tdf, 1#32)]

theorem nandMode_eq_setAll (m : ModeLayout) (busWidth : Word) :
    nandMode m busWidth = Field.setAll (nandModeRow m busWidth ++ []) 0#32 := rfl

theorem norMode_eq_setAll (m : ModeLayout) (busWidth : Word) :
    norMode m busWidth = Field.setAll (nandModeRow m busWidth ++ [(m.exnw, m.exnwDisabled)]) 0#32 := rfl

theorem widthCode_fits {m : ModeLayout} (hm : m.Wf) (busWidth : Word) : m.dbw.fits (widthCode m busWidth) = true := by
  unfold widthCode
  split
  · exact hm.dbw8Fits
  · exact hm.dbw16Fits

/-- A mode word that is a row of the mode register's fields, beginning with the four of the NAND preset, reads each of its
fields back, and has no one outside them. -/
theorem get_modeRow {m : ModeLayout} (hm : m.Wf) {busWidth word : Word} {more : List (Field × Word)}
    (hw : word = Field.setAll (nandModeRow m busWidth ++ more) 0#32)
    (sub : ((nandModeRow m busWidth ++ more).map Prod.fst).Sublist m.fields) :
    (m.read.get word = 1#32 ∧ m.write.get word = 1#32 ∧ m.dbw.get word = widthCode m busWidth ∧
      m.tdf.get word = 1#32) ∧
    (∀ f v, (f, v) ∈ more → f.fits v = true → f.get word = v) ∧
    ∀ i, word.getLsbD i = true →
      ∃ f ∈ (nandModeRow m busWidth ++ more).map Prod.fst, f.lo ≤ i ∧ i < f.lo + f.width := by
  subst hw
  have read {f : Field} {v : Word} (mem : (f, v) ∈ nandModeRow m busWidth ++ more) (fits : f.fits v = true) :=
    Field.get_setAll (hm.disjoint.sublist sub) (fun g hg => hm.inside g (sub.subset hg)) mem fits 0#32
  exact ⟨⟨read (by simp [nandModeRow]) hm.readFits, read (by simp [nandModeRow]) hm.writeFits,
    read (by simp [nandModeRow]) (widthCode_fits hm busWidth), read (by simp [nandModeRow]) hm.tdfFits⟩,
    fun f v mem fits => read (List.mem_append_right _ mem) fits, fun i => Field.getLsbD_setAll_zero⟩

/-- Settles O58: the preset's run, and its mode word as a row of four fields. -/
theorem nandTimingPresetWritesItsChipSelect : Obligations.NandTimingPresetWritesItsChipSelect := by
  intro s busWidth hm idle ha ho hops hcalls hcs chips mode
  have run := after_preset hm idle ha ho hops hcalls hcs (expand_configureNandTiming s.par busWidth)
  obtain ⟨⟨read, write, dbw, tdf⟩, -, ones⟩ := get_modeRow mode (nandMode_eq_setAll s.par.board.mode busWidth)
    (List.take_sublist 4 s.par.board.mode.fields)
  refine ⟨_, _, run, ?_, rfl, List.modify_eq_set_get _ (chips ▸ hcs), read, write, dbw, tdf, ones⟩
  simp [State.returned, ho, hops]

/-- Settles O59: the preset's run, and its mode word as a row of all five fields. -/
theorem norTimingPresetWritesItsChipSelect : Obligations.NorTimingPresetWritesItsChipSelect := by
  intro s cs busWidth hm idle ha ho hops hcalls hcs chips mode
  have run := after_preset hm idle ha ho hops hcalls hcs (expand_configureNorTiming s.par cs busWidth)
  obtain ⟨⟨read, write, dbw, tdf⟩, rest, ones⟩ := get_modeRow mode (norMode_eq_setAll s.par.board.mode busWidth)
    (List.Sublist.refl _)
  have exnw := rest _ _ (List.mem_singleton_self _) mode.exnwFits
  refine ⟨_, _, run, ?_, rfl, List.modify_eq_set_get _ (chips ▸ hcs), read, write, dbw, tdf, exnw, ones⟩
  simp [State.returned, ho, hops]

/-- Settles O60: the four routines in a row; each leaves what the clean entry asks of it as the next one's start. -/
theorem bootSequenceReachesTheCleanEntry : Obligations.BootSequenceReachesTheCleanEntry := by
  intro s busWidth pageSize spareSize v readSpare writeSpare hL hB unmarked idle ha hcs ho hops hcalls notBoth hv
  have hm : s.blk.refused = none := Option.isNone_iff_eq_none.1 (Bool.and_eq_true_iff.1 unmarked).2
  have timing := after_preset hm idle ha ho hops hcalls hcs (expand_configureNandTiming s.par busWidth)
  have reset := after_add timing (after_resetSequencer hm idle ha ho hops rfl hL rfl rfl)
  have configure := after_add reset (after_configureSequencer hm idle ha ho hops rfl hL hB rfl rfl notBoth hv)
  have run := after_add configure (after_statusRead hm idle ha ho hops rfl hL rfl rfl)
  refine ⟨_, _, run, ?_, ⟨rfl, idle, rfl, rfl, unmarked, ?_⟩, rfl, rfl, rfl, rfl⟩
  · simp [State.returned, ho, hops]
  · exact ⟨pageSize, spareSize, readSpare, writeSpare, notBoth, hv⟩

end Sys2Proof.Machine
end

section
/-! `send_command` run to its end under the fair continuation: enter, poll, pack, write, dispatch, the data phase if there
is one, poll. -/

namespace Sys2Proof.Machine

/-- The operations of `send_command` (42_command_encoder.md R156). -/
theorem expand_sendCommand (p : Params) (w : Word) (bytes : List Byte) :
    expand p (.sendCommand w bytes) = .ops [.spin .hostNotBusy p.behaviour.waitBound, .encodeCommand w bytes,
      .spin .commandDone p.behaviour.waitBound] := rfl

theorem meets_hostNotBusy {b : Block} (idle : b.phase = .idle) : b.meets .hostNotBusy = true := by
  simp [Block.meets, b.busy_eq_false_iff.2 idle]

section
variable {s : State} (hm : s.blk.refused = none) (ha : s.agenda = [])
include hm ha

/-- Under the fair continuation an issued command is dispatched, and its data phase ended, before the host's turn
(42_command_encoder.md R154). -/
theorem after_issued (issue : s.blk.phase = .issue) :
    ∃ k b, k ≤ 2 ∧ s.after k = .next { s with blk := b } ∧ b.phase = .idle ∧ b.cmdDone = true ∧
      b.refused = none ∧ b.clockOn = s.blk.clockOn ∧
      Event.dispatched s.blk.curCmd (s.blk.commandBytes s.par.layout) ∈ b.trace := by
  have turn : s.nextTurn = some .seqDispatch := by simp only [State.nextTurn, ha, fairTurn, issue]
  have dispatch := step_dispatch hm turn issue
  rw [ha, List.tail_nil, ← ha] at dispatch
  cases dataen : s.par.layout.cwDataen.bit s.blk.curCmd with
  | false =>
    refine ⟨1, _, by omega, after_step dispatch (after_zero _), ?_, rfl, hm, rfl, by simp⟩
    rw [Block.dispatch_phase, dataen, if_neg Bool.false_ne_true]
  | true =>
    have inData : (s.blk.dispatch s.par.layout).phase = .data := by rw [Block.dispatch_phase, dataen, if_pos rfl]
    have turn' : State.nextTurn { s with blk := s.blk.dispatch s.par.layout } = some .seqXfer := by
      simp only [State.nextTurn, ha, fairTurn, inData]
    have transfer := step_transfer (s := { s with blk := s.blk.dispatch s.par.layout }) hm turn' inData
    simp only [ha, List.tail_nil] at transfer
    simp only [ha] at dispatch
    refine ⟨2, (s.blk.dispatch s.par.layout).transfer, by omega, ?_, rfl, rfl, hm, rfl, ?_⟩
    · rw [after_step dispatch (after_step transfer (after_zero _)), ← ha]
    · simp

variable (ho : s.host.outcome = none) (on : s.blk.clockOn = true) (hL : s.par.layout.Wf) (idle : s.blk.phase = .idle)
include ho on hL idle

/-- A poll whose condition holds, under the fair continuation. -/
theorem fair_poll {c : SpinCond} {left : Option Nat} {rest : List HostOp} (hops : s.host.ops = .spin c left :: rest)
    (meets : s.blk.meets c = true) :
    ∃ r, step s = .next { s with
      host.ops := rest
      host.rdata := r
      draws := s.draws + 1
      blk := if c = .hostNotBusy ∨ c = .eccReady then s.blk else s.blk.clearEvents } := by
  obtain ⟨r, poll⟩ := step_spin_met hL hm on (fairTurn_of_ops ha idle ho hops) ho hops meets
  rw [State.polled, ha, List.tail_nil, ← ha] at poll
  exact ⟨r, poll⟩

/-- The writes of a packed command fill the slot: the extra-address register first, if there is a byte for it. -/
theorem after_commandWrites {w a : Word} {e : Option Byte} {bytes : List Byte} {rest : List HostOp}
    (legal : s.par.layout.legalCommand w = true) (packed : pack (s.par.layout.acycle w) bytes = some (e, a))
    (hops : s.host.ops = commandWrites s.par.layout w e a ++ rest) :
    ∃ k, k ≤ 2 ∧ s.after k = .next { s with
      host.ops := rest, blk := Block.latch { s.blk with addr0 := e.getD s.blk.addr0 } w a } := by
  have lanes := lanesOk_of_pack packed
  cases e with
  | none =>
    have write := step_writeCommand hm on idle (fairTurn_of_ops ha idle ho hops) ho legal lanes hops
    rw [ha, List.tail_nil, ← ha] at write
    exact ⟨1, by omega, after_step write (after_zero _)⟩
  | some x =>
    have extra := step_writeAddr hL hm on idle (fairTurn_of_ops ha idle ho hops) ho hops
    rw [ha, List.tail_nil] at extra
    refine ⟨2, by omega, ?_⟩
    rw [after_step extra (after_step (step_writeCommand hm on idle (fairTurn_of_ops rfl idle ho rfl) ho legal lanes rfl)
      (after_zero _)), List.tail_nil, ← ha]
    rfl

/-- The poll and the packing that begin `send_command`. -/
theorem after_packing {w a : Word} {e : Option Byte} {bytes : List Byte} {left : Option Nat} {rest : List HostOp}
    (count : s.par.layout.acycle w ≤ 5) (packed : pack (s.par.layout.acycle w) bytes = some (e, a))
    (hops : s.host.ops = .spin .hostNotBusy left :: .encodeCommand w bytes :: rest) :
    ∃ r d, s.after 2 = .next { s with
      host.ops := commandWrites s.par.layout w e a ++ rest, host.rdata := r, draws := d } := by
  obtain ⟨r, poll⟩ := fair_poll hm ha ho on hL idle hops (meets_hostNotBusy idle)
  refine ⟨r, s.draws + 1, ?_⟩
  rw [after_step poll (after_step (step_encode hm (fairTurn_of_ops ha idle ho rfl) ho rfl count packed) (after_zero _)),
    ha]
  rfl

end

/-- `s` inside its last call under the fair continuation: `ops` left of the routine, the block `b`, the word last read and
the count of draws. -/
def State.inCall (s : State) (ops : List HostOp) (b : Block) (rdata : Word) (draws : Nat) : State :=
  { s with
    agenda := [], host.calls := [], host.ops := ops, host.ret := none, host.rdata := rdata, blk := b, draws := draws }

/-- Settles O55: the parts of the run in a row, at most eight steps together. -/
theorem sendCommandReturnsWhenTheSequencerIsFair : Obligations.SendCommandReturnsWhenTheSequencerIsFair := by
  intro s w bytes hL hB hm on idle ha ho hops hcalls legal enough
  have count : s.par.layout.acycle w ≤ 5 := of_decide_eq_true (Bool.and_eq_true_iff.1 legal).2
  obtain ⟨e, a, packed⟩ := exists_pack_eq_some count enough
  have enter := fair_enter hm idle ha ho hops hcalls (expand_sendCommand s.par w bytes)
  obtain ⟨r, d, packing⟩ := after_packing (s := s.inCall [.spin .hostNotBusy s.par.behaviour.waitBound,
    .encodeCommand w bytes, .spin .commandDone s.par.behaviour.waitBound] s.blk s.host.rdata s.draws)
    hm rfl ho on hL idle count packed rfl
  obtain ⟨j, hj, write⟩ := after_commandWrites (s := s.inCall (commandWrites s.par.layout w e a ++
    [.spin .commandDone s.par.behaviour.waitBound]) s.blk r d) hm rfl ho on hL idle legal packed rfl
  obtain ⟨k, b, hk, issued, idle', done, hm', on', sent⟩ := after_issued (s := s.inCall
    [.spin .commandDone s.par.behaviour.waitBound] (Block.latch { s.blk with addr0 := e.getD s.blk.addr0 } w a) r d)
    hm rfl rfl
  obtain ⟨q, poll⟩ := fair_poll (s := s.inCall [.spin .commandDone s.par.behaviour.waitBound] b r d)
    hm' rfl ho (on'.trans on) hL idle' rfl done
  refine ⟨_, _, ?_, after_add (after_step enter packing) (after_add write (after_add issued (after_step poll
    (after_zero _)))), ?_, idle', rfl, ?_⟩
  · omega
  · simp [State.returned, State.inCall, ho]
  · rw [← cycles_of_pack s.blk.addr0 packed]
    exact sent

end Sys2Proof.Machine
end

section
/-! `send_command` under every interleaving. A run of the call is in one of the stages of `SendStage` until it halts in a
fatal outcome; every step of every agent leads from a stage to a stage, and a host that has returned is in the last
one. -/

namespace Sys2Proof.Machine

/- The block in a run of the call -/

/-- Unmarked, no fault recorded, the clock on. -/
def Block.Clean (b : Block) : Prop := b.refused = none ∧ b.fault.isEmpty = true ∧ b.clockOn = true

/-- The slot is free and nothing has been sent: the trace is the one the call found. -/
def Block.Unsent (T : List Event) (b : Block) : Prop := b.phase = .idle ∧ b.cmdDone = false ∧ b.trace = T

/-- The event of the call's own dispatch. -/
def sentEvent (L : Layout) (w : Word) (bytes : List Byte) : Event := .dispatched w (bytes.take (L.acycle w))

/-- The call's command is in the slot with the caller's bytes, not yet dispatched. -/
def Block.Issued (L : Layout) (w : Word) (bytes : List Byte) (T : List Event) (b : Block) : Prop :=
  b.phase = .issue ∧ b.cmdDone = false ∧ b.trace = T ∧ b.curCmd = w ∧ b.commandBytes L = bytes.take (L.acycle w)

/-- The call's command has been dispatched; its data phase, if it has one, is on or over. -/
def Block.Sent (L : Layout) (w : Word) (bytes : List Byte) (T : List Event) (b : Block) : Prop :=
  (b.phase = .idle ∧ b.trace = T ++ [sentEvent L w bytes]) ∨
    L.cwDataen.bit w = true ∧
      ((b.phase = .data ∧ b.curCmd = w ∧ b.trace = T ++ [sentEvent L w bytes]) ∨
        (b.phase = .idle ∧ b.trace = T ++ [sentEvent L w bytes, .dataDone w]))

section
variable {L : Layout} {w : Word} {bytes : List Byte} {T : List Event} {b : Block}

theorem Block.Issued.dispatch (h : b.Issued L w bytes T) : (b.dispatch L).Sent L w bytes T := by
  obtain ⟨-, -, rfl, rfl, sent⟩ := h
  have trace : (b.dispatch L).trace = b.trace ++ [sentEvent L b.curCmd bytes] := by
    rw [Block.dispatch_trace, sent, sentEvent]
  cases dataen : L.cwDataen.bit b.curCmd with
  | false => exact .inl ⟨by rw [Block.dispatch_phase, dataen]; rfl, trace⟩
  | true => exact .inr ⟨dataen, .inl ⟨by rw [Block.dispatch_phase, dataen]; rfl, rfl, trace⟩⟩

theorem Block.Sent.not_issue (h : b.Sent L w bytes T) : b.phase ≠ .issue := by
  rcases h with ⟨idle, -⟩ | ⟨-, ⟨inData, -⟩ | ⟨idle, -⟩⟩ <;> simp [*]

theorem Block.Sent.transfer (h : b.Sent L w bytes T) (inData : b.phase = .data) : b.transfer.Sent L w bytes T := by
  rcases h with ⟨idle, -⟩ | ⟨dataen, ⟨-, cmd, trace⟩ | ⟨idle, -⟩⟩
  · rw [idle] at inData
    cases inData
  · refine .inr ⟨dataen, .inr ⟨rfl, ?_⟩⟩
    rw [Block.transfer_trace, trace, cmd, List.append_assoc, List.singleton_append]
  · rw [idle] at inData
    cases inData

/-- The writes of a packed command issue it. -/
theorem Block.Unsent.latch {a : Word} {e : Option Byte} (h : b.Unsent T)
    (packed : pack (L.acycle w) bytes = some (e, a)) (extra : e.getD b.addr0 = b.addr0) :
    (b.latch w a).Issued L w bytes T := by
  obtain ⟨-, clear, trace⟩ := h
  refine ⟨rfl, clear, trace, rfl, ?_⟩
  rw [← cycles_of_pack b.addr0 packed, extra]
  rfl

end

/- The stages of the call -/

/-- Where a run of `send_command` of `w` and `bytes`, begun with the trace `T`, can be: the host and the block. -/
inductive SendStage (L : Layout) (w : Word) (bytes : List Byte) (T : List Event) (h : HostAgent) (b : Block) : Prop where
  /-- the call is next -/
  | called (calls : h.calls = [.sendCommand w bytes]) (ops : h.ops = []) (slot : b.Unsent T)
  /-- waiting for the slot -/
  | polling (left left' : Option Nat) (calls : h.calls = [])
      (ops : h.ops = [.spin .hostNotBusy left, .encodeCommand w bytes, .spin .commandDone left']) (slot : b.Unsent T)
  /-- the slot has been seen free -/
  | packing (left' : Option Nat) (calls : h.calls = [])
      (ops : h.ops = [.encodeCommand w bytes, .spin .commandDone left']) (slot : b.Unsent T)
  /-- the writes are next -/
  | writing (left' : Option Nat) (e : Option Byte) (a : Word) (calls : h.calls = [])
      (packed : pack (L.acycle w) bytes = some (e, a))
      (ops : h.ops = commandWrites L w e a ++ [.spin .commandDone left']) (slot : b.Unsent T)
  /-- the write of the command is next, the extra-address register holds its byte -/
  | addressed (left' : Option Nat) (e : Option Byte) (a : Word) (calls : h.calls = [])
      (packed : pack (L.acycle w) bytes = some (e, a)) (extra : e.getD b.addr0 = b.addr0)
      (ops : h.ops = [.access (writeTxn (.cmd w) a), .spin .commandDone left']) (slot : b.Unsent T)
  /-- waiting for the dispatch -/
  | waiting (left' : Option Nat) (calls : h.calls = []) (ops : h.ops = [.spin .commandDone left'])
      (slot : b.Issued L w bytes T ∨ b.cmdDone = true ∧ b.Sent L w bytes T)
  /-- the call has returned -/
  | returned (calls : h.calls = []) (ops : h.ops = []) (slot : b.cmdDone = false ∧ b.Sent L w bytes T)

/-- A state of a run of the call: halted in a fatal outcome, or in a stage of it. -/
def SendRun (p : Params) (w : Word) (bytes : List Byte) (T : List Event) (s : State) : Prop :=
  s.par = p ∧ (s.host.outcome ≠ none ∨
    s.host.outcome = none ∧ s.blk.Clean ∧ SendStage p.layout w bytes T s.host s.blk)

/- The turns of the other agents -/

/-- What a step of another agent than the host does: nothing to the host, and to the block a dispatch, the end of a data
phase, or a change of the inputs and of the ready/busy flags. -/
theorem step_of_other_turn {s t : State} (h : step s = .next t) (turn : s.nextTurn ≠ some .host) :
    t.par = s.par ∧ t.host = s.host ∧
      ((s.blk.phase = .issue ∧ t.blk = s.blk.dispatch s.par.layout) ∨
        (s.blk.phase = .data ∧ t.blk = s.blk.transfer) ∨
        ∃ fall rise edge0 level ecc, t.blk = { s.blk with
          rbFall := fall, rbRise := rise, rbEdge0 := edge0, rbLevel := level, eccBusy := ecc }) := by
  obtain ⟨-, hk⟩ := step_next h
  cases hk with
  | dispatch _ enabled out =>
    cases out
    exact ⟨rfl, rfl, .inl ⟨enabled, rfl⟩⟩
  | transfer _ enabled out =>
    cases out
    exact ⟨rfl, rfl, .inr (.inl ⟨enabled, rfl⟩)⟩
  | pin l _ out =>
    obtain ⟨_, _, _, _, he⟩ := envRb_frame l s.dropTurn
    cases out.trans he
    exact ⟨rfl, rfl, .inr (.inr ⟨_, _, _, _, _, rfl⟩)⟩
  | ecc _ _ out =>
    cases out
    exact ⟨rfl, rfl, .inr (.inr ⟨_, _, _, _, _, rfl⟩)⟩
  | marked _ host _ | internal _ host _ _ | clock _ host _ _ | txn _ _ _ _ host _ _ _ _ => exact absurd host turn

section
variable {L : Layout} {w : Word} {bytes : List Byte} {T : List Event} {h : HostAgent} {b : Block}

/-- The ready/busy flags and the inputs are no part of a stage. -/
theorem SendStage.of_inputs (hs : SendStage L w bytes T h b) (fall rise edge0 level ecc : Bool) :
    SendStage L w bytes T h
      { b with rbFall := fall, rbRise := rise, rbEdge0 := edge0, rbLevel := level, eccBusy := ecc } := by
  cases hs with
  | called calls ops slot => exact .called calls ops slot
  | polling left left' calls ops slot => exact .polling left left' calls ops slot
  | packing left' calls ops slot => exact .packing left' calls ops slot
  | writing left' e a calls packed ops slot => exact .writing left' e a calls packed ops slot
  | addressed left' e a calls packed extra ops slot => exact .addressed left' e a calls packed extra ops slot
  | waiting left' calls ops slot => exact .waiting left' calls ops slot
  | returned calls ops slot => exact .returned calls ops slot

/-- Only the call's own command can be dispatched. -/
theorem SendStage.of_dispatch (hs : SendStage L w bytes T h b) (issue : b.phase = .issue) :
    SendStage L w bytes T h (b.dispatch L) := by
  have busy : b.phase ≠ .idle := by simp [issue]
  cases hs with
  | waiting left' calls ops slot =>
    rcases slot with issued | ⟨-, sent⟩
    · exact .waiting left' calls ops (.inr ⟨rfl, issued.dispatch⟩)
    · exact absurd issue sent.not_issue
  | returned calls ops slot => exact absurd issue slot.2.not_issue
  | called _ _ slot | polling _ _ _ _ slot | packing _ _ _ slot | writing _ _ _ _ _ _ slot
  | addressed _ _ _ _ _ _ _ slot => exact absurd slot.1 busy

/-- Only the call's own data phase can end. -/
theorem SendStage.of_transfer (hs : SendStage L w bytes T h b) (inData : b.phase = .data) :
    SendStage L w bytes T h b.transfer := by
  have busy : b.phase ≠ .idle := by simp [inData]
  cases hs with
  | waiting left' calls ops slot =>
    rcases slot with ⟨issue, -⟩ | ⟨done, sent⟩
    · rw [issue] at inData
      cases inData
    · exact .waiting left' calls ops (.inr ⟨done, sent.transfer inData⟩)
  | returned calls ops slot => exact .returned calls ops ⟨slot.1, slot.2.transfer inData⟩
  | called _ _ slot | polling _ _ _ _ slot | packing _ _ _ slot | writing _ _ _ _ _ _ slot
  | addressed _ _ _ _ _ _ _ slot => exact absurd slot.1 busy

end

/- The turns of the host -/

theorem step_of_host_halted {s : State} {o : HostOutcome} (hm : s.blk.refused = none) (ht : s.nextTurn = some .host)
    (ho : s.host.outcome = some o) : step s = .fault .hostHasNoStep := by
  have hd : s.dropTurn.host = s.host := rfl
  rw [step_of_turn hm ht, takeTurn, hostStep, hd, ho]
  rfl

theorem step_of_host_done {s : State} (hm : s.blk.refused = none) (ht : s.nextTurn = some .host)
    (hops : s.host.ops = []) (hcalls : s.host.calls = []) : step s = .fault .hostHasNoStep := by
  have hd : s.dropTurn.host = s.host := rfl
  rw [step_of_turn hm ht, takeTurn, hostStep, hd, hops, hcalls]
  cases s.host.outcome <;> rfl

/-- A halted host stays halted, whoever moves (60_exceptions.md R218). -/
theorem halted_stays {s t : State} (halted : s.host.outcome ≠ none) (h : step s = .next t) : t.host.outcome ≠ none := by
  by_cases turn : s.nextTurn = some .host
  · obtain ⟨o, ho⟩ := Option.ne_none_iff_exists'.1 halted
    rw [step_of_host_halted (step_next h).1 turn ho] at h
    cases h
  · rw [(step_of_other_turn h turn).2.1]
    exact halted

/-- A poll that finds the command not yet dispatched: the wait goes on or times out. -/
theorem spinOn_commandDone (left : Option Nat) (s : State) :
    (spinOn .commandDone left s).host.outcome ≠ none ∨
      ∃ left', spinOn .commandDone left s = s.push [.spin .commandDone left'] := by
  unfold spinOn
  split
  · exact .inr ⟨none, rfl⟩
  · split
    · exact .inl (by simp)
    · exact .inr ⟨_, rfl⟩

/-- The host's own step leads from a stage of the call to a stage of it, or halts the host. -/
theorem SendStage.of_host {s t : State} {w : Word} {bytes : List Byte} {T : List Event} (hL : s.par.layout.Wf)
    (legal : s.par.layout.legalCommand w = true) (enough : s.par.layout.acycle w ≤ bytes.length)
    (ho : s.host.outcome = none) (clean : s.blk.Clean) (hs : SendStage s.par.layout w bytes T s.host s.blk)
    (turn : s.nextTurn = some .host) (h : step s = .next t) : SendRun s.par w bytes T t := by
  obtain ⟨hm, faultless, on⟩ := clean
  have count : s.par.layout.acycle w ≤ 5 := of_decide_eq_true (Bool.and_eq_true_iff.1 legal).2
  cases hs with
  | called calls ops slot =>
    cases h.symm.trans (step_enter hm turn ho ops calls (expand_sendCommand s.par w bytes))
    exact ⟨rfl, .inr ⟨ho, ⟨hm, faultless, on⟩, .polling _ _ rfl rfl slot⟩⟩
  | polling left left' calls ops slot =>
    obtain ⟨r, poll⟩ := step_spin_met hL hm on turn ho ops (meets_hostNotBusy slot.1)
    cases h.symm.trans poll
    exact ⟨rfl, .inr ⟨ho, ⟨hm, faultless, on⟩, .packing left' calls rfl slot⟩⟩
  | packing left' calls ops slot =>
    obtain ⟨e, a, packed⟩ := exists_pack_eq_some count enough
    cases h.symm.trans (step_encode hm turn ho ops count packed)
    exact ⟨rfl, .inr ⟨ho, ⟨hm, faultless, on⟩, .writing left' e a calls packed rfl slot⟩⟩
  | writing left' e a calls packed ops slot =>
    cases e with
    | none =>
      cases h.symm.trans (step_writeCommand hm on slot.1 turn ho legal (lanesOk_of_pack packed) ops)
      exact ⟨rfl, .inr ⟨ho, ⟨hm, faultless, on⟩, .waiting left' calls rfl (.inl (slot.latch packed rfl))⟩⟩
    | some x =>
      cases h.symm.trans (step_writeAddr hL hm on slot.1 turn ho ops)
      exact ⟨rfl, .inr ⟨ho, ⟨hm, faultless, on⟩, .addressed left' _ a calls packed rfl rfl slot⟩⟩
  | addressed left' e a calls packed extra ops slot =>
    cases h.symm.trans (step_writeCommand hm on slot.1 turn ho legal (lanesOk_of_pack packed) ops)
    exact ⟨rfl, .inr ⟨ho, ⟨hm, faultless, on⟩, .waiting left' calls rfl (.inl (slot.latch packed extra))⟩⟩
  | waiting left calls ops slot =>
    obtain ⟨r, poll⟩ := step_spin hL hm on turn ho ops
    rcases slot with issued | ⟨done, sent⟩
    · have clear : s.blk.meets .commandDone = false := issued.2.1
      rw [clear, if_neg Bool.false_ne_true] at poll
      cases h.symm.trans poll
      obtain ⟨frame, hf⟩ := spinOn_frame .commandDone left (s.polled .commandDone r [])
      refine ⟨by rw [hf]; rfl, ?_⟩
      rcases spinOn_commandDone left (s.polled .commandDone r []) with halted | ⟨left', again⟩
      · exact .inl halted
      · rw [again]
        exact .inr ⟨ho, ⟨hm, faultless, on⟩, .waiting left' calls rfl (.inl ⟨issued.1, rfl, issued.2.2⟩)⟩
    · have met : s.blk.meets .commandDone = true := done
      rw [if_pos met] at poll
      cases h.symm.trans poll
      exact ⟨rfl, .inr ⟨ho, ⟨hm, faultless, on⟩, .returned calls rfl ⟨rfl, sent⟩⟩⟩
  | returned calls ops slot =>
    rw [step_of_host_done hm turn ops calls] at h
    cases h

/-- Every step of every agent leads from a state of a run of the call to one. -/
theorem SendRun.step {p : Params} {w : Word} {bytes : List Byte} {T : List Event} (hL : p.layout.Wf)
    (legal : p.layout.legalCommand w = true) (enough : p.layout.acycle w ≤ bytes.length) {s t : State}
    (hs : SendRun p w bytes T s) (h : step s = .next t) : SendRun p w bytes T t := by
  obtain ⟨rfl, halted | ⟨ho, clean, stage⟩⟩ := hs
  · exact ⟨(step_later h).par, .inl (halted_stays halted h)⟩
  · by_cases turn : s.nextTurn = some .host
    · exact stage.of_host hL legal enough ho clean turn h
    · obtain ⟨par, host, moved⟩ := step_of_other_turn h turn
      refine ⟨par, .inr ?_⟩
      rw [host]
      obtain ⟨issue, out⟩ | ⟨inData, out⟩ | ⟨fall, rise, edge0, level, ecc, out⟩ := moved <;> rw [out]
      · exact ⟨ho, clean, stage.of_dispatch issue⟩
      · exact ⟨ho, clean, stage.of_transfer inData⟩
      · exact ⟨ho, clean, stage.of_inputs fall rise edge0 level ecc⟩

/-- A host that has returned is in the last stage. -/
theorem SendRun.of_returned {p : Params} {w : Word} {bytes : List Byte} {T : List Event} {t : State}
    (ht : SendRun p w bytes T t) (returned : t.returned = true) :
    t.blk.Clean ∧ t.blk.cmdDone = false ∧ t.blk.Sent p.layout w bytes T := by
  simp only [State.returned, Bool.and_eq_true, Option.isNone_iff_eq_none, List.isEmpty_iff] at returned
  obtain ⟨⟨ho, hops⟩, hcalls⟩ := returned
  obtain ⟨-, halted | ⟨-, clean, stage⟩⟩ := ht
  · exact absurd ho halted
  · cases stage with
    | returned _ _ slot => exact ⟨clean, slot⟩
    | called calls => simp [hcalls] at calls
    | polling _ _ _ ops | packing _ _ ops | addressed _ _ _ _ _ _ ops | waiting _ _ ops => simp [hops] at ops
    | writing _ e _ _ _ ops => simp [hops, commandWrites] at ops

/-- Settles O54: the call's start is a stage of it, every step leads from stage to stage, and a host that has returned is in
the last one. -/
theorem sendCommandDispatchesExactlyItsCommand : Obligations.SendCommandDispatchesExactlyItsCommand := by
  intro s t w bytes k hL hm on idle clear faultless ho hops hcalls legal enough h returned
  have start : SendRun s.par w bytes s.blk.trace s :=
    ⟨rfl, .inr ⟨ho, ⟨hm, faultless, on⟩, .called hcalls hops ⟨idle, clear, rfl⟩⟩⟩
  have run := after_induction (fun _ _ hs => hs.step hL legal enough) k s t start h
  obtain ⟨⟨hm', faultless', -⟩, clear', sent⟩ := run.of_returned returned
  refine ⟨by simp [State.unmarked, faultless', hm'], clear', ?_⟩
  rcases sent with ⟨-, trace⟩ | ⟨dataen, ⟨-, -, trace⟩ | ⟨-, trace⟩⟩
  · exact .inl trace
  · exact .inl trace
  · exact .inr ⟨dataen, trace⟩

end Sys2Proof.Machine
end
